-- ==== Sys2Proof/Word.lean ====
section
/-! DEFINITION. The word types of ZA-CORE (R6, R7, R8) and the four-word element every table field is made of. -/

namespace Sys2Proof

/-- A word: an unsigned integer in [0, 2^64) (R7). -/
abbrev Word := BitVec 64

/-- A BUF word address, or a CMD index: 16 bits (R6 `AW`). -/
abbrev Addr := BitVec 16

/-- N = 4 words, `w0` the least significant (R6, R8): a field element or fixed-width integer as a table holds it. -/
structure Quad where
  w0 : Word
  w1 : Word
  w2 : Word
  w3 : Word
deriving DecidableEq, Repr

end Sys2Proof
end

