-- ==== Sys2Proof/Config.lean ====
section
/-! DEFINITION. What an implementation of ZA-CORE fixes: the parameters of R6, the choice of ProjImpl (R114), and the free
values of everything the spec leaves unspecified.  A free value has no body: nothing can be proved of which value it is. -/

namespace Sys2Proof.Config

/-- BUFWORDS of R6: words of buffer memory. -/
def bufWords : Nat := 65536

/-- CMDWORDS of R6: command words of command memory. -/
def cmdWords : Nat := 65536

/-- LENMAX of R6: the largest word count of a big-integer exponent or scalar. -/
def lenMax : Nat := 127

/-- Which ProjImpl the unit has (R114, D25): the reference one of R116, or one of the others, known by a number. -/
inductive ProjChoice where
  /-- `ProjRef` of R116, the spec's default for execution. -/
  | reference
  /-- Any other implementation that R115 allows. -/
  | other (id : Nat)
deriving DecidableEq, Repr

/-- The four functions of a ProjImpl (R114). -/
inductive ProjOp where
  | pfroma
  | pdbl
  | padd
  | psmul
deriving DecidableEq, Repr

/-- FREE VALUE (log 2). What word `a` of BUF holds after power-on, before anyone writes it: unspecified (R18, R31, U12). -/
opaque powerOnBuf : Nat → Word

/-- FREE VALUE (log 3). What command word `i` of CMD holds after power-on, before the host writes it (R19, R31, U12). -/
opaque powerOnCmd : Nat → Word

/-- FREE VALUE (log 5). Word `i` of the unspecified value drawn as number `n` (R11). -/
opaque freeWord : (n i : Nat) → Word

/-- FREE VALUE (log 5). The unspecified truth value drawn as number `n` (R11). -/
opaque freeBit : (n : Nat) → Bool

/-- FREE VALUE (log 8). The words implementation `id` answers for an operation, as a function of the field and the
curve coefficients (`params`) and of its arguments alone (R114: "depends on nothing but its arguments"). -/
opaque projWords : (id : Nat) → ProjOp → (params args : List Nat) → Nat × Nat × Nat

end Sys2Proof.Config
end

