-- ==== Sys2Proof/Machine/State.lean ====
section
/-! DEFINITION. The state of ZA-CORE as plain data (R14), and its value after reset (R31, R136).  BUF and CMD are sparse lists
of words; everything else is a field of its own.  `freeCount` and `projImpl` are the model's own. -/

namespace Sys2Proof.Machine

/-- A word memory: (address, word) pairs, addresses strictly rising (`Memory.wf`).  An unlisted address has no value (R31).
The cells are whole words, since "a model must not introduce a byte view of BUF" (R33; log 1). -/
structure Memory where
  cells : List (Nat × Word)
deriving DecidableEq, Repr

/-- A field descriptor bank (R24): 21 words. -/
structure Desc where
  /-- The prime modulus p. -/
  P : Quad
  /-- p + 1. -/
  PP1 : Quad
  /-- 2^256 mod p, the Montgomery encoding of 1. -/
  R1 : Quad
  /-- 2^512 mod p. -/
  R2 : Quad
  /-- 2^768 mod p. -/
  R3 : Quad
  /-- (−p⁻¹) mod 2^64, the reduction multiplier. -/
  NINV : Word
deriving DecidableEq, Repr

/-- The curve table (R26): 24 words. -/
structure CurveTable where
  A : Quad
  B : Quad
  B3 : Quad
  GENX : Quad
  GENY : Quad
  COF : Quad
deriving DecidableEq, Repr

/-- The machine state: the record of R14, and the model's own `freeCount` and `projImpl`. -/
structure State where
  /-- BUF (R18). -/
  buf : Memory
  /-- CMD (R19). -/
  cmd : Memory
  /-- The program counter (R16). -/
  pc : BitVec 16
  /-- The flag T (R17). -/
  t : Bool
  /-- RUN (R20). -/
  run : Bool
  /-- DONE (R20). -/
  done : Bool
  /-- FAULT (R20). -/
  faulted : Bool
  /-- CAUSE (R21). -/
  cause : BitVec 4
  /-- FINFO (R22). -/
  finfo : Word
  /-- FD[0] (R24). -/
  fd0 : Desc
  /-- FD[1] (R24). -/
  fd1 : Desc
  /-- CV (R26). -/
  cv : CurveTable
  /-- THE MODEL'S OWN (log 6): how many free values have been drawn. -/
  freeCount : Nat
  /-- THE MODEL'S OWN (log 8): which ProjImpl the unit has (R114). -/
  projImpl : Config.ProjChoice
deriving DecidableEq, Repr

/-- The model stops with no fault: the three faults of R126 have an entry the spec describes (R131), so they are next states,
and a violated precondition writes free values (R11).  Nobody raises a value of this type; that is safe. -/
inductive Fault
deriving DecidableEq, Repr

/-- Why a step has no meaning. -/
inductive Refusal where
  /-- An instruction with no meaning in `exec`.  Safe.  No arm of `exec` answers it: every instruction has its meaning. -/
  | notModelled (mnemonic : String)
deriving DecidableEq, Repr

/-- Four zero words. -/
def quadZero : Quad := ⟨0#64, 0#64, 0#64, 0#64⟩

/-- The contents of FD[0] and FD[1] after power-on: unspecified by the spec (R31), zero here (log 4). -/
def Desc.zero : Desc := ⟨quadZero, quadZero, quadZero, quadZero, quadZero, 0#64⟩

/-- The contents of CV after power-on: unspecified by the spec (R31), zero here (log 4). -/
def CurveTable.zero : CurveTable := ⟨quadZero, quadZero, quadZero, quadZero, quadZero, quadZero⟩

/-- The state right after power-on (R31, R136): the unit idle, pc = 0, every flag and status 0, no memory word written. -/
def State.reset : State where
  buf := ⟨[]⟩
  cmd := ⟨[]⟩
  pc := 0#16
  t := false
  run := false
  done := false
  faulted := false
  cause := 0#4
  finfo := 0#64
  fd0 := Desc.zero
  fd1 := Desc.zero
  cv := CurveTable.zero
  freeCount := 0
  projImpl := .reference

end Sys2Proof.Machine
end

