-- ==== Sys2Proof/Machine/Ops.lean ====
section
/-! DEFINITION. The named operations over memory and registers: limbs (R8), word memories (R18, R19, R32), MemRead and MemWrite
(R9, R40), unspecified results (R11), the advance of pc (R16), fault entry (R131), launch (R54) and the reset of the control
state (R136). -/

namespace Sys2Proof.Machine

/-! ### Limbs (R8) -/

/-- `limb(v, i)`: word `i` of the integer `v` (R8). -/
def limb (v i : Nat) : Nat := v / 2 ^ (64 * i) % 2 ^ 64

/-- The integer a four-word table field holds, least-significant word first (R8, R24). -/
def quadVal (q : Quad) : Nat :=
  q.w0.toNat + q.w1.toNat * 2 ^ 64 + q.w2.toNat * 2 ^ 128 + q.w3.toNat * 2 ^ 192

/-- The four words of an integer, least-significant word first (R8). -/
def quadOf (v : Nat) : Quad :=
  ⟨BitVec.ofNat 64 (limb v 0), BitVec.ofNat 64 (limb v 1), BitVec.ofNat 64 (limb v 2), BitVec.ofNat 64 (limb v 3)⟩

/-! ### Word memories -/

/-- The word listed at address `a`. -/
def lookupCell : List (Nat × Word) → Nat → Option Word
  | [], _ => none
  | (b, u) :: rest, a => if a = b then some u else lookupCell rest a

/-- Lists the word `v` at address `a`, at its place in the rising order, in place of a word listed there. -/
def insertCell : List (Nat × Word) → Nat → Word → List (Nat × Word)
  | [], a, v => [(a, v)]
  | (b, u) :: rest, a, v =>
    if a < b then (a, v) :: (b, u) :: rest
    else if a = b then (a, v) :: rest
    else (b, u) :: insertCell rest a v

/-- The word at an address, or no value if nobody has written it (R31). -/
def Memory.read (m : Memory) (a : Nat) : Option Word := lookupCell m.cells a

/-- Writes one word. -/
def Memory.write (m : Memory) (a : Nat) (v : Word) : Memory := ⟨insertCell m.cells a v⟩

/-- Addresses rise strictly from at least `lo` and stay below `size`. -/
def risingFrom (size : Nat) : Nat → List (Nat × Word) → Bool
  | _, [] => true
  | lo, (a, _) :: rest => decide (lo ≤ a) && decide (a < size) && risingFrom size (a + 1) rest

/-- The canonical form of a memory of `size` words.  An unlisted word has no value, so no entry can equal it. -/
def Memory.wf (m : Memory) (size : Nat) : Bool := risingFrom size 0 m.cells

/-- The word of BUF at an address; one that nobody has written since power-on holds an unspecified word (U12; log 2). -/
def State.bufWord (s : State) (a : Nat) : Word := (s.buf.read a).getD (Config.powerOnBuf a)

/-- The command word of CMD at an index; one that nobody has written holds an unspecified word (U12; log 3). -/
def State.cmdWord (s : State) (i : Nat) : Word := (s.cmd.read i).getD (Config.powerOnCmd i)

/-- The `k`-word value at BUF addresses `a` … `a + k − 1`, least-significant word first (R8). -/
def State.readAt (s : State) : (a k : Nat) → Nat
  | _, 0 => 0
  | a, k + 1 => (s.bufWord a).toNat + 2 ^ 64 * s.readAt (a + 1) k

/-- `MemRead(a, k)` (R9). -/
def State.memRead (s : State) (a : Addr) (k : Nat) : Nat := s.readAt a.toNat k

/-- Writes the `k` low words of `v` at addresses `a` … `a + k − 1`, least-significant word first (R8). -/
def Memory.writeWords : (m : Memory) → (a k v : Nat) → Memory
  | m, _, 0, _ => m
  | m, a, k + 1, v => Memory.writeWords (m.write a (BitVec.ofNat 64 v)) (a + 1) k (v / 2 ^ 64)

/-- `MemWrite(a, k, v)` (R9). -/
def State.memWrite (s : State) (a : Addr) (k v : Nat) : State := { s with buf := s.buf.writeWords a.toNat k v }

/-! ### Registers -/

/-- `T <- b` (R9, R17). -/
def State.setT (s : State) (b : Bool) : State := { s with t := b }

/-- pc <- pc + 1, the end of every command that completes with outcome next state (R16, R55). -/
def State.advance (s : State) : State := { s with pc := s.pc + 1#16 }

/-! ### Unspecified results (R11; log 5) -/

/-- The `k`-word unspecified value that is drawn as number `n`, its words from index `i` on. -/
def freeWords (n : Nat) : (i k : Nat) → Nat
  | _, 0 => 0
  | i, k + 1 => (Config.freeWord n i).toNat + 2 ^ 64 * freeWords n (i + 1) k

/-- One more free value has been drawn. -/
def State.draw (s : State) : State := { s with freeCount := s.freeCount + 1 }

/-- `MemWrite(rd, k, ·)` of a result; where no rule gives one (`none`: the precondition failed), `k` unspecified words are
written to the same place and to no other (R11). -/
def State.writeResult (s : State) (rd : Addr) (k : Nat) (v : Option Nat) : State :=
  match v with
  | some x => s.memWrite rd k x
  | none => (s.memWrite rd k (freeWords s.freeCount 0 k)).draw

/-- `T <-` of a predicate; where no rule gives its value (the precondition failed), an unspecified truth value (R11). -/
def State.flagResult (s : State) (b : Option Bool) : State :=
  match b with
  | some x => s.setT x
  | none => (s.setT (Config.freeBit s.freeCount)).draw

/-! ### Fault entry, launch, reset -/

/-- The three faults of the command framing (R126). -/
inductive ArchFault where
  /-- The word is illegal (R127). -/
  | illegalCommand
  /-- A used operand passes the end of BUF (R128). -/
  | addressRange
  /-- A command other than HALT stands in the last slot of CMD (R129). -/
  | pcOverflow
deriving DecidableEq, Repr

/-- The code that CAUSE records (R21, R126). -/
def ArchFault.code : ArchFault → BitVec 4
  | .illegalCommand => 1#4
  | .addressRange => 2#4
  | .pcOverflow => 3#4

/-- FAULT ENTRY, `raise X(w)` (R131): CAUSE, FINFO, FAULT and RUN change, and nothing else.  There is no return from it
(R132): the ways on are a launch or a reset. -/
def State.raise (s : State) (x : ArchFault) (w : Word) : State :=
  { s with cause := x.code, finfo := w, faulted := true, run := false }

/-- LAUNCH (R54): pc, T, BUF, CMD and the tables keep their values. -/
def State.launch (s : State) : State :=
  { s with run := true, done := false, faulted := false, cause := 0#4, finfo := 0#64 }

/-- The reset of the control state (R136); BUF, CMD, FD and CV stay. -/
def State.resetControl (s : State) : State :=
  { s with pc := 0#16, t := false, run := false, done := false, faulted := false, cause := 0#4, finfo := 0#64 }

end Sys2Proof.Machine
end

