-- ==== Sys2Proof/Machine/FieldArith.lean ====
section
/-! DEFINITION. The pure functions of the Montgomery field engine (R70 to R81), on integers, and the check of a field
descriptor (R25).  Each function is used on the domain its rule states; outside it the commands write unspecified values. -/

namespace Sys2Proof.Machine

/-- F.P, the modulus, as an integer (R9). -/
def Desc.p (F : Desc) : Nat := quadVal F.P

/-- F.R1 = R mod p, the Montgomery encoding of 1, as an integer. -/
def Desc.one (F : Desc) : Nat := quadVal F.R1

/-! ### Montgomery reduction (R71) -/

/-- Step `i` of R71: adds m·p·2^(64 i) with m = (limb(U, i)·NINV) mod 2^64. -/
def redcStep (F : Desc) (i u : Nat) : Nat :=
  u + limb u i * F.NINV.toNat % 2 ^ 64 * F.p * 2 ^ (64 * i)

/-- `redc(F, t)` (R71): the four steps, the quotient by 2^256 with its overflow word (C4, D28), one conditional subtraction. -/
def redc (F : Desc) (t : Nat) : Nat :=
  let v := redcStep F 3 (redcStep F 2 (redcStep F 1 (redcStep F 0 t))) / 2 ^ 256
  if F.p ≤ v then v - F.p else v

/-! ### Addition, subtraction, negation (R74 to R76) -/

/-- `fadd(F, a, b)` (R74): the comparison is on the exact sum. -/
def fadd (F : Desc) (a b : Nat) : Nat := if F.p ≤ a + b then a + b - F.p else a + b

/-- `fsub(F, a, b)` (R75). -/
def fsub (F : Desc) (a b : Nat) : Nat := if a < b then a + F.p - b else a - b

/-- `fneg(F, a)` (R76): the complement of a plus p + 1. -/
def fneg (F : Desc) (a : Nat) : Nat := if a = 0 then 0 else (2 ^ 256 - 1 - a + quadVal F.PP1) % 2 ^ 256

/-! ### Multiplication and powers (R77, R78) -/

/-- `fmul(F, a, b)` (R77). -/
def fmul (F : Desc) (a b : Nat) : Nat := redc F (a * b)

/-- `fsqr(F, a)` (R77). -/
def fsqr (F : Desc) (a : Nat) : Nat := redc F (a * a)

/-- The loop of R78 over `nb` exponent bits, least significant first, with the accumulator `r` and the running square `s`. -/
def fpowLoop (F : Desc) : (nb e r s : Nat) → Nat
  | 0, _, r, _ => r
  | nb + 1, e, r, s => fpowLoop F nb (e / 2) (if e % 2 = 1 then fmul F r s else r) (fsqr F s)

/-- `fpow(F, a, e, nb)` (R78). -/
def fpow (F : Desc) (a e nb : Nat) : Nat := fpowLoop F nb e F.one a

/-! ### The standard representation (R79 to R81) -/

/-- a^e mod n by square and multiply, for e < 2^bits. -/
def powMod (n : Nat) : (bits a e : Nat) → Nat
  | 0, _, _ => 1 % n
  | bits + 1, a, e =>
    if e = 0 then 1 % n
    else
      let h := powMod n bits (a * a % n) (e / 2)
      if e % 2 = 1 then a * h % n else h

/-- `stdinv(F, a)` (R79): a^(p−2) mod p with plain modular multiplication. -/
def stdinv (F : Desc) (a : Nat) : Nat := powMod F.p 256 a (F.p - 2)

/-- `finv(F, a)` (R80): the stored words go to the standard routine as they stand (C1). -/
def finv (F : Desc) (a : Nat) : Nat := fmul F (stdinv F a) (quadVal F.R3)

/-- `fdiv(F, a, b)` (R80). -/
def fdiv (F : Desc) (a b : Nat) : Nat := fmul F (a * stdinv F b % F.p) (quadVal F.R2)

/-- `tostd(F, a)` (R81). -/
def tostd (F : Desc) (a : Nat) : Nat := redc F a

/-- `fromstd(F, a)` (R81). -/
def fromstd (F : Desc) (a : Nat) : Nat := fmul F a (quadVal F.R2)

/-! ### The descriptor check (R25; log 7) -/

/-- Primes that `isPrime` knows without a search: the moduli of `spec/95_test_vectors.md` section 4.  Membership shortens an
evaluation and decides nothing: `Laws/Primes.lean` proves each of them prime (log 7). -/
def provenPrimes : List Nat :=
  [21888242871839275222246405745257275088696311157297823662689037894645226208583,
    21888242871839275222246405745257275088548364400416034343698204186575808495617,
    57896044618658097711785492504343953926634992332820282019728792003956564820063]

/-- None of `d`, `d + 1`, … up to the square root of `n` divides `n` (`fuel` bounds the search). -/
def noDivisorFrom (n : Nat) : (fuel d : Nat) → Bool
  | 0, _ => true
  | fuel + 1, d => decide (n < d * d) || (decide (n % d ≠ 0) && noDivisorFrom n fuel (d + 1))

/-- Primality, exactly (`isPrime_iff` of `Laws/Primes.lean`; log 7). -/
def isPrime (n : Nat) : Bool := decide (2 ≤ n) && (provenPrimes.contains n || noDivisorFrom n n 2)

/-- WF(F) of R25 (`Desc.wfCheck_iff`; log 7). -/
def Desc.wfCheck (F : Desc) : Bool :=
  decide (3 ≤ F.p) && decide (F.p % 2 = 1) && decide (F.P.w3.toNat < 2 ^ 64 - 1) && decide (quadVal F.PP1 = F.p + 1)
    && decide (quadVal F.R1 = 2 ^ 256 % F.p) && decide (quadVal F.R2 = (2 ^ 256) ^ 2 % F.p)
    && decide (quadVal F.R3 = (2 ^ 256) ^ 3 % F.p) && decide (F.NINV.toNat * F.p % 2 ^ 64 = 2 ^ 64 - 1) && isPrime F.p

/-- An element operand is reduced (R70). -/
def Desc.reduced (F : Desc) (a : Nat) : Bool := decide (a < F.p)

/-- A value where the precondition `c` of its rule holds; no value where it does not (R11, R12). -/
def whenPre (c : Bool) (v : Nat) : Option Nat := if c then some v else none

end Sys2Proof.Machine
end

