-- ==== Sys2Proof/Machine/CurveArith.lean ====
section
/-! DEFINITION. The pure functions of the affine curve group (R96 to R102) and the check of a curve table (R27).  A function
that its rule defines on a domain only answers `none` outside it (R12). -/

namespace Sys2Proof.Machine

/-- An affine point as a mathematical value (R12): Infinity, or a pair of stored coordinates. -/
inductive Pt where
  | inf
  | fin (x y : Nat)
deriving DecidableEq, Repr

/-- C = (FD[0], CV) (R12). -/
structure Curve where
  F : Desc
  cv : CurveTable
deriving DecidableEq, Repr

/-- C of the current state (R12, R47: curve commands take their coordinate field from FD[0]). -/
def State.curve (s : State) : Curve := ⟨s.fd0, s.cv⟩

/-- `isinf(w)`: eight all-ones words (R97). -/
def isinf (w : Nat) : Bool := decide (w = 2 ^ 512 - 1)

/-- `decA(w)` (R96). -/
def decA (w : Nat) : Pt := if isinf w then .inf else .fin (w % 2 ^ 256) (w / 2 ^ 256)

/-- `encA(P)` (R96). -/
def encA : Pt → Nat
  | .inf => 2 ^ 512 - 1
  | .fin x y => x + y * 2 ^ 256

/-- Infinity, or a valid finite point: both coordinates reduced (R96). -/
def Pt.valid (F : Desc) : Pt → Bool
  | .inf => true
  | .fin x y => F.reduced x && F.reduced y

/-- x³ + A·x + B under the field functions (R98). -/
def curveRhs (C : Curve) (x : Nat) : Nat :=
  fadd C.F (fadd C.F (fmul C.F (fsqr C.F x) x) (fmul C.F (quadVal C.cv.A) x)) (quadVal C.cv.B)

/-- `oncurve(C, P)` (R98). -/
def oncurve (C : Curve) : Pt → Bool
  | .inf => true
  | .fin x y => decide (fsub C.F (fsqr C.F y) (curveRhs C x) = 0)

/-- `aneg(C, P)` (R99). -/
def aneg (C : Curve) : Pt → Pt
  | .inf => .inf
  | .fin x y => .fin x (fneg C.F y)

/-- The point on the line of slope `s` through (x₁, y₁) whose x is s² − x₁ − x₂ (R100, R101). -/
def chord (F : Desc) (s x₁ y₁ x₂ : Nat) : Pt :=
  let x' := fsub F (fsub F (fsqr F s) x₁) x₂
  .fin x' (fneg F (fadd F y₁ (fmul F s (fsub F x' x₁))))

/-- The slope (3x² + A) / (2y) of R100. -/
def tangentSlope (C : Curve) (x y : Nat) : Nat :=
  let xx := fsqr C.F x
  fdiv C.F (fadd C.F (fadd C.F (fadd C.F xx xx) xx) (quadVal C.cv.A)) (fadd C.F y y)

/-- `adbl(C, P)` (R100), with its domain: Infinity, or x < p and 0 < y < p. -/
def adbl (C : Curve) : Pt → Option Pt
  | .inf => some .inf
  | .fin x y =>
    if C.F.reduced x && C.F.reduced y && decide (0 < y) then some (chord C.F (tangentSlope C x y) x y x) else none

/-- `aadd(C, P, Q)` (R101): the five cases in their order, with their domain. -/
def aadd (C : Curve) (P Q : Pt) : Option Pt :=
  if P.valid C.F && Q.valid C.F then
    match P, Q with
    | .inf, Q => some Q
    | P, .inf => some P
    | .fin xP yP, .fin xQ yQ =>
      if xP = xQ ∧ yP = yQ then adbl C (.fin xP yP)
      else if xP = xQ ∧ yP = fneg C.F yQ then some .inf
      else if xP = xQ then none
      else some (chord C.F (fdiv C.F (fsub C.F yQ yP) (fsub C.F xQ xP)) xP yP xQ)
  else none

/-- The loop of R102 over bits i − 1, …, 0 of `k`, most significant first. -/
def smulLoop (C : Curve) (k : Nat) (P : Pt) : (i : Nat) → (acc : Pt) → Option Pt
  | 0, acc => some acc
  | i + 1, acc =>
    match adbl C acc with
    | none => none
    | some d =>
      match (if k.testBit i then aadd C d P else some d) with
      | none => none
      | some r => smulLoop C k P i r

/-- `smul(C, k, nb, P)` (R102), with its domain: P is Infinity or a valid point on the curve, and every step is in its domain. -/
def smul (C : Curve) (k nb : Nat) (P : Pt) : Option Pt :=
  if P.valid C.F && oncurve C P then smulLoop C k P nb .inf else none

/-- WFC(C) of R27, which does not ask that the curve be non-singular. -/
def Curve.wfCheck (C : Curve) : Bool :=
  C.F.wfCheck && C.F.reduced (quadVal C.cv.A) && C.F.reduced (quadVal C.cv.B) && C.F.reduced (quadVal C.cv.B3)
    && C.F.reduced (quadVal C.cv.GENX) && C.F.reduced (quadVal C.cv.GENY)
    && decide (quadVal C.cv.B3 = fadd C.F (quadVal C.cv.B) (fadd C.F (quadVal C.cv.B) (quadVal C.cv.B)))
    && oncurve C (.fin (quadVal C.cv.GENX) (quadVal C.cv.GENY))

/-- The curve is not singular: 4A³ + 27B² ≠ 0 modulo p, on the represented values (R27, G1). -/
def Curve.nonsingularCheck (C : Curve) : Bool :=
  decide ((4 * tostd C.F (quadVal C.cv.A) ^ 3 + 27 * tostd C.F (quadVal C.cv.B) ^ 2) % C.F.p ≠ 0)

/-- The curve tables with which a curve command's result is specified (U11, R11): WFC(C) of R27, and not a singular curve.  It is
the precondition of every command that has WFC(C) (log 24). -/
def Curve.specifiedCheck (C : Curve) : Bool := C.wfCheck && C.nonsingularCheck

/-! ### The premise of R116: no finite point of the curve has y = 0 -/

/-- c₀ + c₁X + c₂X², a residue modulo p and modulo the cubic X³ − sX − t. -/
structure CubicResidue where
  c0 : Int
  c1 : Int
  c2 : Int
deriving DecidableEq, Repr

/-- The product of two residues, with X³ = sX + t. -/
def cubicMul (p : Nat) (s t : Int) (u v : CubicResidue) : CubicResidue :=
  let d3 := u.c1 * v.c2 + u.c2 * v.c1
  let d4 := u.c2 * v.c2
  ⟨(u.c0 * v.c0 + t * d3) % p, (u.c0 * v.c1 + u.c1 * v.c0 + s * d3 + t * d4) % p,
    (u.c0 * v.c2 + u.c1 * v.c1 + u.c2 * v.c0 + s * d4) % p⟩

/-- u^e by square and multiply, for e < 2^bits. -/
def cubicPow (p : Nat) (s t : Int) : (bits : Nat) → (u : CubicResidue) → (e : Nat) → CubicResidue
  | 0, _, _ => ⟨1, 0, 0⟩
  | bits + 1, u, e =>
    if e = 0 then ⟨1, 0, 0⟩
    else
      let h := cubicPow p s t bits (cubicMul p s t u u) (e / 2)
      if e % 2 = 1 then cubicMul p s t u h else h

/-- The norm of a residue: the determinant of the multiplication by it. -/
def cubicNorm (s t : Int) (u : CubicResidue) : Int :=
  let e := u.c0 + s * u.c2
  let f := t * u.c2 + s * u.c1
  u.c0 * (e * e - u.c1 * f) - t * u.c2 * (u.c1 * e - u.c2 * f) + t * u.c1 * (u.c1 * u.c1 - u.c2 * e)

/-- X³ + aX + b has no root modulo the prime p: X^p − X is a unit modulo it (`rootFree_iff` of `Laws/Cubic.lean`). -/
def rootFree (p a b : Nat) : Bool :=
  let g := cubicPow p (-a) (-b) 256 ⟨0, 1, 0⟩ p
  decide (cubicNorm (-a) (-b) ⟨g.c0, g.c1 - 1, g.c2⟩ % p ≠ 0)

/-- The extra premise of R116 for ProjRef, on the represented values (`Curve.noOrderTwoCheck_iff`): no finite point of the curve
has y = 0. -/
def Curve.noOrderTwoCheck (C : Curve) : Bool :=
  rootFree C.F.p (tostd C.F (quadVal C.cv.A)) (tostd C.F (quadVal C.cv.B))

/-- The precondition on the curve table of the commands that the unit computes with ProjImpl's addition: that of every command
with WFC(C), and the premise that R116 and G4 add to WFC when the ProjImpl is ProjRef (log 25). -/
def State.wfcCheck (s : State) : Bool :=
  s.curve.specifiedCheck && (decide (s.projImpl ≠ .reference) || s.curve.noOrderTwoCheck)

/-- What AINSUB gives T (R105), where its precondition holds; the multiple by CV.COF is the affine one, which R105 states
(log 22).  `wfc` is whether WFC(C) holds. -/
def insub (wfc : Bool) (C : Curve) (P : Pt) : Option Bool :=
  if wfc && P.valid C.F then
    if oncurve C P then
      match P with
      | .inf => some true
      | .fin x y => (smul C (quadVal C.cv.COF) 256 (.fin x y)).map fun Q => decide (Q = .inf)
    else some false
  else none

end Sys2Proof.Machine
end

