-- ==== Sys2Proof/Syntax.lean ====
section
/-! DEFINITION. The commands of ZA-CORE: one constructor per row of the opcode map R49 (`spec/opcode_table.json`), with the
fields the command uses and no other. -/

namespace Sys2Proof

/-- The field descriptor bank that bit `fs` selects (R47). -/
inductive Bank where
  | b0
  | b1
deriving DecidableEq, Repr

/-- The 42 commands (R49).  `rd`, `ra`, `rb` are BUF word addresses, `fs` a descriptor bank, `len` a word count (R45). -/
inductive Instr where
  /-- `HALT`, op 0x00 (R57). End the run. -/
  | halt
  /-- `STT`, op 0x01 (R58). Store the flag T as a word 0 or 1. -/
  | stt (rd : Addr)
  /-- `IADD`, op 0x10 (R61). Exact 256-bit add, carry out in T. -/
  | iadd (rd ra rb : Addr)
  /-- `ISUB`, op 0x11 (R62). Exact 256-bit subtract a − b, borrow out in T. -/
  | isub (rd ra rb : Addr)
  /-- `ISUBR`, op 0x12 (R63). Reverse subtract b − a, borrow out in T. -/
  | isubr (rd ra rb : Addr)
  /-- `IMUL`, op 0x13 (R64). Full 512-bit product. -/
  | imul (rd ra rb : Addr)
  /-- `ISQR`, op 0x14 (R65). Full 512-bit square. -/
  | isqr (rd ra : Addr)
  /-- `ITSTZ`, op 0x15 (R66). T <- (a = 0). -/
  | itstz (ra : Addr)
  /-- `IEQ`, op 0x16 (R67). T <- (a = b). -/
  | ieq (ra rb : Addr)
  /-- `ICOPY`, op 0x17 (R68). Copy four words. -/
  | icopy (rd ra : Addr)
  /-- `ICLR`, op 0x18 (R69). Clear four words. -/
  | iclr (rd : Addr)
  /-- `FADD`, op 0x20 (R82). Field add. -/
  | fadd (fs : Bank) (rd ra rb : Addr)
  /-- `FSUB`, op 0x21 (R83). Field subtract. -/
  | fsub (fs : Bank) (rd ra rb : Addr)
  /-- `FNEG`, op 0x22 (R84). Field negate. -/
  | fneg (fs : Bank) (rd ra : Addr)
  /-- `FMUL`, op 0x23 (R85). Montgomery multiply. -/
  | fmul (fs : Bank) (rd ra rb : Addr)
  /-- `FSQR`, op 0x24 (R86). Montgomery square. -/
  | fsqr (fs : Bank) (rd ra : Addr)
  /-- `FREDC`, op 0x25 (R87). Montgomery reduction of an 8-word value. -/
  | fredc (fs : Bank) (rd ra : Addr)
  /-- `FPOW64`, op 0x26 (R88). Power by a 1-word exponent. -/
  | fpow64 (fs : Bank) (rd ra rb : Addr)
  /-- `FPOWB`, op 0x27 (R89). Power by a `len`-word exponent. -/
  | fpowb (fs : Bank) (rd ra rb : Addr) (len : Nat)
  /-- `FINV`, op 0x28 (R90). Field inverse. -/
  | finv (fs : Bank) (rd ra : Addr)
  /-- `FDIV`, op 0x29 (R91). Field quotient a / b. -/
  | fdiv (fs : Bank) (rd ra rb : Addr)
  /-- `FISONE`, op 0x2A (R92). T <- (a = R mod p). -/
  | fisone (fs : Bank) (ra : Addr)
  /-- `FSETONE`, op 0x2B (R93). Write R mod p. -/
  | fsetone (fs : Bank) (rd : Addr)
  /-- `FTOSTD`, op 0x2C (R94). Montgomery form to standard form. -/
  | ftostd (fs : Bank) (rd ra : Addr)
  /-- `FFROMSTD`, op 0x2D (R95). Standard form to Montgomery form. -/
  | ffromstd (fs : Bank) (rd ra : Addr)
  /-- `AISINF`, op 0x30 (R103). T <- (the point is Infinity). -/
  | aisinf (ra : Addr)
  /-- `AONCRV`, op 0x31 (R104). T <- (the point is on the curve). -/
  | aoncrv (ra : Addr)
  /-- `AINSUB`, op 0x32 (R105). T <- (on the curve and CV.COF times the point is Infinity). -/
  | ainsub (ra : Addr)
  /-- `ANEG`, op 0x33 (R106). Negate an affine point. -/
  | aneg (rd ra : Addr)
  /-- `ADBL`, op 0x34 (R107). Double an affine point. -/
  | adbl (rd ra : Addr)
  /-- `AADD`, op 0x35 (R108). Add two affine points. -/
  | aadd (rd ra rb : Addr)
  /-- `ASMUL64`, op 0x36 (R109). Multiply an affine point by a 1-word scalar. -/
  | asmul64 (rd ra rb : Addr)
  /-- `ASMULB`, op 0x37 (R110). Multiply an affine point by a `len`-word scalar. -/
  | asmulb (rd ra rb : Addr) (len : Nat)
  /-- `ASMULF`, op 0x38 (R111). Multiply an affine point by a scalar in Montgomery form of bank `fs`. -/
  | asmulf (fs : Bank) (rd ra rb : Addr)
  /-- `PFROMA`, op 0x40 (R117). Affine point to projective triple. -/
  | pfroma (rd ra : Addr)
  /-- `PTOA`, op 0x41 (R118). Projective triple to affine point. -/
  | ptoa (rd ra : Addr)
  /-- `PISINF`, op 0x42 (R119). T <- (Z = 0). -/
  | pisinf (ra : Addr)
  /-- `PDBL`, op 0x43 (R120). Double a triple. -/
  | pdbl (rd ra : Addr)
  /-- `PADD`, op 0x44 (R121). Add two triples. -/
  | padd (rd ra rb : Addr)
  /-- `PSMUL64`, op 0x45 (R122). Multiply a triple by a 1-word scalar. -/
  | psmul64 (rd ra rb : Addr)
  /-- `PSMULB`, op 0x46 (R123). Multiply a triple by a `len`-word scalar. -/
  | psmulb (rd ra rb : Addr) (len : Nat)
  /-- `PSMULF`, op 0x47 (R124). Multiply a triple by a scalar in Montgomery form of bank `fs`. -/
  | psmulf (fs : Bank) (rd ra rb : Addr)
deriving DecidableEq, Repr

end Sys2Proof
end

