-- ==== Sys2Proof/WellFormed.lean ====
section
/-! DEFINITION. Which terms of `Instr` are commands a word can hold.  Addresses and banks are bit-exact by their types; the
word count `len` is a number, and its field has 7 bits. -/

namespace Sys2Proof

/-- `len` fits its 7-bit field: 0 to LENMAX = 127 (R6, R48). -/
def lenFits (len : Nat) : Bool := decide (len ≤ Config.lenMax)

/-- The command is one that some 64-bit word encodes (R45, R48). -/
def Instr.wellFormed : Instr → Bool
  | .fpowb _ _ _ _ len => lenFits len
  | .asmulb _ _ _ len => lenFits len
  | .psmulb _ _ _ len => lenFits len
  | .halt | .stt .. | .iadd .. | .isub .. | .isubr .. | .imul .. | .isqr .. | .itstz .. | .ieq .. | .icopy .. | .iclr ..
  | .fadd .. | .fsub .. | .fneg .. | .fmul .. | .fsqr .. | .fredc .. | .fpow64 .. | .finv .. | .fdiv .. | .fisone ..
  | .fsetone .. | .ftostd .. | .ffromstd .. | .aisinf .. | .aoncrv .. | .ainsub .. | .aneg .. | .adbl .. | .aadd ..
  | .asmul64 .. | .asmulf .. | .pfroma .. | .ptoa .. | .pisinf .. | .pdbl .. | .padd .. | .psmul64 .. | .psmulf .. => true

end Sys2Proof
end

