-- ==== Sys2Proof/Decode.lean ====
section
/-! DEFINITION. The decoder and the encoder of the one command format C (R45 to R51). -/

namespace Sys2Proof

/-- The six fields of format C (R45); an absent field is zero. -/
structure Fields where
  op : BitVec 8 := 0#8
  fs : BitVec 1 := 0#1
  len : BitVec 7 := 0#7
  rd : Addr := 0#16
  ra : Addr := 0#16
  rb : Addr := 0#16
deriving DecidableEq, Repr

/-- The fields of a command word at their bit positions (R45). -/
def fieldsOf (w : Word) : Fields where
  op := w.extractLsb' 0 8
  fs := w.extractLsb' 8 1
  len := w.extractLsb' 9 7
  rd := w.extractLsb' 16 16
  ra := w.extractLsb' 32 16
  rb := w.extractLsb' 48 16

/-- The command word made of six fields: op + fs·2^8 + len·2^9 + rd·2^16 + ra·2^32 + rb·2^48 (R51). -/
def packFields (f : Fields) : Word :=
  BitVec.ofNat 64 (f.op.toNat + f.fs.toNat * 2 ^ 8 + f.len.toNat * 2 ^ 9 + f.rd.toNat * 2 ^ 16
    + f.ra.toNat * 2 ^ 32 + f.rb.toNat * 2 ^ 48)

/-- The bank an `fs` bit names (R47). -/
def bankOf (b : BitVec 1) : Bank := if b = 1#1 then .b1 else .b0

/-- The `fs` bit of a bank (R47). -/
def bankBit : Bank → BitVec 1
  | .b0 => 0#1
  | .b1 => 1#1

/-- Why a command word is illegal (R50). -/
inductive Illegal where
  /-- `op` is none of the 42 opcodes of R49. -/
  | unassignedOpcode (op : BitVec 8)
  /-- A field that the opcode does not use is not zero (R46). -/
  | unusedFieldNonzero (op : BitVec 8)
deriving DecidableEq, Repr

/-- Which fields an opcode uses: the column "uses" of R49. -/
structure Uses where
  rd : Bool := false
  ra : Bool := false
  rb : Bool := false
  fs : Bool := false
  len : Bool := false

/-- Every field outside `u` is zero (R46). -/
def Fields.within (f : Fields) (u : Uses) : Bool :=
  (u.rd || f.rd == 0#16) && (u.ra || f.ra == 0#16) && (u.rb || f.rb == 0#16) && (u.fs || f.fs == 0#1)
    && (u.len || f.len == 0#7)

/-- The command, if the fields its opcode does not use are zero; otherwise illegal (R50). -/
def legal (f : Fields) (u : Uses) (i : Instr) : Except Illegal Instr :=
  if f.within u then .ok i else .error (.unusedFieldNonzero f.op)

/-- The command that six fields stand for: the opcode map R49, illegal by R50. -/
def decodeFields (f : Fields) : Except Illegal Instr :=
  match f.op.toNat with
  | 0x00 => legal f { } .halt
  | 0x01 => legal f { rd := true } (.stt f.rd)
  | 0x10 => legal f { rd := true, ra := true, rb := true } (.iadd f.rd f.ra f.rb)
  | 0x11 => legal f { rd := true, ra := true, rb := true } (.isub f.rd f.ra f.rb)
  | 0x12 => legal f { rd := true, ra := true, rb := true } (.isubr f.rd f.ra f.rb)
  | 0x13 => legal f { rd := true, ra := true, rb := true } (.imul f.rd f.ra f.rb)
  | 0x14 => legal f { rd := true, ra := true } (.isqr f.rd f.ra)
  | 0x15 => legal f { ra := true } (.itstz f.ra)
  | 0x16 => legal f { ra := true, rb := true } (.ieq f.ra f.rb)
  | 0x17 => legal f { rd := true, ra := true } (.icopy f.rd f.ra)
  | 0x18 => legal f { rd := true } (.iclr f.rd)
  | 0x20 => legal f { rd := true, ra := true, rb := true, fs := true } (.fadd (bankOf f.fs) f.rd f.ra f.rb)
  | 0x21 => legal f { rd := true, ra := true, rb := true, fs := true } (.fsub (bankOf f.fs) f.rd f.ra f.rb)
  | 0x22 => legal f { rd := true, ra := true, fs := true } (.fneg (bankOf f.fs) f.rd f.ra)
  | 0x23 => legal f { rd := true, ra := true, rb := true, fs := true } (.fmul (bankOf f.fs) f.rd f.ra f.rb)
  | 0x24 => legal f { rd := true, ra := true, fs := true } (.fsqr (bankOf f.fs) f.rd f.ra)
  | 0x25 => legal f { rd := true, ra := true, fs := true } (.fredc (bankOf f.fs) f.rd f.ra)
  | 0x26 => legal f { rd := true, ra := true, rb := true, fs := true } (.fpow64 (bankOf f.fs) f.rd f.ra f.rb)
  | 0x27 => legal f { rd := true, ra := true, rb := true, fs := true, len := true } (.fpowb (bankOf f.fs) f.rd f.ra f.rb f.len.toNat)
  | 0x28 => legal f { rd := true, ra := true, fs := true } (.finv (bankOf f.fs) f.rd f.ra)
  | 0x29 => legal f { rd := true, ra := true, rb := true, fs := true } (.fdiv (bankOf f.fs) f.rd f.ra f.rb)
  | 0x2A => legal f { ra := true, fs := true } (.fisone (bankOf f.fs) f.ra)
  | 0x2B => legal f { rd := true, fs := true } (.fsetone (bankOf f.fs) f.rd)
  | 0x2C => legal f { rd := true, ra := true, fs := true } (.ftostd (bankOf f.fs) f.rd f.ra)
  | 0x2D => legal f { rd := true, ra := true, fs := true } (.ffromstd (bankOf f.fs) f.rd f.ra)
  | 0x30 => legal f { ra := true } (.aisinf f.ra)
  | 0x31 => legal f { ra := true } (.aoncrv f.ra)
  | 0x32 => legal f { ra := true } (.ainsub f.ra)
  | 0x33 => legal f { rd := true, ra := true } (.aneg f.rd f.ra)
  | 0x34 => legal f { rd := true, ra := true } (.adbl f.rd f.ra)
  | 0x35 => legal f { rd := true, ra := true, rb := true } (.aadd f.rd f.ra f.rb)
  | 0x36 => legal f { rd := true, ra := true, rb := true } (.asmul64 f.rd f.ra f.rb)
  | 0x37 => legal f { rd := true, ra := true, rb := true, len := true } (.asmulb f.rd f.ra f.rb f.len.toNat)
  | 0x38 => legal f { rd := true, ra := true, rb := true, fs := true } (.asmulf (bankOf f.fs) f.rd f.ra f.rb)
  | 0x40 => legal f { rd := true, ra := true } (.pfroma f.rd f.ra)
  | 0x41 => legal f { rd := true, ra := true } (.ptoa f.rd f.ra)
  | 0x42 => legal f { ra := true } (.pisinf f.ra)
  | 0x43 => legal f { rd := true, ra := true } (.pdbl f.rd f.ra)
  | 0x44 => legal f { rd := true, ra := true, rb := true } (.padd f.rd f.ra f.rb)
  | 0x45 => legal f { rd := true, ra := true, rb := true } (.psmul64 f.rd f.ra f.rb)
  | 0x46 => legal f { rd := true, ra := true, rb := true, len := true } (.psmulb f.rd f.ra f.rb f.len.toNat)
  | 0x47 => legal f { rd := true, ra := true, rb := true, fs := true } (.psmulf (bankOf f.fs) f.rd f.ra f.rb)
  | _ => .error (.unassignedOpcode f.op)

/-- Decoding, a total function on command words (R51). -/
def decode (w : Word) : Except Illegal Instr := decodeFields (fieldsOf w)

/-- The fields of a command (R51: op(m), and the fields the command uses). -/
def Instr.fields : Instr → Fields
  | .halt => { op := 0x00#8 }
  | .stt rd => { op := 0x01#8, rd := rd }
  | .iadd rd ra rb => { op := 0x10#8, rd := rd, ra := ra, rb := rb }
  | .isub rd ra rb => { op := 0x11#8, rd := rd, ra := ra, rb := rb }
  | .isubr rd ra rb => { op := 0x12#8, rd := rd, ra := ra, rb := rb }
  | .imul rd ra rb => { op := 0x13#8, rd := rd, ra := ra, rb := rb }
  | .isqr rd ra => { op := 0x14#8, rd := rd, ra := ra }
  | .itstz ra => { op := 0x15#8, ra := ra }
  | .ieq ra rb => { op := 0x16#8, ra := ra, rb := rb }
  | .icopy rd ra => { op := 0x17#8, rd := rd, ra := ra }
  | .iclr rd => { op := 0x18#8, rd := rd }
  | .fadd fs rd ra rb => { op := 0x20#8, rd := rd, ra := ra, rb := rb, fs := bankBit fs }
  | .fsub fs rd ra rb => { op := 0x21#8, rd := rd, ra := ra, rb := rb, fs := bankBit fs }
  | .fneg fs rd ra => { op := 0x22#8, rd := rd, ra := ra, fs := bankBit fs }
  | .fmul fs rd ra rb => { op := 0x23#8, rd := rd, ra := ra, rb := rb, fs := bankBit fs }
  | .fsqr fs rd ra => { op := 0x24#8, rd := rd, ra := ra, fs := bankBit fs }
  | .fredc fs rd ra => { op := 0x25#8, rd := rd, ra := ra, fs := bankBit fs }
  | .fpow64 fs rd ra rb => { op := 0x26#8, rd := rd, ra := ra, rb := rb, fs := bankBit fs }
  | .fpowb fs rd ra rb len => { op := 0x27#8, rd := rd, ra := ra, rb := rb, fs := bankBit fs, len := BitVec.ofNat 7 len }
  | .finv fs rd ra => { op := 0x28#8, rd := rd, ra := ra, fs := bankBit fs }
  | .fdiv fs rd ra rb => { op := 0x29#8, rd := rd, ra := ra, rb := rb, fs := bankBit fs }
  | .fisone fs ra => { op := 0x2A#8, ra := ra, fs := bankBit fs }
  | .fsetone fs rd => { op := 0x2B#8, rd := rd, fs := bankBit fs }
  | .ftostd fs rd ra => { op := 0x2C#8, rd := rd, ra := ra, fs := bankBit fs }
  | .ffromstd fs rd ra => { op := 0x2D#8, rd := rd, ra := ra, fs := bankBit fs }
  | .aisinf ra => { op := 0x30#8, ra := ra }
  | .aoncrv ra => { op := 0x31#8, ra := ra }
  | .ainsub ra => { op := 0x32#8, ra := ra }
  | .aneg rd ra => { op := 0x33#8, rd := rd, ra := ra }
  | .adbl rd ra => { op := 0x34#8, rd := rd, ra := ra }
  | .aadd rd ra rb => { op := 0x35#8, rd := rd, ra := ra, rb := rb }
  | .asmul64 rd ra rb => { op := 0x36#8, rd := rd, ra := ra, rb := rb }
  | .asmulb rd ra rb len => { op := 0x37#8, rd := rd, ra := ra, rb := rb, len := BitVec.ofNat 7 len }
  | .asmulf fs rd ra rb => { op := 0x38#8, rd := rd, ra := ra, rb := rb, fs := bankBit fs }
  | .pfroma rd ra => { op := 0x40#8, rd := rd, ra := ra }
  | .ptoa rd ra => { op := 0x41#8, rd := rd, ra := ra }
  | .pisinf ra => { op := 0x42#8, ra := ra }
  | .pdbl rd ra => { op := 0x43#8, rd := rd, ra := ra }
  | .padd rd ra rb => { op := 0x44#8, rd := rd, ra := ra, rb := rb }
  | .psmul64 rd ra rb => { op := 0x45#8, rd := rd, ra := ra, rb := rb }
  | .psmulb rd ra rb len => { op := 0x46#8, rd := rd, ra := ra, rb := rb, len := BitVec.ofNat 7 len }
  | .psmulf fs rd ra rb => { op := 0x47#8, rd := rd, ra := ra, rb := rb, fs := bankBit fs }

/-- The command word of a command (R51). -/
def encode (i : Instr) : Word := packFields i.fields

/-- The command that the decoder reads from table bits `w`: one 64-bit command word (R45); `none` where it is illegal. -/
def decodeTableWord (nbits w : Nat) : Option Instr :=
  match decode (BitVec.ofNat 64 (w % 2 ^ nbits)) with
  | .ok i => some i
  | .error _ => none

/-- The mnemonic of a command (R49). -/
def Instr.mnemonic : Instr → String
  | .halt => "HALT"
  | .stt .. => "STT"
  | .iadd .. => "IADD"
  | .isub .. => "ISUB"
  | .isubr .. => "ISUBR"
  | .imul .. => "IMUL"
  | .isqr .. => "ISQR"
  | .itstz .. => "ITSTZ"
  | .ieq .. => "IEQ"
  | .icopy .. => "ICOPY"
  | .iclr .. => "ICLR"
  | .fadd .. => "FADD"
  | .fsub .. => "FSUB"
  | .fneg .. => "FNEG"
  | .fmul .. => "FMUL"
  | .fsqr .. => "FSQR"
  | .fredc .. => "FREDC"
  | .fpow64 .. => "FPOW64"
  | .fpowb .. => "FPOWB"
  | .finv .. => "FINV"
  | .fdiv .. => "FDIV"
  | .fisone .. => "FISONE"
  | .fsetone .. => "FSETONE"
  | .ftostd .. => "FTOSTD"
  | .ffromstd .. => "FFROMSTD"
  | .aisinf .. => "AISINF"
  | .aoncrv .. => "AONCRV"
  | .ainsub .. => "AINSUB"
  | .aneg .. => "ANEG"
  | .adbl .. => "ADBL"
  | .aadd .. => "AADD"
  | .asmul64 .. => "ASMUL64"
  | .asmulb .. => "ASMULB"
  | .asmulf .. => "ASMULF"
  | .pfroma .. => "PFROMA"
  | .ptoa .. => "PTOA"
  | .pisinf .. => "PISINF"
  | .pdbl .. => "PDBL"
  | .padd .. => "PADD"
  | .psmul64 .. => "PSMUL64"
  | .psmulb .. => "PSMULB"
  | .psmulf .. => "PSMULF"

/-- A row of `spec/opcode_table.json`: "A word w is the row's command exactly when (w AND mask) = match". -/
structure OpcodeRow where
  mnemonic : String
  mask : Word
  bits : Word
deriving DecidableEq, Repr

/-- The opcode table, row by row, as the spec's machine-readable copy of R49 has it. -/
def opcodeRows : List OpcodeRow :=
  [⟨"HALT", 0xFFFFFFFFFFFFFFFF#64, 0x0000000000000000#64⟩,
   ⟨"STT", 0xFFFFFFFF0000FFFF#64, 0x0000000000000001#64⟩,
   ⟨"IADD", 0x000000000000FFFF#64, 0x0000000000000010#64⟩,
   ⟨"ISUB", 0x000000000000FFFF#64, 0x0000000000000011#64⟩,
   ⟨"ISUBR", 0x000000000000FFFF#64, 0x0000000000000012#64⟩,
   ⟨"IMUL", 0x000000000000FFFF#64, 0x0000000000000013#64⟩,
   ⟨"ISQR", 0xFFFF00000000FFFF#64, 0x0000000000000014#64⟩,
   ⟨"ITSTZ", 0xFFFF0000FFFFFFFF#64, 0x0000000000000015#64⟩,
   ⟨"IEQ", 0x00000000FFFFFFFF#64, 0x0000000000000016#64⟩,
   ⟨"ICOPY", 0xFFFF00000000FFFF#64, 0x0000000000000017#64⟩,
   ⟨"ICLR", 0xFFFFFFFF0000FFFF#64, 0x0000000000000018#64⟩,
   ⟨"FADD", 0x000000000000FEFF#64, 0x0000000000000020#64⟩,
   ⟨"FSUB", 0x000000000000FEFF#64, 0x0000000000000021#64⟩,
   ⟨"FNEG", 0xFFFF00000000FEFF#64, 0x0000000000000022#64⟩,
   ⟨"FMUL", 0x000000000000FEFF#64, 0x0000000000000023#64⟩,
   ⟨"FSQR", 0xFFFF00000000FEFF#64, 0x0000000000000024#64⟩,
   ⟨"FREDC", 0xFFFF00000000FEFF#64, 0x0000000000000025#64⟩,
   ⟨"FPOW64", 0x000000000000FEFF#64, 0x0000000000000026#64⟩,
   ⟨"FPOWB", 0x00000000000000FF#64, 0x0000000000000027#64⟩,
   ⟨"FINV", 0xFFFF00000000FEFF#64, 0x0000000000000028#64⟩,
   ⟨"FDIV", 0x000000000000FEFF#64, 0x0000000000000029#64⟩,
   ⟨"FISONE", 0xFFFF0000FFFFFEFF#64, 0x000000000000002A#64⟩,
   ⟨"FSETONE", 0xFFFFFFFF0000FEFF#64, 0x000000000000002B#64⟩,
   ⟨"FTOSTD", 0xFFFF00000000FEFF#64, 0x000000000000002C#64⟩,
   ⟨"FFROMSTD", 0xFFFF00000000FEFF#64, 0x000000000000002D#64⟩,
   ⟨"AISINF", 0xFFFF0000FFFFFFFF#64, 0x0000000000000030#64⟩,
   ⟨"AONCRV", 0xFFFF0000FFFFFFFF#64, 0x0000000000000031#64⟩,
   ⟨"AINSUB", 0xFFFF0000FFFFFFFF#64, 0x0000000000000032#64⟩,
   ⟨"ANEG", 0xFFFF00000000FFFF#64, 0x0000000000000033#64⟩,
   ⟨"ADBL", 0xFFFF00000000FFFF#64, 0x0000000000000034#64⟩,
   ⟨"AADD", 0x000000000000FFFF#64, 0x0000000000000035#64⟩,
   ⟨"ASMUL64", 0x000000000000FFFF#64, 0x0000000000000036#64⟩,
   ⟨"ASMULB", 0x00000000000001FF#64, 0x0000000000000037#64⟩,
   ⟨"ASMULF", 0x000000000000FEFF#64, 0x0000000000000038#64⟩,
   ⟨"PFROMA", 0xFFFF00000000FFFF#64, 0x0000000000000040#64⟩,
   ⟨"PTOA", 0xFFFF00000000FFFF#64, 0x0000000000000041#64⟩,
   ⟨"PISINF", 0xFFFF0000FFFFFFFF#64, 0x0000000000000042#64⟩,
   ⟨"PDBL", 0xFFFF00000000FFFF#64, 0x0000000000000043#64⟩,
   ⟨"PADD", 0x000000000000FFFF#64, 0x0000000000000044#64⟩,
   ⟨"PSMUL64", 0x000000000000FFFF#64, 0x0000000000000045#64⟩,
   ⟨"PSMULB", 0x00000000000001FF#64, 0x0000000000000046#64⟩,
   ⟨"PSMULF", 0x000000000000FEFF#64, 0x0000000000000047#64⟩]

end Sys2Proof
end

