-- ==== Sys2Proof/Machine/Operands.lean ====
section
/-! DEFINITION. The one operand form, an absolute BUF address with a word count (R44): the footprint table R35, the range check
R36, the framing checks of R55 and the shared frame of every command but HALT. -/

namespace Sys2Proof.Machine

/-- An operand: its start address and its word count. -/
abbrev Operand := Addr × Nat

/-- The destination column "writes at rd" of R35. -/
def destOf : Instr → Option Operand
  | .halt | .itstz .. | .ieq .. | .fisone .. | .aisinf .. | .aoncrv .. | .ainsub .. | .pisinf .. => none
  | .stt rd => some (rd, 1)
  | .iadd rd _ _ | .isub rd _ _ | .isubr rd _ _ | .icopy rd _ | .iclr rd => some (rd, 4)
  | .imul rd _ _ | .isqr rd _ => some (rd, 8)
  | .fadd _ rd _ _ | .fsub _ rd _ _ | .fmul _ rd _ _ | .fdiv _ rd _ _ | .fneg _ rd _ | .fsqr _ rd _ | .finv _ rd _
  | .ftostd _ rd _ | .ffromstd _ rd _ | .fredc _ rd _ | .fpow64 _ rd _ _ | .fpowb _ rd _ _ _ | .fsetone _ rd => some (rd, 4)
  | .aneg rd _ | .adbl rd _ | .aadd rd _ _ | .asmul64 rd _ _ | .asmulb rd _ _ _ | .asmulf _ rd _ _ | .ptoa rd _ => some (rd, 8)
  | .pfroma rd _ | .pdbl rd _ | .padd rd _ _ | .psmul64 rd _ _ | .psmulb rd _ _ _ | .psmulf _ rd _ _ => some (rd, 12)

/-- The columns "reads at ra" and "reads at rb" of R35. -/
def sourcesOf : Instr → List Operand
  | .halt | .stt _ | .iclr _ | .fsetone _ _ => []
  | .iadd _ ra rb | .isub _ ra rb | .isubr _ ra rb | .imul _ ra rb | .ieq ra rb => [(ra, 4), (rb, 4)]
  | .isqr _ ra | .itstz ra | .icopy _ ra => [(ra, 4)]
  | .fadd _ _ ra rb | .fsub _ _ ra rb | .fmul _ _ ra rb | .fdiv _ _ ra rb => [(ra, 4), (rb, 4)]
  | .fneg _ _ ra | .fsqr _ _ ra | .finv _ _ ra | .ftostd _ _ ra | .ffromstd _ _ ra | .fisone _ ra => [(ra, 4)]
  | .fredc _ _ ra => [(ra, 8)]
  | .fpow64 _ _ ra rb => [(ra, 4), (rb, 1)]
  | .fpowb _ _ ra rb len => [(ra, 4), (rb, len)]
  | .aisinf ra | .aoncrv ra | .ainsub ra | .aneg _ ra | .adbl _ ra | .pfroma _ ra => [(ra, 8)]
  | .aadd _ ra rb => [(ra, 8), (rb, 8)]
  | .asmul64 _ ra rb => [(ra, 8), (rb, 1)]
  | .asmulb _ ra rb len => [(ra, 8), (rb, len)]
  | .asmulf _ _ ra rb => [(ra, 8), (rb, 4)]
  | .ptoa _ ra | .pisinf ra | .pdbl _ ra => [(ra, 12)]
  | .padd _ ra rb => [(ra, 12), (rb, 12)]
  | .psmul64 _ ra rb => [(ra, 12), (rb, 1)]
  | .psmulb _ ra rb len => [(ra, 12), (rb, len)]
  | .psmulf _ _ ra rb => [(ra, 12), (rb, 4)]

/-- The column "writes T" of R35: exactly the commands of R17. -/
def writesT : Instr → Bool
  | .iadd .. | .isub .. | .isubr .. | .itstz .. | .ieq .. | .fisone .. | .aisinf .. | .aoncrv .. | .ainsub ..
  | .pisinf .. => true
  | .halt | .stt .. | .imul .. | .isqr .. | .icopy .. | .iclr .. | .fadd .. | .fsub .. | .fneg .. | .fmul .. | .fsqr ..
  | .fredc .. | .fpow64 .. | .fpowb .. | .finv .. | .fdiv .. | .fsetone .. | .ftostd .. | .ffromstd .. | .aneg .. | .adbl ..
  | .aadd .. | .asmul64 .. | .asmulb .. | .asmulf .. | .pfroma .. | .ptoa .. | .pdbl .. | .padd .. | .psmul64 ..
  | .psmulb .. | .psmulf .. => false

/-- Every used operand of a command (R35). -/
def operandsOf (i : Instr) : List Operand := (destOf i).toList ++ sourcesOf i

/-- The range check of one operand (R36): no wrap-around, and an operand of no words passes for every address. -/
def operandFits (o : Operand) : Bool := decide (o.2 = 0) || decide (o.1.toNat + o.2 ≤ Config.bufWords)

/-- The checks that R55 makes on a legal command before it executes, in their order (R130): PcOverflow (R129), which HALT is
exempt from, then AddressRange (R128). -/
def framingFault (i : Instr) (s : State) : Option ArchFault :=
  if i ≠ .halt ∧ s.pc = 0xFFFF#16 then some .pcOverflow
  else if (operandsOf i).all operandFits then none
  else some .addressRange

/-- The frame of every command but HALT (R55): the checks, then the command's `effect` on the state, then pc + 1.  The faulting
word is the command's own (R126; log 18). -/
def issue (i : Instr) (s effect : State) : Host.Outcome State Fault Refusal :=
  match framingFault i s with
  | some x => .next (s.raise x (encode i))
  | none => .next effect.advance

/-- FD[fs] (R24, R47). -/
def State.bank (s : State) : Bank → Desc
  | .b0 => s.fd0
  | .b1 => s.fd1

end Sys2Proof.Machine
end

