-- ==== Sys2Proof/Machine/CurveAffine.lean ====
section
/-! DEFINITION. The affine curve family (R103 to R111): P = decA(MemRead(ra, 8)), Q = decA(MemRead(rb, 8)), C = (FD[0], CV).
Where a precondition fails the destination words, or T, are unspecified and nothing else is affected (R11, U1, U4 to U6,
U10, U11). -/

namespace Sys2Proof.Machine

/-- The affine point at a BUF address (R96). -/
def State.readPt (s : State) (a : Addr) : Pt := decA (s.memRead a 8)

/-- The 8-word encoding of a result point, where the precondition `c` and the function's domain hold (R96). -/
def ptResult (c : Bool) (P : Option Pt) : Option Nat := if c then P.map encA else none

/-- AISINF (R103): any eight words (log 13). -/
def execAisinf (ra : Addr) (s : State) : Host.Outcome State Fault Refusal :=
  issue (.aisinf ra) s (s.setT (isinf (s.memRead ra 8)))

/-- AONCRV (R104; WFC(C) of R27 whole, log 12; not a singular curve, log 24). -/
def execAoncrv (ra : Addr) (s : State) : Host.Outcome State Fault Refusal :=
  let C := s.curve
  let P := s.readPt ra
  issue (.aoncrv ra) s (s.flagResult (if C.specifiedCheck && P.valid C.F then some (oncurve C P) else none))

/-- AINSUB (R105).  The hardware uses ProjImpl here and in ASMUL*, so the check of the table is `State.wfcCheck` (R116; log 25). -/
def execAinsub (ra : Addr) (s : State) : Host.Outcome State Fault Refusal :=
  issue (.ainsub ra) s (s.flagResult (insub s.wfcCheck s.curve (s.readPt ra)))

/-- The precondition of ANEG (R106): WF(F), and P is Infinity or has y < p. -/
def anegPre (F : Desc) (P : Pt) : Bool :=
  F.wfCheck && (match P with | .inf => true | .fin _ y => F.reduced y)

/-- ANEG (R106). -/
def execAneg (rd ra : Addr) (s : State) : Host.Outcome State Fault Refusal :=
  let P := s.readPt ra
  issue (.aneg rd ra) s (s.writeResult rd 8 (ptResult (anegPre s.fd0 P) (some (aneg s.curve P))))

/-- ADBL (R107). -/
def execAdbl (rd ra : Addr) (s : State) : Host.Outcome State Fault Refusal :=
  issue (.adbl rd ra) s (s.writeResult rd 8 (ptResult s.curve.specifiedCheck (adbl s.curve (s.readPt ra))))

/-- AADD (R108). -/
def execAadd (rd ra rb : Addr) (s : State) : Host.Outcome State Fault Refusal :=
  issue (.aadd rd ra rb) s
    (s.writeResult rd 8 (ptResult s.curve.specifiedCheck (aadd s.curve (s.readPt ra) (s.readPt rb))))

/-- ASMUL64 (R109): a 1-word scalar. -/
def execAsmul64 (rd ra rb : Addr) (s : State) : Host.Outcome State Fault Refusal :=
  issue (.asmul64 rd ra rb) s
    (s.writeResult rd 8 (ptResult s.wfcCheck (smul s.curve (s.memRead rb 1) 64 (s.readPt ra))))

/-- ASMULB (R110): a `len`-word scalar, not reduced modulo anything. -/
def execAsmulb (rd ra rb : Addr) (len : Nat) (s : State) : Host.Outcome State Fault Refusal :=
  issue (.asmulb rd ra rb len) s
    (s.writeResult rd 8 (ptResult s.wfcCheck (smul s.curve (s.memRead rb len) (64 * len) (s.readPt ra))))

/-- ASMULF (R111): k <- tostd(FD[fs], e) for a reduced e. -/
def execAsmulf (fs : Bank) (rd ra rb : Addr) (s : State) : Host.Outcome State Fault Refusal :=
  let G := s.bank fs
  let e := s.memRead rb 4
  issue (.asmulf fs rd ra rb) s
    (s.writeResult rd 8
      (ptResult (s.wfcCheck && G.wfCheck && G.reduced e) (smul s.curve (tostd G e) 256 (s.readPt ra))))

end Sys2Proof.Machine
end

