-- ==== Sys2Proof/Machine/Flags.lean ====
section
/-! DEFINITION. The values that the integer core gives the flag T (R17, R61 to R67). -/

namespace Sys2Proof.Machine

/-- Carry out of the 256-bit sum (R61). -/
def carryOut (a b : Nat) : Bool := decide (2 ^ 256 ≤ a + b)

/-- Borrow out of the 256-bit difference a − b (R62). -/
def borrowOut (a b : Nat) : Bool := decide (a < b)

/-- The zero test (R66). -/
def isZero (a : Nat) : Bool := decide (a = 0)

/-- Equality of raw integers (R67). -/
def isEqual (a b : Nat) : Bool := decide (a = b)

/-- `zext_64(b)` (R9), the word that STT writes (R58). -/
def zext64 (b : Bool) : Nat := if b then 1 else 0

end Sys2Proof.Machine
end

