-- ==== Sys2Proof/Machine/ProjArith.lean ====
section
/-! DEFINITION. The projective form (R112, R113), ProjImpl (R114) with the properties R115 built in, and the reference
implementation ProjRef (R116). -/

namespace Sys2Proof.Machine

/-- (X, Y, Z) (R112). -/
structure Triple where
  x : Nat
  y : Nat
  z : Nat
deriving DecidableEq, Repr

/-- A valid triple has X, Y, Z all < p (R112). -/
def Triple.valid (F : Desc) (t : Triple) : Bool := F.reduced t.x && F.reduced t.y && F.reduced t.z

/-- `encP(X, Y, Z)`, the 12-word value (R112). -/
def encP (t : Triple) : Nat := t.x + t.y * 2 ^ 256 + t.z * 2 ^ 512

/-- The triple at a BUF address: X, Y, Z in consecutive elements (R112). -/
def State.readTriple (s : State) (a : Addr) : Triple where
  x := s.readAt a.toNat 4
  y := s.readAt (a.toNat + 4) 4
  z := s.readAt (a.toNat + 8) 4

/-- `rep(C, t)`, the affine point a valid triple represents (R113). -/
def rep (C : Curve) (t : Triple) : Pt :=
  if t.z = 0 then .inf else .fin (fdiv C.F t.x t.z) (fdiv C.F t.y t.z)

/-! ### ProjRef (R116), from general knowledge (G3; log 9) -/

/-- `pfroma` of ProjRef: (0, ONE, 0) or (x, y, ONE).  It represents the point it is given. -/
def refFroma (C : Curve) : Pt → Triple
  | .inf => ⟨0, C.F.one, 0⟩
  | .fin x y => ⟨x, y, C.F.one⟩

/-- `padd` of ProjRef, the complete addition law of R116. -/
def refAdd (C : Curve) (t₁ t₂ : Triple) : Triple :=
  let mul := fmul C.F
  let add := fadd C.F
  let sub := fsub C.F
  let a := quadVal C.cv.A
  let b3 := quadVal C.cv.B3
  let xx := mul t₁.x t₂.x
  let yy := mul t₁.y t₂.y
  let zz := mul t₁.z t₂.z
  let xy := add (mul t₁.x t₂.y) (mul t₂.x t₁.y)
  let xz := add (mul t₁.x t₂.z) (mul t₂.x t₁.z)
  let yz := add (mul t₁.y t₂.z) (mul t₂.y t₁.z)
  let u := sub (sub yy (mul a xz)) (mul b3 zz)
  let v := add (add yy (mul a xz)) (mul b3 zz)
  let w := sub (add (mul a xx) (mul b3 xz)) (mul (mul a a) zz)
  let t := add (add (add xx xx) xx) (mul a zz)
  ⟨sub (mul xy u) (mul yz w), add (mul t w) (mul v u), add (mul yz v) (mul xy t)⟩

/-- `pdbl` of ProjRef (R116). -/
def refDbl (C : Curve) (t : Triple) : Triple := refAdd C t t

/-- The loop of `psmul` of ProjRef (R116) over bits i − 1, …, 0 of `k`. -/
def refSmulLoop (C : Curve) (k : Nat) (t : Triple) : (i : Nat) → (acc : Triple) → Triple
  | 0, acc => acc
  | i + 1, acc =>
    let d := refDbl C acc
    refSmulLoop C k t i (if k.testBit i then refAdd C d t else d)

/-- `psmul` of ProjRef (R116). -/
def refSmul (C : Curve) (k nb : Nat) (t : Triple) : Triple := refSmulLoop C k t nb ⟨0, C.F.one, 0⟩

/-! ### ProjImpl (R114) and its properties (R115) -/

/-- What a ProjImpl may read of C (R114, R26): p, A, B and B3.  The other fields of a well-formed FD[0] are functions of p
(R25); no command but AINSUB reads COF, and none reads GENX or GENY. -/
def curveParams (C : Curve) : List Nat := [C.F.p, quadVal C.cv.A, quadVal C.cv.B, quadVal C.cv.B3]

/-- A triple made of three words of an implementation. -/
def tripleOf (w : Nat × Nat × Nat) : Triple := ⟨w.1, w.2.1, w.2.2⟩

/-- Every result is a valid triple (R114). -/
def Triple.reduce (F : Desc) (t : Triple) : Triple := ⟨t.x % F.p, t.y % F.p, t.z % F.p⟩

/-- A result of an implementation as R115 binds it: a valid triple and, where a property of R115 names the point it represents
(`required`), a triple that represents that point.  A candidate that represents another point is no result of any ProjImpl;
the triple of `refFroma` then stands for it (log 10).  No command gets here on a singular curve (log 24), and none of a unit with
ProjRef that uses its addition without the premise of R116 (`State.wfcCheck`), under which ProjRef has the properties (G4). -/
def conform (C : Curve) (required : Option Pt) (candidate : Triple) : Triple :=
  match required with
  | none => candidate.reduce C.F
  | some P => if rep C (candidate.reduce C.F) = P then candidate.reduce C.F else refFroma C P

/-- The point that PJ-DBL names, under its hypotheses (R115). -/
def requiredDbl (C : Curve) (t : Triple) : Option Pt :=
  if oncurve C (rep C t) then adbl C (rep C t) else none

/-- The point that PJ-ADD names, under its hypotheses (R115). -/
def requiredAdd (C : Curve) (t u : Triple) : Option Pt :=
  if oncurve C (rep C t) && oncurve C (rep C u) then aadd C (rep C t) (rep C u) else none

/-- The point that PJ-SMUL names, under its hypotheses (R115). -/
def requiredSmul (C : Curve) (k nb : Nat) (t : Triple) : Option Pt := smul C k nb (rep C t)

/-- The coordinates of a point, as arguments of an implementation. -/
def ptArgs : Pt → List Nat
  | .inf => []
  | .fin x y => [x, y]

/-- The coordinates of a triple, as arguments of an implementation. -/
def tripleArgs (t : Triple) : List Nat := [t.x, t.y, t.z]

/-- `pfroma` of the unit's ProjImpl (R114, PJ-FROM). -/
def pfroma (impl : Config.ProjChoice) (C : Curve) (P : Pt) : Triple :=
  conform C (some P) <|
    match impl with
    | .reference => refFroma C P
    | .other id => tripleOf (Config.projWords id .pfroma (curveParams C) (ptArgs P))

/-- `pdbl` of the unit's ProjImpl (R114, PJ-DBL). -/
def pdbl (impl : Config.ProjChoice) (C : Curve) (t : Triple) : Triple :=
  conform C (requiredDbl C t) <|
    match impl with
    | .reference => refDbl C t
    | .other id => tripleOf (Config.projWords id .pdbl (curveParams C) (tripleArgs t))

/-- `padd` of the unit's ProjImpl (R114, PJ-ADD). -/
def padd (impl : Config.ProjChoice) (C : Curve) (t u : Triple) : Triple :=
  conform C (requiredAdd C t u) <|
    match impl with
    | .reference => refAdd C t u
    | .other id => tripleOf (Config.projWords id .padd (curveParams C) (tripleArgs t ++ tripleArgs u))

/-- `psmul` of the unit's ProjImpl (R114, PJ-SMUL). -/
def psmul (impl : Config.ProjChoice) (C : Curve) (k nb : Nat) (t : Triple) : Triple :=
  conform C (requiredSmul C k nb t) <|
    match impl with
    | .reference => refSmul C k nb t
    | .other id => tripleOf (Config.projWords id .psmul (curveParams C) ([k, nb] ++ tripleArgs t))

end Sys2Proof.Machine
end

