-- ==== Sys2Proof/Machine/CurveProjective.lean ====
section
/-! DEFINITION. The projective curve family (R117 to R124): t and u are the triples at ra and rb, C = (FD[0], CV), and the
unit's ProjImpl is the one `projImpl` names (R114).  Where a precondition on C, on a point or on a triple fails the destination
words are unspecified and nothing else is affected (R11, U1, U9 to U11); where only the hypotheses of R115 fail the result is a
valid triple, otherwise the implementation's own (U7). -/

namespace Sys2Proof.Machine

/-- PFROMA (R117): WFC(C) of R27 (log 11), not a singular curve (U11; log 24), and a valid point, which need not be on the curve. -/
def execPfroma (rd ra : Addr) (s : State) : Host.Outcome State Fault Refusal :=
  let C := s.curve
  let P := s.readPt ra
  issue (.pfroma rd ra) s
    (s.writeResult rd 12 (whenPre (C.specifiedCheck && P.valid C.F) (encP (pfroma s.projImpl C P))))

/-- PTOA (R118): as PFROMA, with a valid triple; the same for every ProjImpl. -/
def execPtoa (rd ra : Addr) (s : State) : Host.Outcome State Fault Refusal :=
  let C := s.curve
  let t := s.readTriple ra
  issue (.ptoa rd ra) s (s.writeResult rd 8 (ptResult (C.specifiedCheck && t.valid C.F) (some (rep C t))))

/-- PISINF (R119): any twelve words; only Z decides. -/
def execPisinf (ra : Addr) (s : State) : Host.Outcome State Fault Refusal :=
  issue (.pisinf ra) s (s.setT (isZero (s.readTriple ra).z))

/-- PDBL (R120).  Here and in PADD and PSMUL*, which use ProjImpl's addition, the check of the table is `State.wfcCheck`
(R116; log 25). -/
def execPdbl (rd ra : Addr) (s : State) : Host.Outcome State Fault Refusal :=
  let C := s.curve
  let t := s.readTriple ra
  issue (.pdbl rd ra) s (s.writeResult rd 12 (whenPre (s.wfcCheck && t.valid C.F) (encP (pdbl s.projImpl C t))))

/-- PADD (R121). -/
def execPadd (rd ra rb : Addr) (s : State) : Host.Outcome State Fault Refusal :=
  let C := s.curve
  let t := s.readTriple ra
  let u := s.readTriple rb
  issue (.padd rd ra rb) s
    (s.writeResult rd 12 (whenPre (s.wfcCheck && t.valid C.F && u.valid C.F) (encP (padd s.projImpl C t u))))

/-- PSMUL64 (R122): a 1-word scalar. -/
def execPsmul64 (rd ra rb : Addr) (s : State) : Host.Outcome State Fault Refusal :=
  let C := s.curve
  let t := s.readTriple ra
  issue (.psmul64 rd ra rb) s
    (s.writeResult rd 12 (whenPre (s.wfcCheck && t.valid C.F) (encP (psmul s.projImpl C (s.memRead rb 1) 64 t))))

/-- PSMULB (R123): a `len`-word scalar. -/
def execPsmulb (rd ra rb : Addr) (len : Nat) (s : State) : Host.Outcome State Fault Refusal :=
  let C := s.curve
  let t := s.readTriple ra
  issue (.psmulb rd ra rb len) s
    (s.writeResult rd 12
      (whenPre (s.wfcCheck && t.valid C.F) (encP (psmul s.projImpl C (s.memRead rb len) (64 * len) t))))

/-- PSMULF (R124): k <- tostd(FD[fs], e) for a reduced e. -/
def execPsmulf (fs : Bank) (rd ra rb : Addr) (s : State) : Host.Outcome State Fault Refusal :=
  let C := s.curve
  let G := s.bank fs
  let t := s.readTriple ra
  let e := s.memRead rb 4
  issue (.psmulf fs rd ra rb) s
    (s.writeResult rd 12
      (whenPre (s.wfcCheck && G.wfCheck && G.reduced e && t.valid C.F) (encP (psmul s.projImpl C (tostd G e) 256 t))))

end Sys2Proof.Machine
end

