-- ==== Sys2Proof/Machine/FieldEngine.lean ====
section
/-! DEFINITION. The Montgomery field engine family (R82 to R95).  In every command F = FD[fs]; where its precondition fails
the destination words are unspecified and nothing else is affected (R11, R70, U1 to U3, U10). -/

namespace Sys2Proof.Machine

/-- FADD (R82). -/
def execFadd (fs : Bank) (rd ra rb : Addr) (s : State) : Host.Outcome State Fault Refusal :=
  let F := s.bank fs
  let a := s.memRead ra 4
  let b := s.memRead rb 4
  issue (.fadd fs rd ra rb) s (s.writeResult rd 4 (whenPre (F.wfCheck && F.reduced a && F.reduced b) (fadd F a b)))

/-- FSUB (R83). -/
def execFsub (fs : Bank) (rd ra rb : Addr) (s : State) : Host.Outcome State Fault Refusal :=
  let F := s.bank fs
  let a := s.memRead ra 4
  let b := s.memRead rb 4
  issue (.fsub fs rd ra rb) s (s.writeResult rd 4 (whenPre (F.wfCheck && F.reduced a && F.reduced b) (fsub F a b)))

/-- FNEG (R84). -/
def execFneg (fs : Bank) (rd ra : Addr) (s : State) : Host.Outcome State Fault Refusal :=
  let F := s.bank fs
  let a := s.memRead ra 4
  issue (.fneg fs rd ra) s (s.writeResult rd 4 (whenPre (F.wfCheck && F.reduced a) (fneg F a)))

/-- FMUL (R85). -/
def execFmul (fs : Bank) (rd ra rb : Addr) (s : State) : Host.Outcome State Fault Refusal :=
  let F := s.bank fs
  let a := s.memRead ra 4
  let b := s.memRead rb 4
  issue (.fmul fs rd ra rb) s (s.writeResult rd 4 (whenPre (F.wfCheck && F.reduced a && F.reduced b) (fmul F a b)))

/-- FSQR (R86). -/
def execFsqr (fs : Bank) (rd ra : Addr) (s : State) : Host.Outcome State Fault Refusal :=
  let F := s.bank fs
  let a := s.memRead ra 4
  issue (.fsqr fs rd ra) s (s.writeResult rd 4 (whenPre (F.wfCheck && F.reduced a) (fsqr F a)))

/-- FREDC (R87): an 8-word operand below 2^256·p. -/
def execFredc (fs : Bank) (rd ra : Addr) (s : State) : Host.Outcome State Fault Refusal :=
  let F := s.bank fs
  let t := s.memRead ra 8
  issue (.fredc fs rd ra) s (s.writeResult rd 4 (whenPre (F.wfCheck && decide (t < 2 ^ 256 * F.p)) (redc F t)))

/-- FPOW64 (R88): a 1-word exponent. -/
def execFpow64 (fs : Bank) (rd ra rb : Addr) (s : State) : Host.Outcome State Fault Refusal :=
  let F := s.bank fs
  let a := s.memRead ra 4
  issue (.fpow64 fs rd ra rb) s
    (s.writeResult rd 4 (whenPre (F.wfCheck && F.reduced a) (fpow F a (s.memRead rb 1) 64)))

/-- FPOWB (R89): a `len`-word exponent. -/
def execFpowb (fs : Bank) (rd ra rb : Addr) (len : Nat) (s : State) : Host.Outcome State Fault Refusal :=
  let F := s.bank fs
  let a := s.memRead ra 4
  issue (.fpowb fs rd ra rb len) s
    (s.writeResult rd 4 (whenPre (F.wfCheck && F.reduced a) (fpow F a (s.memRead rb len) (64 * len))))

/-- FINV (R90): 0 < a < p. -/
def execFinv (fs : Bank) (rd ra : Addr) (s : State) : Host.Outcome State Fault Refusal :=
  let F := s.bank fs
  let a := s.memRead ra 4
  issue (.finv fs rd ra) s (s.writeResult rd 4 (whenPre (F.wfCheck && decide (0 < a) && F.reduced a) (finv F a)))

/-- FDIV (R91): a < p, 0 < b < p. -/
def execFdiv (fs : Bank) (rd ra rb : Addr) (s : State) : Host.Outcome State Fault Refusal :=
  let F := s.bank fs
  let a := s.memRead ra 4
  let b := s.memRead rb 4
  issue (.fdiv fs rd ra rb) s
    (s.writeResult rd 4 (whenPre (F.wfCheck && F.reduced a && decide (0 < b) && F.reduced b) (fdiv F a b)))

/-- FISONE (R92): T <- (a = F.R1), for any four words and any descriptor. -/
def execFisone (fs : Bank) (ra : Addr) (s : State) : Host.Outcome State Fault Refusal :=
  issue (.fisone fs ra) s (s.setT (isEqual (s.memRead ra 4) (s.bank fs).one))

/-- FSETONE (R93): writes F.R1, for any descriptor. -/
def execFsetone (fs : Bank) (rd : Addr) (s : State) : Host.Outcome State Fault Refusal :=
  issue (.fsetone fs rd) s (s.memWrite rd 4 (s.bank fs).one)

/-- FTOSTD (R94). -/
def execFtostd (fs : Bank) (rd ra : Addr) (s : State) : Host.Outcome State Fault Refusal :=
  let F := s.bank fs
  let a := s.memRead ra 4
  issue (.ftostd fs rd ra) s (s.writeResult rd 4 (whenPre (F.wfCheck && F.reduced a) (tostd F a)))

/-- FFROMSTD (R95). -/
def execFfromstd (fs : Bank) (rd ra : Addr) (s : State) : Host.Outcome State Fault Refusal :=
  let F := s.bank fs
  let a := s.memRead ra 4
  issue (.ffromstd fs rd ra) s (s.writeResult rd 4 (whenPre (F.wfCheck && F.reduced a) (fromstd F a)))

end Sys2Proof.Machine
end

