-- ==== Sys2Proof/Machine/IntegerCore.lean ====
section
/-! DEFINITION. The fixed-width integer core family (R60 to R69): no precondition, no fault that depends on the data. -/

namespace Sys2Proof.Machine

/-- IADD (R61): exact add, carry out in T. -/
def execIadd (rd ra rb : Addr) (s : State) : Host.Outcome State Fault Refusal :=
  let a := s.memRead ra 4
  let b := s.memRead rb 4
  issue (.iadd rd ra rb) s ((s.memWrite rd 4 ((a + b) % 2 ^ 256)).setT (carryOut a b))

/-- ISUB (R62): (a − b) mod 2^256, borrow out in T. -/
def execIsub (rd ra rb : Addr) (s : State) : Host.Outcome State Fault Refusal :=
  let a := s.memRead ra 4
  let b := s.memRead rb 4
  issue (.isub rd ra rb) s ((s.memWrite rd 4 ((a + (2 ^ 256 - b)) % 2 ^ 256)).setT (borrowOut a b))

/-- ISUBR (R63): (b − a) mod 2^256, borrow out in T. -/
def execIsubr (rd ra rb : Addr) (s : State) : Host.Outcome State Fault Refusal :=
  let a := s.memRead ra 4
  let b := s.memRead rb 4
  issue (.isubr rd ra rb) s ((s.memWrite rd 4 ((b + (2 ^ 256 - a)) % 2 ^ 256)).setT (borrowOut b a))

/-- IMUL (R64): the full 512-bit product. -/
def execImul (rd ra rb : Addr) (s : State) : Host.Outcome State Fault Refusal :=
  issue (.imul rd ra rb) s (s.memWrite rd 8 (s.memRead ra 4 * s.memRead rb 4))

/-- ISQR (R65): the full 512-bit square. -/
def execIsqr (rd ra : Addr) (s : State) : Host.Outcome State Fault Refusal :=
  issue (.isqr rd ra) s (s.memWrite rd 8 (s.memRead ra 4 * s.memRead ra 4))

/-- ITSTZ (R66): T <- (a = 0). -/
def execItstz (ra : Addr) (s : State) : Host.Outcome State Fault Refusal :=
  issue (.itstz ra) s (s.setT (isZero (s.memRead ra 4)))

/-- IEQ (R67): T <- (a = b). -/
def execIeq (ra rb : Addr) (s : State) : Host.Outcome State Fault Refusal :=
  issue (.ieq ra rb) s (s.setT (isEqual (s.memRead ra 4) (s.memRead rb 4)))

/-- ICOPY (R68): the pre-state value of a, also where rd and ra overlap (R40). -/
def execIcopy (rd ra : Addr) (s : State) : Host.Outcome State Fault Refusal :=
  issue (.icopy rd ra) s (s.memWrite rd 4 (s.memRead ra 4))

/-- ICLR (R69): four zero words. -/
def execIclr (rd : Addr) (s : State) : Host.Outcome State Fault Refusal :=
  issue (.iclr rd) s (s.memWrite rd 4 0)

end Sys2Proof.Machine
end

