-- ==== Sys2Proof/Machine/Sequencing.lean ====
section
/-! DEFINITION. The sequencing family: HALT and STT (R57, R58). -/

namespace Sys2Proof.Machine

/-- HALT (R57): RUN <- 0, DONE <- 1; pc names the HALT; no check applies to it. -/
def execHalt (s : State) : Host.Outcome State Fault Refusal := .next { s with run := false, done := true }

/-- STT (R58): MemWrite(rd, 1, zext_64(T)). -/
def execStt (rd : Addr) (s : State) : Host.Outcome State Fault Refusal :=
  issue (.stt rd) s (s.memWrite rd 1 (zext64 s.t))

end Sys2Proof.Machine
end

