-- ==== Sys2Proof/Machine/Dispatch.lean ====
section
/-! DEFINITION. One arm per command: its meaning. -/

namespace Sys2Proof.Machine

def exec (i : Instr) (s : State) : Host.Outcome State Fault Refusal :=
  match i with
  | .halt => Sys2Proof.Machine.execHalt s
  | .stt rd => Sys2Proof.Machine.execStt rd s
  | .iadd rd ra rb => Sys2Proof.Machine.execIadd rd ra rb s
  | .isub rd ra rb => Sys2Proof.Machine.execIsub rd ra rb s
  | .isubr rd ra rb => Sys2Proof.Machine.execIsubr rd ra rb s
  | .imul rd ra rb => Sys2Proof.Machine.execImul rd ra rb s
  | .isqr rd ra => Sys2Proof.Machine.execIsqr rd ra s
  | .itstz ra => Sys2Proof.Machine.execItstz ra s
  | .ieq ra rb => Sys2Proof.Machine.execIeq ra rb s
  | .icopy rd ra => Sys2Proof.Machine.execIcopy rd ra s
  | .iclr rd => Sys2Proof.Machine.execIclr rd s
  | .fadd fs rd ra rb => Sys2Proof.Machine.execFadd fs rd ra rb s
  | .fsub fs rd ra rb => Sys2Proof.Machine.execFsub fs rd ra rb s
  | .fneg fs rd ra => Sys2Proof.Machine.execFneg fs rd ra s
  | .fmul fs rd ra rb => Sys2Proof.Machine.execFmul fs rd ra rb s
  | .fsqr fs rd ra => Sys2Proof.Machine.execFsqr fs rd ra s
  | .fredc fs rd ra => Sys2Proof.Machine.execFredc fs rd ra s
  | .fpow64 fs rd ra rb => Sys2Proof.Machine.execFpow64 fs rd ra rb s
  | .fpowb fs rd ra rb len => Sys2Proof.Machine.execFpowb fs rd ra rb len s
  | .finv fs rd ra => Sys2Proof.Machine.execFinv fs rd ra s
  | .fdiv fs rd ra rb => Sys2Proof.Machine.execFdiv fs rd ra rb s
  | .fisone fs ra => Sys2Proof.Machine.execFisone fs ra s
  | .fsetone fs rd => Sys2Proof.Machine.execFsetone fs rd s
  | .ftostd fs rd ra => Sys2Proof.Machine.execFtostd fs rd ra s
  | .ffromstd fs rd ra => Sys2Proof.Machine.execFfromstd fs rd ra s
  | .aisinf ra => Sys2Proof.Machine.execAisinf ra s
  | .aoncrv ra => Sys2Proof.Machine.execAoncrv ra s
  | .ainsub ra => Sys2Proof.Machine.execAinsub ra s
  | .aneg rd ra => Sys2Proof.Machine.execAneg rd ra s
  | .adbl rd ra => Sys2Proof.Machine.execAdbl rd ra s
  | .aadd rd ra rb => Sys2Proof.Machine.execAadd rd ra rb s
  | .asmul64 rd ra rb => Sys2Proof.Machine.execAsmul64 rd ra rb s
  | .asmulb rd ra rb len => Sys2Proof.Machine.execAsmulb rd ra rb len s
  | .asmulf fs rd ra rb => Sys2Proof.Machine.execAsmulf fs rd ra rb s
  | .pfroma rd ra => Sys2Proof.Machine.execPfroma rd ra s
  | .ptoa rd ra => Sys2Proof.Machine.execPtoa rd ra s
  | .pisinf ra => Sys2Proof.Machine.execPisinf ra s
  | .pdbl rd ra => Sys2Proof.Machine.execPdbl rd ra s
  | .padd rd ra rb => Sys2Proof.Machine.execPadd rd ra rb s
  | .psmul64 rd ra rb => Sys2Proof.Machine.execPsmul64 rd ra rb s
  | .psmulb rd ra rb len => Sys2Proof.Machine.execPsmulb rd ra rb len s
  | .psmulf fs rd ra rb => Sys2Proof.Machine.execPsmulf fs rd ra rb s

end Sys2Proof.Machine
end

