-- ==== Sys2Proof/Machine/HostPort.lean ====
section
/-! DEFINITION. Fetch (R55), and the host's side of the unit: the STATUS word (R20), the `irq` line (R133), the address map of
the 18-bit port (R28), reads and writes through it with their gating by RUN (R29), CTRL (R23) and reset (R136). -/

namespace Sys2Proof.Machine

/-- w <- CMD[pc] (R55). -/
def State.fetch (s : State) : Word := s.cmdWord s.pc.toNat

/-- STATUS (R20): bit 0 RUN, bit 1 DONE, bit 2 FAULT, bit 3 T, the rest zero. -/
def State.status (s : State) : Word :=
  BitVec.ofNat 64 (s.run.toNat + s.done.toNat * 2 + s.faulted.toNat * 4 + s.t.toNat * 8)

/-- The output line `irq` = DONE or FAULT (R133). -/
def State.irq (s : State) : Bool := s.done || s.faulted

/-- An 18-bit host address (R28). -/
abbrev HostAddr := BitVec 18

/-- What a host address names (R28). -/
inductive HostTarget where
  | bufWord (a : Nat)
  | cmdWord (i : Nat)
  | ctrl
  | status
  | cause
  | pc
  | finfo
  | desc (b : Bank) (i : Nat)
  | curve (i : Nat)
  /-- A reserved REG offset or an unassigned address: reads 0, ignores writes. -/
  | none
deriving DecidableEq, Repr

/-- The REG map (R28). -/
def regTarget (o : Nat) : HostTarget :=
  if o = 0x00 then .ctrl
  else if o = 0x01 then .status
  else if o = 0x02 then .cause
  else if o = 0x03 then .pc
  else if o = 0x04 then .finfo
  else if 0x10 ≤ o ∧ o ≤ 0x24 then .desc .b0 (o - 0x10)
  else if 0x30 ≤ o ∧ o ≤ 0x44 then .desc .b1 (o - 0x30)
  else if 0x50 ≤ o ∧ o ≤ 0x67 then .curve (o - 0x50)
  else .none

/-- The host map (R28): BUF at 0x00000, CMD at 0x10000, REG at 0x20000 to 0x200FF. -/
def hostTarget (a : HostAddr) : HostTarget :=
  if a.toNat < 0x10000 then .bufWord a.toNat
  else if a.toNat < 0x20000 then .cmdWord (a.toNat - 0x10000)
  else if a.toNat < 0x20100 then regTarget (a.toNat - 0x20000)
  else .none

/-- Word `i` of a four-word field (R24: ascending offsets, least-significant word first). -/
def quadWord (q : Quad) (i : Nat) : Word :=
  match i with
  | 0 => q.w0
  | 1 => q.w1
  | 2 => q.w2
  | _ => q.w3

/-- A four-word field with word `i` replaced. -/
def quadSetWord (q : Quad) (i : Nat) (v : Word) : Quad :=
  match i with
  | 0 => { q with w0 := v }
  | 1 => { q with w1 := v }
  | 2 => { q with w2 := v }
  | _ => { q with w3 := v }

/-- Word `i` (0 to 20) of a descriptor bank, in the order of its offsets (R24). -/
def descWord (F : Desc) (i : Nat) : Word :=
  match i / 4 with
  | 0 => quadWord F.P (i % 4)
  | 1 => quadWord F.PP1 (i % 4)
  | 2 => quadWord F.R1 (i % 4)
  | 3 => quadWord F.R2 (i % 4)
  | 4 => quadWord F.R3 (i % 4)
  | _ => F.NINV

/-- A descriptor bank with word `i` replaced (R24). -/
def descSetWord (F : Desc) (i : Nat) (v : Word) : Desc :=
  match i / 4 with
  | 0 => { F with P := quadSetWord F.P (i % 4) v }
  | 1 => { F with PP1 := quadSetWord F.PP1 (i % 4) v }
  | 2 => { F with R1 := quadSetWord F.R1 (i % 4) v }
  | 3 => { F with R2 := quadSetWord F.R2 (i % 4) v }
  | 4 => { F with R3 := quadSetWord F.R3 (i % 4) v }
  | _ => { F with NINV := v }

/-- Word `i` (0 to 23) of the curve table, in the order of its offsets (R26). -/
def curveWord (T : CurveTable) (i : Nat) : Word :=
  match i / 4 with
  | 0 => quadWord T.A (i % 4)
  | 1 => quadWord T.B (i % 4)
  | 2 => quadWord T.B3 (i % 4)
  | 3 => quadWord T.GENX (i % 4)
  | 4 => quadWord T.GENY (i % 4)
  | _ => quadWord T.COF (i % 4)

/-- The curve table with word `i` replaced (R26). -/
def curveSetWord (T : CurveTable) (i : Nat) (v : Word) : CurveTable :=
  match i / 4 with
  | 0 => { T with A := quadSetWord T.A (i % 4) v }
  | 1 => { T with B := quadSetWord T.B (i % 4) v }
  | 2 => { T with B3 := quadSetWord T.B3 (i % 4) v }
  | 3 => { T with GENX := quadSetWord T.GENX (i % 4) v }
  | 4 => { T with GENY := quadSetWord T.GENY (i % 4) v }
  | _ => { T with COF := quadSetWord T.COF (i % 4) v }

/-- FD[f] with a new content (R24). -/
def State.setBank (s : State) (b : Bank) (F : Desc) : State :=
  match b with
  | .b0 => { s with fd0 := F }
  | .b1 => { s with fd1 := F }

/-! ### Reset and CTRL -/

/-- What an SRST leaves of the command in progress (R136, U14): its destination words are unspecified.  A command that would
raise a fault has no destination words; an idle unit has no command in progress (log 17). -/
def State.abort (s : State) : State :=
  if s.run then
    match decode s.fetch with
    | .error _ => s
    | .ok i =>
      match framingFault i s, destOf i with
      | none, some (rd, k) => s.writeResult rd k none
      | _, _ => s
  else s

/-- SRST (R23, R136). -/
def State.srst (s : State) : State := s.abort.resetControl

/-- A write to CTRL (R23): bit 1 SRST, which wins; bit 0 START, without effect while RUN = 1; the other bits are ignored. -/
def State.writeCtrl (s : State) (v : Word) : State :=
  if v.getLsbD 1 then s.srst
  else if v.getLsbD 0 && !s.run then s.launch
  else s

/-! ### Host accesses -/

/-- A host write (R28, R29): while RUN = 1 every write other than to CTRL is discarded; read-only and reserved places ignore
writes. -/
def hostWrite (a : HostAddr) (v : Word) (s : State) : State :=
  match hostTarget a with
  | .ctrl => s.writeCtrl v
  | target =>
    if s.run then s
    else
      match target with
      | .bufWord a => { s with buf := s.buf.write a v }
      | .cmdWord i => { s with cmd := s.cmd.write i v }
      | .pc => { s with pc := v.extractLsb' 0 16 }
      | .desc b i => s.setBank b (descSetWord (s.bank b) i v)
      | .curve i => { s with cv := curveSetWord s.cv i v }
      | .ctrl | .status | .cause | .finfo | .none => s

/-- The word a host read finds while RUN = 0 (R20 to R28); a word of BUF or CMD that nobody has written is unspecified (U12). -/
def State.hostWord (s : State) : HostTarget → Word
  | .bufWord a => s.bufWord a
  | .cmdWord i => s.cmdWord i
  | .ctrl => 0#64
  | .status => s.status
  | .cause => s.cause.setWidth 64
  | .pc => s.pc.setWidth 64
  | .finfo => s.finfo
  | .desc b i => descWord (s.bank b) i
  | .curve i => curveWord s.cv i
  | .none => 0#64

/-- A host read (R28, R29): the word, and the state after it.  While RUN = 1 every read other than of STATUS answers an
unspecified value (U13), drawn as a free value (log 19); no spec state changes. -/
def hostRead (a : HostAddr) (s : State) : Word × State :=
  if s.run ∧ hostTarget a ≠ .status then (Config.freeWord s.freeCount 0, s.draw) else (s.hostWord (hostTarget a), s)

end Sys2Proof.Machine
end

