-- ==== Sys2Proof/Machine/Step.lean ====
section
/-! DEFINITION. The step of the unit (R55), the machine with its host (R29), and the placing of one command for the next step. -/

namespace Sys2Proof.Machine

/-- One step (R55).  While RUN = 0 the unit does nothing (R20, R56, R136; log 14).  An illegal word raises IllegalCommand
(R127); a legal one is executed by `exec`, which makes the other two checks and advances pc. -/
def step (s : State) : Host.Outcome State Fault Refusal :=
  if s.run then
    match decode s.fetch with
    | .error _ => .next (s.raise .illegalCommand s.fetch)
    | .ok i => exec i s
  else .next s

/-- Stores one command word where the next step fetches, CMD[pc], and launches the run (R54), so that the very next step runs
it.  For an idle unit this is the host's write of CMD[pc] and then of CTRL.START (log 15). -/
def State.withFetchWord (s : State) (nbits w : Nat) : State :=
  { s with cmd := s.cmd.write s.pc.toNat (BitVec.ofNat 64 (w % 2 ^ nbits)) }.launch

/-- What can happen to the machine as a whole (R29): a step of the unit, or one host access (log 16). -/
inductive Event where
  | unit
  | hostWrite (a : HostAddr) (v : Word)
  | hostRead (a : HostAddr)
deriving DecidableEq, Repr

/-- One event of the whole machine. -/
def act (e : Event) (s : State) : Host.Outcome State Fault Refusal :=
  match e with
  | .unit => step s
  | .hostWrite a v => .next (hostWrite a v s)
  | .hostRead a => .next (hostRead a s).2

end Sys2Proof.Machine
end

