-- ==== Sys2Proof/Machine/Assembler.lean ====
section
/-! DEFINITION. The spec's text form of a command (R52) and the pseudo-instructions (R53): how programs are written down, not
part of the machine. -/

namespace Sys2Proof.Machine

/-- One hexadecimal digit. -/
def hexDigit (n : Nat) : String :=
  ["0", "1", "2", "3", "4", "5", "6", "7", "8", "9", "A", "B", "C", "D", "E", "F"].getD n ""

/-- `@` and the address in four hexadecimal digits (R52; log 23). -/
def addrText (a : Addr) : String :=
  let n := a.toNat
  "@0x" ++ hexDigit (n / 4096 % 16) ++ hexDigit (n / 256 % 16) ++ hexDigit (n / 16 % 16) ++ hexDigit (n % 16)

/-- The suffix `.f` (R52). -/
def bankText : Bank → String
  | .b0 => ".0"
  | .b1 => ".1"

/-- A decimal number. -/
def decimalText (n : Nat) : String := toString n

/-- The suffix and the operands of a command, in the order rd, ra, rb, len (R52). -/
def operandText : Instr → String × List String
  | .halt => ("", [])
  | .stt rd | .iclr rd => ("", [addrText rd])
  | .iadd rd ra rb | .isub rd ra rb | .isubr rd ra rb | .imul rd ra rb | .aadd rd ra rb | .asmul64 rd ra rb | .padd rd ra rb
  | .psmul64 rd ra rb => ("", [addrText rd, addrText ra, addrText rb])
  | .isqr rd ra | .icopy rd ra | .aneg rd ra | .adbl rd ra | .pfroma rd ra | .ptoa rd ra | .pdbl rd ra =>
    ("", [addrText rd, addrText ra])
  | .itstz ra | .aisinf ra | .aoncrv ra | .ainsub ra | .pisinf ra => ("", [addrText ra])
  | .ieq ra rb => ("", [addrText ra, addrText rb])
  | .fadd fs rd ra rb | .fsub fs rd ra rb | .fmul fs rd ra rb | .fdiv fs rd ra rb | .fpow64 fs rd ra rb
  | .asmulf fs rd ra rb | .psmulf fs rd ra rb => (bankText fs, [addrText rd, addrText ra, addrText rb])
  | .fneg fs rd ra | .fsqr fs rd ra | .fredc fs rd ra | .finv fs rd ra | .ftostd fs rd ra | .ffromstd fs rd ra =>
    (bankText fs, [addrText rd, addrText ra])
  | .fpowb fs rd ra rb len => (bankText fs, [addrText rd, addrText ra, addrText rb, "#" ++ decimalText len])
  | .fisone fs ra => (bankText fs, [addrText ra])
  | .fsetone fs rd => (bankText fs, [addrText rd])
  | .asmulb rd ra rb len | .psmulb rd ra rb len => ("", [addrText rd, addrText ra, addrText rb, "#" ++ decimalText len])

/-- The text of a command (R52). -/
def commandText (i : Instr) : String :=
  let (suffix, ops) := operandText i
  let head := i.mnemonic ++ suffix
  if ops = [] then head else head ++ " " ++ ", ".intercalate ops

/-- The pseudo-instructions (R53); the suffix `.f` of the field ones is accepted and discarded. -/
inductive Pseudo where
  | fisz (f : Option Bank) (ra : Addr)
  | feq (f : Option Bank) (ra rb : Addr)
  | fcopy (f : Option Bank) (rd ra : Addr)
  | fclr (f : Option Bank) (rd : Addr)
  | acopy (rd ra : Addr)
deriving DecidableEq, Repr

/-- What a pseudo-instruction expands to (R53); ACOPY needs rd ≤ 0xFFF8 and ra ≤ 0xFFF8. -/
def expand : Pseudo → Option (List Instr)
  | .fisz _ ra => some [.itstz ra]
  | .feq _ ra rb => some [.ieq ra rb]
  | .fcopy _ rd ra => some [.icopy rd ra]
  | .fclr _ rd => some [.iclr rd]
  | .acopy rd ra =>
    if rd.toNat ≤ 0xFFF8 ∧ ra.toNat ≤ 0xFFF8 then some [.icopy rd ra, .icopy (rd + 4#16) (ra + 4#16)] else none

end Sys2Proof.Machine
end

