-- ==== Sys2Proof/Safety.lean ====
section
/-! DEFINITION. The terms in which claims speak: the well-formedness of the parameter tables (R25, R27) and the preconditions
of the commands (R11) as the rules state them, the conditions under which a command executes (R55), its frame (R35), and the
invariant of the machine. -/

namespace Sys2Proof.Machine

/-- WF(F) (R25). -/
structure Desc.WF (F : Desc) : Prop where
  prime : Nat.Prime F.p
  odd : F.p % 2 = 1
  ge_three : 3 ≤ F.p
  top_word : F.P.w3.toNat < 2 ^ 64 - 1
  pp1 : quadVal F.PP1 = F.p + 1
  r1 : quadVal F.R1 = 2 ^ 256 % F.p
  r2 : quadVal F.R2 = (2 ^ 256) ^ 2 % F.p
  r3 : quadVal F.R3 = (2 ^ 256) ^ 3 % F.p
  ninv : F.NINV.toNat * F.p % 2 ^ 64 = 2 ^ 64 - 1

/-- WFC(C) (R27).  As in R27 the curve may be singular; for the commands, `Curve.Specified` and `State.WFC`. -/
structure Curve.WF (C : Curve) : Prop where
  field : C.F.WF
  a_reduced : quadVal C.cv.A < C.F.p
  b_reduced : quadVal C.cv.B < C.F.p
  b3_reduced : quadVal C.cv.B3 < C.F.p
  genx_reduced : quadVal C.cv.GENX < C.F.p
  geny_reduced : quadVal C.cv.GENY < C.F.p
  b3_triple : quadVal C.cv.B3 = fadd C.F (quadVal C.cv.B) (fadd C.F (quadVal C.cv.B) (quadVal C.cv.B))
  generator : oncurve C (.fin (quadVal C.cv.GENX) (quadVal C.cv.GENY)) = true

/-- The curve is not singular: 4A³ + 27B² ≠ 0 modulo p, on represented values (R27, G1). -/
def Curve.Nonsingular (C : Curve) : Prop :=
  (4 * tostd C.F (quadVal C.cv.A) ^ 3 + 27 * tostd C.F (quadVal C.cv.B) ^ 2) % C.F.p ≠ 0

/-- The curve tables with which the result of a command that has WFC(C) as its precondition is specified: with a malformed table
or a singular curve its footprint is unspecified (R27, U11; log 24). -/
structure Curve.Specified (C : Curve) : Prop where
  wf : C.WF
  nonsingular : C.Nonsingular

/-- The extra premise of R116 for ProjRef: no finite point of the curve has y = 0, that is, X³ + AX + B has no root modulo p
(R98, on represented values). -/
def Curve.NoOrderTwo (C : Curve) : Prop :=
  ∀ x, x < C.F.p → (x ^ 3 + tostd C.F (quadVal C.cv.A) * x + tostd C.F (quadVal C.cv.B)) % C.F.p ≠ 0

/-- The precondition on the curve table of the commands that the unit computes with ProjImpl's addition (AINSUB, ASMUL*, PDBL,
PADD, PSMUL*): that of every command with WFC(C), and for a unit whose ProjImpl is ProjRef the premise that R116 and G4 add to WFC
(log 25). -/
structure State.WFC (s : State) : Prop where
  curve : s.curve.Specified
  no_order_two : s.projImpl = .reference → s.curve.NoOrderTwo

/-- P is Infinity, or a finite point with reduced coordinates (R96). -/
def Pt.Valid (F : Desc) : Pt → Prop
  | .inf => True
  | .fin x y => x < F.p ∧ y < F.p

/-- X, Y, Z are reduced (R112). -/
def Triple.Valid (F : Desc) (t : Triple) : Prop := t.x < F.p ∧ t.y < F.p ∧ t.z < F.p

/-- The Montgomery form of a field value (R73). -/
def mont (F : Desc) (x : Nat) : Nat := x * 2 ^ 256 % F.p

/-- The `Precondition:` line of each command's rule (R11), with the readings of logs 11, 12, 13, 24 and 25 (R27, U11).  Inside it
every result that the rule gives is fixed; outside it the command writes unspecified values. -/
def Pre : Instr → State → Prop
  | .halt, _ | .stt .., _ | .iadd .., _ | .isub .., _ | .isubr .., _ | .imul .., _ | .isqr .., _ | .itstz .., _ | .ieq .., _
  | .icopy .., _ | .iclr .., _ | .fisone .., _ | .fsetone .., _ | .aisinf .., _ | .pisinf .., _ => True
  | .fadd fs _ ra rb, s | .fsub fs _ ra rb, s | .fmul fs _ ra rb, s =>
    (s.bank fs).WF ∧ s.memRead ra 4 < (s.bank fs).p ∧ s.memRead rb 4 < (s.bank fs).p
  | .fneg fs _ ra, s | .fsqr fs _ ra, s | .ftostd fs _ ra, s | .ffromstd fs _ ra, s | .fpow64 fs _ ra _, s
  | .fpowb fs _ ra _ _, s => (s.bank fs).WF ∧ s.memRead ra 4 < (s.bank fs).p
  | .fredc fs _ ra, s => (s.bank fs).WF ∧ s.memRead ra 8 < 2 ^ 256 * (s.bank fs).p
  | .finv fs _ ra, s => (s.bank fs).WF ∧ 0 < s.memRead ra 4 ∧ s.memRead ra 4 < (s.bank fs).p
  | .fdiv fs _ ra rb, s =>
    (s.bank fs).WF ∧ s.memRead ra 4 < (s.bank fs).p ∧ 0 < s.memRead rb 4 ∧ s.memRead rb 4 < (s.bank fs).p
  | .aoncrv ra, s => s.curve.Specified ∧ (s.readPt ra).Valid s.fd0
  | .ainsub ra, s =>
    s.WFC ∧ (s.readPt ra).Valid s.fd0
      ∧ (oncurve s.curve (s.readPt ra) = true → ∃ Q, smul s.curve (quadVal s.cv.COF) 256 (s.readPt ra) = some Q)
  | .aneg _ ra, s => s.fd0.WF ∧ ∀ x y, s.readPt ra = .fin x y → y < s.fd0.p
  | .adbl _ ra, s => s.curve.Specified ∧ ∀ x y, s.readPt ra = .fin x y → x < s.fd0.p ∧ 0 < y ∧ y < s.fd0.p
  | .aadd _ ra rb, s => s.curve.Specified ∧ ∃ R, aadd s.curve (s.readPt ra) (s.readPt rb) = some R
  | .asmul64 _ ra rb, s => s.WFC ∧ ∃ R, smul s.curve (s.memRead rb 1) 64 (s.readPt ra) = some R
  | .asmulb _ ra rb len, s => s.WFC ∧ ∃ R, smul s.curve (s.memRead rb len) (64 * len) (s.readPt ra) = some R
  | .asmulf fs _ ra rb, s =>
    s.WFC ∧ (s.bank fs).WF ∧ s.memRead rb 4 < (s.bank fs).p
      ∧ ∃ R, smul s.curve (tostd (s.bank fs) (s.memRead rb 4)) 256 (s.readPt ra) = some R
  | .pfroma _ ra, s => s.curve.Specified ∧ (s.readPt ra).Valid s.fd0
  | .ptoa _ ra, s => s.curve.Specified ∧ (s.readTriple ra).Valid s.fd0
  | .pdbl _ ra, s => s.WFC ∧ (s.readTriple ra).Valid s.fd0 ∧ ∃ R, requiredDbl s.curve (s.readTriple ra) = some R
  | .padd _ ra rb, s =>
    s.WFC ∧ (s.readTriple ra).Valid s.fd0 ∧ (s.readTriple rb).Valid s.fd0
      ∧ ∃ R, requiredAdd s.curve (s.readTriple ra) (s.readTriple rb) = some R
  | .psmul64 _ ra rb, s =>
    s.WFC ∧ (s.readTriple ra).Valid s.fd0
      ∧ ∃ R, requiredSmul s.curve (s.memRead rb 1) 64 (s.readTriple ra) = some R
  | .psmulb _ ra rb len, s =>
    s.WFC ∧ (s.readTriple ra).Valid s.fd0
      ∧ ∃ R, requiredSmul s.curve (s.memRead rb len) (64 * len) (s.readTriple ra) = some R
  | .psmulf fs _ ra rb, s =>
    s.WFC ∧ (s.bank fs).WF ∧ s.memRead rb 4 < (s.bank fs).p ∧ (s.readTriple ra).Valid s.fd0
      ∧ ∃ R, requiredSmul s.curve (tostd (s.bank fs) (s.memRead rb 4)) 256 (s.readTriple ra) = some R

/-- The part of `Pre` outside which the result is unspecified: all of it, but for the projective operations the hypotheses of
R115, outside which the result is still a valid triple (U7). -/
def PreChecked : Instr → State → Prop
  | .pdbl _ ra, s => s.WFC ∧ (s.readTriple ra).Valid s.fd0
  | .padd _ ra rb, s => s.WFC ∧ (s.readTriple ra).Valid s.fd0 ∧ (s.readTriple rb).Valid s.fd0
  | .psmul64 _ ra _, s | .psmulb _ ra _ _, s => s.WFC ∧ (s.readTriple ra).Valid s.fd0
  | .psmulf fs _ ra rb, s =>
    s.WFC ∧ (s.bank fs).WF ∧ s.memRead rb 4 < (s.bank fs).p ∧ (s.readTriple ra).Valid s.fd0
  | i, s => Pre i s

/-- The value an element in Montgomery form represents (R73), as an integer. -/
def val (F : Desc) (a : Nat) : Int := tostd F a

/-- On represented values, (x', y') is the negated third point of the line of slope `m` through (x₁, y₁) that also meets the
curve over x₂ (R100, R101): x' = m² − x₁ − x₂ and y' = −(y₁ + m(x' − x₁)) modulo p. -/
def ThirdPoint (F : Desc) (m : Int) (x₁ y₁ x₂ x' y' : Nat) : Prop :=
  (val F x' - (m ^ 2 - val F x₁ - val F x₂)) % F.p = 0 ∧ (val F y' + (val F y₁ + m * (val F x' - val F x₁))) % F.p = 0

/-- The 21 words of a descriptor bank in the order of the offsets of R24. -/
def descWords (F : Desc) : List Word :=
  [F.P, F.PP1, F.R1, F.R2, F.R3].flatMap (fun q => [q.w0, q.w1, q.w2, q.w3]) ++ [F.NINV]

/-- The 24 words of the curve table in the order of the offsets of R26. -/
def curveWords (T : CurveTable) : List Word :=
  [T.A, T.B, T.B3, T.GENX, T.GENY, T.COF].flatMap fun q => [q.w0, q.w1, q.w2, q.w3]

/-- The checks of R55 find nothing: pc is not the last index, and every used operand has no words or lies inside BUF (R36). -/
abbrev Ready (i : Instr) (s : State) : Prop :=
  s.pc ≠ 0xFFFF#16 ∧ ∀ o ∈ operandsOf i, o.2 = 0 ∨ o.1.toNat + o.2 ≤ 65536

/-- The address `a` is none of the destination words of `i` (R35). -/
def OutsideDest (i : Instr) (a : Nat) : Prop :=
  ∀ rd k, destOf i = some (rd, k) → a < rd.toNat ∨ rd.toNat + k ≤ a

/-- What a command other than HALT leaves unchanged when it executes (R10, R11, R17, R35): pc advances by one; every word of
BUF outside the destination, CMD, the tables and the status stay; T stays unless R35 says the command writes T. -/
structure FrameKept (i : Instr) (s t : State) : Prop where
  pc : t.pc = s.pc + 1#16
  buf : ∀ a, OutsideDest i a → t.buf.read a = s.buf.read a
  flag : writesT i = false → t.t = s.t
  cmd : t.cmd = s.cmd
  run : t.run = s.run
  done : t.done = s.done
  faulted : t.faulted = s.faulted
  cause : t.cause = s.cause
  finfo : t.finfo = s.finfo
  fd0 : t.fd0 = s.fd0
  fd1 : t.fd1 = s.fd1
  cv : t.cv = s.cv
  projImpl : t.projImpl = s.projImpl

/-- `exec i s` answers a next state that keeps the frame, draws no unspecified value, and satisfies `post`. -/
def Completes (i : Instr) (s : State) (post : State → Prop) : Prop :=
  ∃ t, exec i s = .next t ∧ FrameKept i s t ∧ t.freeCount = s.freeCount ∧ post t

/-- Command `i` answers the next state of a fault entry with this code, its own word in FINFO, and nothing else (R131). -/
def Faults (i : Instr) (s : State) (code : BitVec 4) : Prop :=
  exec i s = .next { s with cause := code, finfo := encode i, faulted := true, run := false }

/-- The state after fault entry with this code and word (R131), spelled out. -/
def faultEntered (s : State) (code : BitVec 4) (w : Word) : State :=
  { s with cause := code, finfo := w, faulted := true, run := false }

/-- The words of opcode `op`: the command `mk` of their fields if every field outside `u` is zero, and illegal otherwise (R45,
R46, R50). -/
def OpcodeIs (op : BitVec 8) (u : Uses) (mk : Fields → Instr) : Prop :=
  ∀ w : Word, (fieldsOf w).op = op →
    ((fieldsOf w).within u = true → decode w = .ok (mk (fieldsOf w)))
      ∧ ((fieldsOf w).within u = false → ∃ e, decode w = .error e)

/-- The invariant of the machine: both memories are canonical; at most one of RUN, DONE and FAULT is 1 (R20); CAUSE is 0 to 3
and is not 0 exactly when the last run ended by a fault (R20, R21); FINFO is 0 unless it did (R22). -/
structure State.Inv (s : State) : Prop where
  buf : s.buf.wf Config.bufWords = true
  cmd : s.cmd.wf Config.cmdWords = true
  one_status : (s.run && s.done) = false ∧ (s.run && s.faulted) = false ∧ (s.done && s.faulted) = false
  cause_le : s.cause.toNat ≤ 3
  cause_faulted : s.faulted = true ↔ s.cause ≠ 0#4
  finfo : s.faulted = false → s.finfo = 0#64

end Sys2Proof.Machine
end

