-- ==== Sys2Proof/Certificates/Slice0/Obligations.lean ====
section
/-! DEFINITION. The statements for the provers.  `Ready`, `Completes`, `FrameKept`, `OpcodeIs`, `Faults`, `Pre`, `Desc.WF`,
`Curve.WF` and `State.Inv` are defined in `Sys2Proof/Safety.lean`.  `Curve.WF` is WFC(C) of R27, the premise on the pure functions;
`Curve.Specified`, the premise on the commands, excludes the singular curves of U11 too (log 24); `State.WFC`, of the commands that
use ProjImpl's addition, adds the premise of R116 for a unit with ProjRef (log 25). -/

open Sys2Proof Sys2Proof.Machine

/-! ### Encoding -/

/-- R51: encoding and decoding are inverse, the fields stand at the bit positions of R45, the word is the sum of the shifted
fields, and the worked example. -/
def Obligations.DecodeAndEncodeAreInverse : Prop :=
  (∀ i : Instr, i.wellFormed = true → decode (encode i) = .ok i)
    ∧ (∀ (w : Word) (i : Instr), decode w = .ok i → i.wellFormed = true ∧ encode i = w)
    ∧ (∀ i : Instr, (encode i).toNat = i.fields.op.toNat + i.fields.fs.toNat * 2 ^ 8 + i.fields.len.toNat * 2 ^ 9
        + i.fields.rd.toNat * 2 ^ 16 + i.fields.ra.toNat * 2 ^ 32 + i.fields.rb.toNat * 2 ^ 48)
    ∧ (∀ w : Word, (fieldsOf w).op.toNat = w.toNat % 2 ^ 8 ∧ (fieldsOf w).fs.toNat = w.toNat / 2 ^ 8 % 2
        ∧ (fieldsOf w).len.toNat = w.toNat / 2 ^ 9 % 2 ^ 7 ∧ (fieldsOf w).rd.toNat = w.toNat / 2 ^ 16 % 2 ^ 16
        ∧ (fieldsOf w).ra.toNat = w.toNat / 2 ^ 32 % 2 ^ 16 ∧ (fieldsOf w).rb.toNat = w.toNat / 2 ^ 48)
    ∧ encode (.fmul .b1 0x0020#16 0x0000#16 0x0004#16) = 0x0004000000200123#64

/-- A word is a command of a row of the opcode table exactly when it matches the row under its mask. -/
def Obligations.OpcodeTableRowsDecodeExactly : Prop :=
  ∀ (w : Word) (r : OpcodeRow), r ∈ opcodeRows →
    (w &&& r.mask = r.bits ↔ ∃ i, decode w = .ok i ∧ i.mnemonic = r.mnemonic)

/-- R50: a word is illegal exactly when it matches no row; the unassigned opcodes; executing an illegal word. -/
def Obligations.IllegalWordsAreThoseOutsideTheTable : Prop :=
  (∀ w : Word, (∃ e, decode w = .error e) ↔ ∀ r ∈ opcodeRows, w &&& r.mask ≠ r.bits)
    ∧ (∀ w : Word, decode w = .error (.unassignedOpcode (fieldsOf w).op) ↔
        (0x02 ≤ (fieldsOf w).op.toNat ∧ (fieldsOf w).op.toNat ≤ 0x0F)
          ∨ (0x19 ≤ (fieldsOf w).op.toNat ∧ (fieldsOf w).op.toNat ≤ 0x1F)
          ∨ (0x2E ≤ (fieldsOf w).op.toNat ∧ (fieldsOf w).op.toNat ≤ 0x2F)
          ∨ (0x39 ≤ (fieldsOf w).op.toNat ∧ (fieldsOf w).op.toNat ≤ 0x3F)
          ∨ 0x48 ≤ (fieldsOf w).op.toNat)
    ∧ (∀ (s : State) (e : Illegal), s.run = true → decode s.fetch = .error e →
        step s = .next (faultEntered s 1#4 s.fetch))

/-- Words written out from the encoding of R45 and R49 decode to the commands they stand for, and two illegal ones do not. -/
def Obligations.SpecWordsDecodeToTheirCommands : Prop :=
  decode 0x0000000000000000#64 = .ok .halt
    ∧ decode 0x0004000000080010#64 = .ok (.iadd 0x0008#16 0x0000#16 0x0004#16)
    ∧ decode 0x001000000020FF27#64 = .ok (.fpowb .b1 0x0020#16 0x0000#16 0x0010#16 127)
    ∧ decode 0x0038003000400138#64 = .ok (.asmulf .b1 0x0040#16 0x0030#16 0x0038#16)
    ∧ decode 0x002C002000400044#64 = .ok (.padd 0x0040#16 0x0020#16 0x002C#16)
    ∧ decode 0x0000000000000048#64 = .error (.unassignedOpcode 0x48#8)
    ∧ decode 0x0004000000080110#64 = .error (.unusedFieldNonzero 0x10#8)

/-! ### The step -/

/-- While RUN = 1 a step is the execution of the command that CMD[pc] decodes to; a word placed by `withFetchWord` is that
command for the next step. -/
def Obligations.StepRunsTheDecodedCommand : Prop :=
  (∀ (s : State) (i : Instr), s.run = true → decode (s.cmdWord s.pc.toNat) = .ok i → step s = exec i s)
    ∧ (∀ (s : State) (w : Nat) (i : Instr), decodeTableWord 64 w = some i →
        step (s.withFetchWord 64 w) = exec i (s.withFetchWord 64 w))

/-- R127, R128, R129: the three faults of the framing, each with its code, the fetched word in FINFO, and nothing else. -/
def Obligations.FramingFaultsEnterWithTheirCodes : Prop :=
  (∀ (s : State) (e : Illegal), s.run = true → decode s.fetch = .error e →
      step s = .next (faultEntered s 1#4 s.fetch))
    ∧ (∀ (s : State) (i : Instr), s.run = true → decode s.fetch = .ok i → i ≠ .halt → s.pc = 0xFFFF#16 →
        step s = .next (faultEntered s 3#4 s.fetch))
    ∧ (∀ (s : State) (i : Instr), s.run = true → decode s.fetch = .ok i → s.pc ≠ 0xFFFF#16 →
        (∃ o ∈ operandsOf i, 0 < o.2 ∧ 65536 < o.1.toNat + o.2) →
        step s = .next (faultEntered s 2#4 s.fetch))

/-- While RUN = 0 the unit performs no step (the model's reading of R20 and R56, log 14). -/
def Obligations.IdleUnitDoesNothing : Prop := ∀ s : State, s.run = false → step s = .next s

/-- Nothing stops the model: every command and every step answers a next state.  That a halt (R57) and a fault entry (R131) are
next states is the model's form of the outcomes of R10; that an idle step is one is the stutter of log 14 (DEDUCED). -/
def Obligations.EveryStepAnswersANextState : Prop :=
  (∀ s : State, ∃ t, step s = .next t) ∧ (∀ (i : Instr) (s : State), ∃ t, exec i s = .next t)

/-- Whatever the data, a command that passes the checks of R55 completes, and changes only its footprint. -/
def Obligations.CommandsCompleteWithinTheirFootprint : Prop :=
  ∀ (i : Instr) (s : State), i ≠ .halt → Ready i s → ∃ t, exec i s = .next t ∧ FrameKept i s t

/-- A command whose precondition holds draws no unspecified value (R11). -/
def Obligations.PreconditionsExcludeUnspecifiedResults : Prop :=
  ∀ (i : Instr) (s : State), i ≠ .halt → Ready i s → Pre i s → Completes i s fun _ => True

/-- Every run ends, by HALT or by a fault and not by both, at the latest at pc = 0xFFFF (R56).  It is about runs of `step` alone,
without the SRST with which a host could end one: log 16 (DESIGN CHOICE). -/
def Obligations.EveryRunEndsByTheLastSlot : Prop :=
  ∀ s : State, s.Inv → s.run = true →
    ∃ (n : Nat) (t : State), n ≤ 65536 - s.pc.toNat ∧ Host.Core.run Sys2Proof.core n s = .next t ∧ t.run = false
      ∧ ((t.done = true ∧ t.faulted = false) ∨ (t.done = false ∧ t.faulted = true))

/-- No step changes CMD, the parameter tables or the choice of ProjImpl. -/
def Obligations.StepsKeepCommandsAndTables : Prop :=
  ∀ s t : State, step s = .next t →
    t.cmd = s.cmd ∧ t.fd0 = s.fd0 ∧ t.fd1 = s.fd1 ∧ t.cv = s.cv ∧ t.projImpl = s.projImpl

/-- Exactly the commands of R17 write T, and a step of any other keeps it. -/
def Obligations.OnlyTheListedCommandsWriteT : Prop :=
  (∀ i : Instr, writesT i = true ↔
      i.mnemonic ∈ ["IADD", "ISUB", "ISUBR", "ITSTZ", "IEQ", "FISONE", "AISINF", "AONCRV", "AINSUB", "PISINF"])
    ∧ (∀ (s t : State) (i : Instr), s.run = true → decode s.fetch = .ok i → step s = .next t → t.t ≠ s.t →
        writesT i = true)

/-- Only STT reads T: any other command does the same whatever T holds. -/
def Obligations.OnlySttReadsT : Prop :=
  ∀ (i : Instr) (s t : State) (b : Bool), (∀ rd, i ≠ .stt rd) → exec i s = .next t →
    ∃ t', exec i { s with t := b } = .next t' ∧ { t' with t := t.t } = t
      ∧ (writesT i = true → Ready i s → t'.t = t.t)

/-- A launch with nothing changed executes the faulting command again and faults again. -/
def Obligations.RelaunchRepeatsTheFault : Prop :=
  ∀ s t : State, s.Inv → s.run = true → step s = .next t → t.faulted = true → step t.launch = .next t

/-! ### The invariant -/

def Obligations.ResetMeetsTheInvariant : Prop := State.reset.Inv

/-- From every state that meets the invariant, every step of the unit leads to one that does. -/
def Obligations.EveryStepKeepsTheInvariant : Prop :=
  ∀ s t : State, s.Inv → step s = .next t → t.Inv

/-- Every host access keeps the invariant, also one that lands in the middle of a run. -/
def Obligations.EveryHostAccessKeepsTheInvariant : Prop :=
  ∀ (s : State) (a : HostAddr) (v : Word), s.Inv → (hostWrite a v s).Inv ∧ (hostRead a s).2.Inv

/-! ### The host port -/

/-- CTRL (R23): SRST wins, START launches an idle unit (R54) and does nothing to a running one, other bits do nothing. -/
def Obligations.CtrlWritesLaunchOrReset : Prop :=
  ∀ (s : State) (v : Word),
    (v.getLsbD 1 = true → hostWrite 0x20000#18 v s = s.srst)
      ∧ (v.getLsbD 1 = false → v.getLsbD 0 = true → s.run = false → hostWrite 0x20000#18 v s =
          { s with run := true, done := false, faulted := false, cause := 0#4, finfo := 0#64 })
      ∧ (v.getLsbD 1 = false → s.run = true → hostWrite 0x20000#18 v s = s)
      ∧ (v.getLsbD 1 = false → v.getLsbD 0 = false → hostWrite 0x20000#18 v s = s)
      ∧ (s.run = false → (hostRead 0x20000#18 s).1 = 0#64)

/-- While RUN = 1 every host write but one to CTRL is discarded, STATUS reads as it is, and no read changes the spec's state. -/
def Obligations.RunningUnitIgnoresHostAccesses : Prop :=
  ∀ (s : State) (a : HostAddr) (v : Word), s.run = true →
    (a ≠ 0x20000#18 → hostWrite a v s = s) ∧ hostRead 0x20001#18 s = (s.status, s)
      ∧ { (hostRead a s).2 with freeCount := s.freeCount } = s

/-- While RUN = 0 the host reads back what it wrote to a writable place (PC keeps 16 bits), sees every other place as before,
finds 0 at reserved and unassigned addresses, where its writes do nothing as at the read-only STATUS, CAUSE and FINFO, and reads
at each address the state that R28, R24 and R26 place there. -/
def Obligations.IdleHostReadsBackWhatItWrote : Prop :=
  ∀ (s : State) (a : HostAddr) (v : Word), s.run = false →
    ((a.toNat < 0x20000 ∨ (0x20010 ≤ a.toNat ∧ a.toNat ≤ 0x20024) ∨ (0x20030 ≤ a.toNat ∧ a.toNat ≤ 0x20044)
          ∨ (0x20050 ≤ a.toNat ∧ a.toNat ≤ 0x20067)) → (hostRead a (hostWrite a v s)).1 = v)
      ∧ (hostRead 0x20003#18 (hostWrite 0x20003#18 v s)).1.toNat = v.toNat % 65536
      ∧ (∀ b : HostAddr, b ≠ a → a ≠ 0x20000#18 → (hostRead b (hostWrite a v s)).1 = (hostRead b s).1)
      ∧ (((0x20005 ≤ a.toNat ∧ a.toNat ≤ 0x2000F) ∨ (0x20025 ≤ a.toNat ∧ a.toNat ≤ 0x2002F)
          ∨ (0x20045 ≤ a.toNat ∧ a.toNat ≤ 0x2004F) ∨ 0x20068 ≤ a.toNat) →
          hostWrite a v s = s ∧ (hostRead a s).1 = 0#64)
      ∧ (a = 0x20001#18 ∨ a = 0x20002#18 ∨ a = 0x20004#18 → hostWrite a v s = s)
      ∧ (∀ i, i < 65536 → (hostRead (BitVec.ofNat 18 i) s).1 = s.bufWord i
          ∧ (hostRead (BitVec.ofNat 18 (0x10000 + i)) s).1 = s.cmdWord i)
      ∧ ((hostRead 0x20001#18 s).1 = s.status ∧ (hostRead 0x20002#18 s).1.toNat = s.cause.toNat
          ∧ (hostRead 0x20003#18 s).1.toNat = s.pc.toNat ∧ (hostRead 0x20004#18 s).1 = s.finfo)
      ∧ (∀ i, i < 21 → (hostRead (BitVec.ofNat 18 (0x20010 + i)) s).1 = (descWords s.fd0).getD i 0#64
          ∧ (hostRead (BitVec.ofNat 18 (0x20030 + i)) s).1 = (descWords s.fd1).getD i 0#64)
      ∧ (∀ i, i < 24 → (hostRead (BitVec.ofNat 18 (0x20050 + i)) s).1 = (curveWords s.cv).getD i 0#64)

/-- STATUS holds RUN, DONE, FAULT and T in bits 0 to 3 and zeros above; `irq` is DONE or FAULT. -/
def Obligations.StatusWordAndIrq : Prop :=
  ∀ s : State, s.status.getLsbD 0 = s.run ∧ s.status.getLsbD 1 = s.done ∧ s.status.getLsbD 2 = s.faulted
    ∧ s.status.getLsbD 3 = s.t ∧ s.status.toNat < 16 ∧ (s.irq = true ↔ s.done = true ∨ s.faulted = true)

/-- The state after power-on, and SRST at any time: the control state is cleared; CMD and the tables stay; BUF stays while the
unit is idle (R136, R31), and during a run outside the destination of the command in progress.  That the command in progress is
the one at CMD[pc] (R16), and that an illegal word there has no destination, is the model's reading, log 17 (DEDUCED). -/
def Obligations.ResetClearsTheControlState : Prop :=
  (State.reset.pc = 0#16 ∧ State.reset.t = false ∧ State.reset.run = false ∧ State.reset.done = false
      ∧ State.reset.faulted = false ∧ State.reset.cause = 0#4 ∧ State.reset.finfo = 0#64)
    ∧ ∀ s : State,
      (s.srst.pc = 0#16 ∧ s.srst.t = false ∧ s.srst.run = false ∧ s.srst.done = false ∧ s.srst.faulted = false
          ∧ s.srst.cause = 0#4 ∧ s.srst.finfo = 0#64)
        ∧ (s.srst.cmd = s.cmd ∧ s.srst.fd0 = s.fd0 ∧ s.srst.fd1 = s.fd1 ∧ s.srst.cv = s.cv)
        ∧ (s.run = false → s.srst.buf = s.buf)
        ∧ (∀ e, decode s.fetch = .error e → s.srst.buf = s.buf)
        ∧ (∀ i a, decode s.fetch = .ok i → OutsideDest i a → s.srst.buf.read a = s.buf.read a)

/-! ### Sequencing -/

/-- R57. HALT ends the run from any state; pc and T stay; the all-zero word is the only legal word of op 0x00. -/
def Obligations.HaltEndsTheRun : Prop :=
  (∀ s : State, exec .halt s = .next { s with run := false, done := true })
    ∧ encode .halt = 0x0000000000000000#64
    ∧ (∀ w : Word, (fieldsOf w).op = 0x00#8 → w ≠ 0#64 → ∃ e, decode w = .error e)

/-- R58. STT stores 1 or 0; any 16-bit address fits. -/
def Obligations.SttStoresTheFlag : Prop :=
  OpcodeIs 0x01#8 { rd := true } (fun f => .stt f.rd)
    ∧ (∀ (rd : Addr) (s : State), s.pc ≠ 0xFFFF#16 →
        Completes (.stt rd) s fun t => t.memRead rd 1 = (if s.t then 1 else 0))
    ∧ (∀ (rd : Addr) (s : State), s.pc = 0xFFFF#16 → Faults (.stt rd) s 3#4)
    ∧ encode (.stt 0x0100#16) = 0x0000000001000001#64

/-! ### The integer core -/

/-- R61. -/
def Obligations.IaddAddsExactlyWithCarryOut : Prop :=
  OpcodeIs 0x10#8 { rd := true, ra := true, rb := true } (fun f => .iadd f.rd f.ra f.rb)
    ∧ ∀ (rd ra rb : Addr) (s : State), Ready (.iadd rd ra rb) s →
      Completes (.iadd rd ra rb) s fun t =>
        t.memRead rd 4 = (s.memRead ra 4 + s.memRead rb 4) % 2 ^ 256
          ∧ (t.t = true ↔ 2 ^ 256 ≤ s.memRead ra 4 + s.memRead rb 4)

/-- R62, R63. -/
def Obligations.IsubAndIsubrSubtractWithBorrowOut : Prop :=
  OpcodeIs 0x11#8 { rd := true, ra := true, rb := true } (fun f => .isub f.rd f.ra f.rb)
    ∧ OpcodeIs 0x12#8 { rd := true, ra := true, rb := true } (fun f => .isubr f.rd f.ra f.rb)
    ∧ (∀ (rd ra rb : Addr) (s : State), Ready (.isub rd ra rb) s →
        Completes (.isub rd ra rb) s fun t =>
          (t.memRead rd 4 : Int) = ((s.memRead ra 4 : Int) - s.memRead rb 4) % 2 ^ 256
            ∧ (t.t = true ↔ s.memRead ra 4 < s.memRead rb 4))
    ∧ (∀ (rd ra rb : Addr) (s : State), Ready (.isubr rd ra rb) s →
        Completes (.isubr rd ra rb) s fun t =>
          (t.memRead rd 4 : Int) = ((s.memRead rb 4 : Int) - s.memRead ra 4) % 2 ^ 256
            ∧ (t.t = true ↔ s.memRead rb 4 < s.memRead ra 4))

/-- R64, R65. -/
def Obligations.ImulAndIsqrGiveTheFullProduct : Prop :=
  OpcodeIs 0x13#8 { rd := true, ra := true, rb := true } (fun f => .imul f.rd f.ra f.rb)
    ∧ OpcodeIs 0x14#8 { rd := true, ra := true } (fun f => .isqr f.rd f.ra)
    ∧ (∀ (rd ra rb : Addr) (s : State), Ready (.imul rd ra rb) s →
        Completes (.imul rd ra rb) s fun t => t.memRead rd 8 = s.memRead ra 4 * s.memRead rb 4)
    ∧ (∀ (rd ra : Addr) (s : State), Ready (.isqr rd ra) s →
        Completes (.isqr rd ra) s fun t => t.memRead rd 8 = s.memRead ra 4 * s.memRead ra 4)
    ∧ (∀ (rd ra rb : Addr) (s : State), s.pc ≠ 0xFFFF#16 → 0xFFF8 < rd.toNat →
        Faults (.imul rd ra rb) s 2#4 ∧ Faults (.isqr rd ra) s 2#4)

/-- R66, R67. -/
def Obligations.ItstzAndIeqSetTheFlag : Prop :=
  OpcodeIs 0x15#8 { ra := true } (fun f => .itstz f.ra)
    ∧ OpcodeIs 0x16#8 { ra := true, rb := true } (fun f => .ieq f.ra f.rb)
    ∧ (∀ (ra : Addr) (s : State), Ready (.itstz ra) s →
        Completes (.itstz ra) s fun t => (t.t = true ↔ s.memRead ra 4 = 0) ∧ t.buf = s.buf)
    ∧ (∀ (ra rb : Addr) (s : State), Ready (.ieq ra rb) s →
        Completes (.ieq ra rb) s fun t => (t.t = true ↔ s.memRead ra 4 = s.memRead rb 4) ∧ t.buf = s.buf)

/-- R68, R69.  The copy is of the pre-state value, also where the two buffers overlap. -/
def Obligations.IcopyCopiesAndIclrClears : Prop :=
  OpcodeIs 0x17#8 { rd := true, ra := true } (fun f => .icopy f.rd f.ra)
    ∧ OpcodeIs 0x18#8 { rd := true } (fun f => .iclr f.rd)
    ∧ (∀ (rd ra : Addr) (s : State), Ready (.icopy rd ra) s →
        Completes (.icopy rd ra) s fun t => t.memRead rd 4 = s.memRead ra 4)
    ∧ (∀ (rd : Addr) (s : State), Ready (.iclr rd) s → Completes (.iclr rd) s fun t => t.memRead rd 4 = 0)

/-- R53: the two commands of ACOPY copy a point, for buffers that are identical or disjoint. -/
def Obligations.AcopyCopiesAPoint : Prop :=
  ∀ (rd ra : Addr) (s : State), rd.toNat ≤ 0xFFF8 → ra.toNat ≤ 0xFFF8 →
    (rd = ra ∨ rd.toNat + 8 ≤ ra.toNat ∨ ra.toNat + 8 ≤ rd.toNat) → s.pc.toNat < 0xFFFE →
    expand (.acopy rd ra) = some [.icopy rd ra, .icopy (rd + 4#16) (ra + 4#16)]
      ∧ ∃ t u, exec (.icopy rd ra) s = .next t ∧ exec (.icopy (rd + 4#16) (ra + 4#16)) t = .next u
        ∧ u.memRead rd 8 = s.memRead ra 8

/-! ### The Montgomery field: functions -/

/-- R72: the algorithm of R71 divides by the radix modulo p. -/
def Obligations.RedcDividesByTheRadixModP : Prop :=
  ∀ (F : Desc) (t : Nat), F.WF → t < 2 ^ 256 * F.p →
    redc F t < F.p ∧ redc F t * 2 ^ 256 % F.p = t % F.p
      ∧ ∀ rInv, 2 ^ 256 * rInv % F.p = 1 → redc F t = t * rInv % F.p

/-- R74, R75, R76: the functions are the rules' conditional corrections, and compute modulo p on reduced elements. -/
def Obligations.FieldAdditionIsModular : Prop :=
  ∀ (F : Desc) (a b : Nat), F.WF → a < F.p → b < F.p →
    (fadd F a b = (if F.p ≤ a + b then a + b - F.p else a + b) ∧ fadd F a b = (a + b) % F.p)
      ∧ ((fsub F a b : Int) = (if a < b then (a : Int) - b + F.p else (a : Int) - b)
        ∧ (fsub F a b : Int) = ((a : Int) - b) % F.p)
      ∧ (fneg F a = (if a = 0 then 0 else (2 ^ 256 - 1 - a + quadVal F.PP1) % 2 ^ 256) ∧ (0 < a → fneg F a = F.p - a)
        ∧ (fneg F a : Int) = -(a : Int) % F.p)

/-- R77: Montgomery multiplication is the reduced product, and multiplies the represented values. -/
def Obligations.MontgomeryFormIsMultiplicative : Prop :=
  ∀ (F : Desc) (a b x y : Nat), F.WF → a < F.p → b < F.p →
    fmul F a b = redc F (a * b) ∧ fsqr F a = redc F (a * a)
      ∧ fmul F a b < F.p ∧ (∀ rInv, 2 ^ 256 * rInv % F.p = 1 → fmul F a b = a * b * rInv % F.p)
      ∧ fsqr F a = fmul F a a ∧ fmul F a (quadVal F.R1) = a
      ∧ fmul F (mont F x) (mont F y) = mont F (x * y % F.p)

/-- R78, and Fermat's theorem as R89 states it: powers of represented values; the bit count does not matter. -/
def Obligations.FpowRaisesTheRepresentedValue : Prop :=
  ∀ (F : Desc), F.WF →
    (∀ x e nb, e < 2 ^ nb → fpow F (mont F x) e nb = mont F (x ^ e))
      ∧ (∀ a nb, a < F.p → fpow F a 0 nb = F.one)
      ∧ (∀ a nb, a < F.p → 0 < nb → fpow F a 1 nb = a)
      ∧ (∀ e nb, 0 < e → e < 2 ^ nb → fpow F 0 e nb = 0)
      ∧ (∀ a e nb nb', a < F.p → e < 2 ^ nb → e < 2 ^ nb' → fpow F a e nb = fpow F a e nb')
      ∧ (∀ a nb, 0 < a → a < F.p → F.p ≤ 2 ^ nb → fpow F a (F.p - 1) nb = F.one ∧ fpow F a (F.p - 2) nb = finv F a)

/-- R79, R80: the standard inverse is the unique one; inversion and division in Montgomery form. -/
def Obligations.FieldInversionAndDivision : Prop :=
  ∀ (F : Desc) (a b : Nat), F.WF → 0 < a → a < F.p → b < F.p →
    (1 ≤ stdinv F a ∧ stdinv F a < F.p ∧ a * stdinv F a % F.p = 1)
      ∧ (∀ c, c < F.p → a * c % F.p = 1 → c = stdinv F a) ∧ stdinv F a = a ^ (F.p - 2) % F.p
      ∧ finv F a = fmul F (stdinv F a) (quadVal F.R3) ∧ fdiv F b a = fmul F (b * stdinv F a % F.p) (quadVal F.R2)
      ∧ finv F a = stdinv F a * (2 ^ 256) ^ 2 % F.p ∧ fdiv F b a = b * stdinv F a * 2 ^ 256 % F.p
      ∧ fmul F a (finv F a) = F.one ∧ fdiv F a a = F.one ∧ fdiv F b a = fmul F b (finv F a)
      ∧ fmul F (fdiv F b a) a = b

/-- R81: the two conversions are inverse bijections of the reduced elements. -/
def Obligations.StandardFormConversionsAreInverse : Prop :=
  ∀ (F : Desc) (x : Nat), F.WF → x < F.p →
    tostd F x = redc F x ∧ fromstd F x = fmul F x (quadVal F.R2)
      ∧ fromstd F x = mont F x ∧ tostd F x < F.p ∧ tostd F (fromstd F x) = x ∧ fromstd F (tostd F x) = x

/-! ### The Montgomery field: commands -/

/-- FADD, FSUB, FNEG write the sum, difference and negative modulo p (R82 to R84). -/
def Obligations.FieldAdditionCommandsWriteTheirResults : Prop :=
  OpcodeIs 0x20#8 { rd := true, ra := true, rb := true, fs := true } (fun f => .fadd (bankOf f.fs) f.rd f.ra f.rb)
    ∧ OpcodeIs 0x21#8 { rd := true, ra := true, rb := true, fs := true } (fun f => .fsub (bankOf f.fs) f.rd f.ra f.rb)
    ∧ OpcodeIs 0x22#8 { rd := true, ra := true, fs := true } (fun f => .fneg (bankOf f.fs) f.rd f.ra)
    ∧ (∀ (fs : Bank) (rd ra rb : Addr) (s : State), Ready (.fadd fs rd ra rb) s → Pre (.fadd fs rd ra rb) s →
      Completes (.fadd fs rd ra rb) s fun t =>
        t.memRead rd 4 = (s.memRead ra 4 + s.memRead rb 4) % (s.bank fs).p)
    ∧ (∀ (fs : Bank) (rd ra rb : Addr) (s : State), Ready (.fsub fs rd ra rb) s → Pre (.fsub fs rd ra rb) s →
        Completes (.fsub fs rd ra rb) s fun t =>
          (t.memRead rd 4 : Int) = ((s.memRead ra 4 : Int) - s.memRead rb 4) % (s.bank fs).p)
    ∧ (∀ (fs : Bank) (rd ra : Addr) (s : State), Ready (.fneg fs rd ra) s → Pre (.fneg fs rd ra) s →
        Completes (.fneg fs rd ra) s fun t => (t.memRead rd 4 : Int) = -(s.memRead ra 4 : Int) % (s.bank fs).p)

/-- FMUL, FSQR, FREDC write the reduced quotient by the radix (R85 to R87). -/
def Obligations.FieldProductCommandsWriteTheirResults : Prop :=
  OpcodeIs 0x23#8 { rd := true, ra := true, rb := true, fs := true } (fun f => .fmul (bankOf f.fs) f.rd f.ra f.rb)
    ∧ OpcodeIs 0x24#8 { rd := true, ra := true, fs := true } (fun f => .fsqr (bankOf f.fs) f.rd f.ra)
    ∧ OpcodeIs 0x25#8 { rd := true, ra := true, fs := true } (fun f => .fredc (bankOf f.fs) f.rd f.ra)
    ∧ (∀ (fs : Bank) (rd ra rb : Addr) (s : State), Ready (.fmul fs rd ra rb) s → Pre (.fmul fs rd ra rb) s →
      Completes (.fmul fs rd ra rb) s fun t => t.memRead rd 4 < (s.bank fs).p
        ∧ t.memRead rd 4 * 2 ^ 256 % (s.bank fs).p = s.memRead ra 4 * s.memRead rb 4 % (s.bank fs).p)
    ∧ (∀ (fs : Bank) (rd ra : Addr) (s : State), Ready (.fsqr fs rd ra) s → Pre (.fsqr fs rd ra) s →
        Completes (.fsqr fs rd ra) s fun t => t.memRead rd 4 < (s.bank fs).p
          ∧ t.memRead rd 4 * 2 ^ 256 % (s.bank fs).p = s.memRead ra 4 * s.memRead ra 4 % (s.bank fs).p)
    ∧ (∀ (fs : Bank) (rd ra : Addr) (s : State), Ready (.fredc fs rd ra) s → Pre (.fredc fs rd ra) s →
        Completes (.fredc fs rd ra) s fun t => t.memRead rd 4 < (s.bank fs).p
          ∧ t.memRead rd 4 * 2 ^ 256 % (s.bank fs).p = s.memRead ra 8 % (s.bank fs).p)

/-- FPOW64 and FPOWB write the e-fold product of the base, in Montgomery form (R88, R89). -/
def Obligations.FieldPowerCommandsWriteTheirResults : Prop :=
  OpcodeIs 0x26#8 { rd := true, ra := true, rb := true, fs := true } (fun f => .fpow64 (bankOf f.fs) f.rd f.ra f.rb)
    ∧ OpcodeIs 0x27#8 { rd := true, ra := true, rb := true, fs := true, len := true }
        (fun f => .fpowb (bankOf f.fs) f.rd f.ra f.rb f.len.toNat)
    ∧ (∀ (fs : Bank) (rd ra rb : Addr) (s : State), Ready (.fpow64 fs rd ra rb) s → Pre (.fpow64 fs rd ra rb) s →
      Completes (.fpow64 fs rd ra rb) s fun t => t.memRead rd 4 < (s.bank fs).p
        ∧ t.memRead rd 4 = mont (s.bank fs) (tostd (s.bank fs) (s.memRead ra 4) ^ s.memRead rb 1))
    ∧ (∀ (fs : Bank) (rd ra rb : Addr) (len : Nat) (s : State), Ready (.fpowb fs rd ra rb len) s →
        Pre (.fpowb fs rd ra rb len) s →
        Completes (.fpowb fs rd ra rb len) s fun t => t.memRead rd 4 < (s.bank fs).p
          ∧ t.memRead rd 4 = mont (s.bank fs) (tostd (s.bank fs) (s.memRead ra 4) ^ s.memRead rb len))

/-- FINV and FDIV write the inverse and the quotient (R90, R91). -/
def Obligations.FieldInverseCommandsWriteTheirResults : Prop :=
  OpcodeIs 0x28#8 { rd := true, ra := true, fs := true } (fun f => .finv (bankOf f.fs) f.rd f.ra)
    ∧ OpcodeIs 0x29#8 { rd := true, ra := true, rb := true, fs := true } (fun f => .fdiv (bankOf f.fs) f.rd f.ra f.rb)
    ∧ (∀ (fs : Bank) (rd ra : Addr) (s : State), Ready (.finv fs rd ra) s → Pre (.finv fs rd ra) s →
      Completes (.finv fs rd ra) s fun t => t.memRead rd 4 < (s.bank fs).p
        ∧ fmul (s.bank fs) (s.memRead ra 4) (t.memRead rd 4) = (s.bank fs).one)
    ∧ (∀ (fs : Bank) (rd ra rb : Addr) (s : State), Ready (.fdiv fs rd ra rb) s → Pre (.fdiv fs rd ra rb) s →
        Completes (.fdiv fs rd ra rb) s fun t => t.memRead rd 4 < (s.bank fs).p
          ∧ fmul (s.bank fs) (t.memRead rd 4) (s.memRead rb 4) = s.memRead ra 4)

/-- FISONE and FSETONE compare with and write R1, for any descriptor and any words (R92, R93); `fs` 0 and 1 name FD[0] and
FD[1] (R47). -/
def Obligations.FisoneAndFsetoneUseR1 : Prop :=
  OpcodeIs 0x2A#8 { ra := true, fs := true } (fun f => .fisone (bankOf f.fs) f.ra)
    ∧ OpcodeIs 0x2B#8 { rd := true, fs := true } (fun f => .fsetone (bankOf f.fs) f.rd)
    ∧ (∀ (fs : Bank) (ra : Addr) (s : State), Ready (.fisone fs ra) s →
      Completes (.fisone fs ra) s fun t => (t.t = true ↔ s.memRead ra 4 = quadVal (s.bank fs).R1) ∧ t.buf = s.buf)
    ∧ (∀ s : State, s.bank (bankOf 0#1) = s.fd0 ∧ s.bank (bankOf 1#1) = s.fd1)
    ∧ (∀ (fs : Bank) (rd : Addr) (s : State), Ready (.fsetone fs rd) s →
        Completes (.fsetone fs rd) s fun t => t.memRead rd 4 = quadVal (s.bank fs).R1)

/-- FTOSTD and FFROMSTD convert out of and into Montgomery form (R94, R95). -/
def Obligations.FieldConversionCommandsWriteTheirResults : Prop :=
  OpcodeIs 0x2C#8 { rd := true, ra := true, fs := true } (fun f => .ftostd (bankOf f.fs) f.rd f.ra)
    ∧ OpcodeIs 0x2D#8 { rd := true, ra := true, fs := true } (fun f => .ffromstd (bankOf f.fs) f.rd f.ra)
    ∧ (∀ (fs : Bank) (rd ra : Addr) (s : State), Ready (.ftostd fs rd ra) s → Pre (.ftostd fs rd ra) s →
      Completes (.ftostd fs rd ra) s fun t => t.memRead rd 4 < (s.bank fs).p
        ∧ mont (s.bank fs) (t.memRead rd 4) = s.memRead ra 4)
    ∧ (∀ (fs : Bank) (rd ra : Addr) (s : State), Ready (.ffromstd fs rd ra) s → Pre (.ffromstd fs rd ra) s →
        Completes (.ffromstd fs rd ra) s fun t => t.memRead rd 4 = mont (s.bank fs) (s.memRead ra 4))

/-- Inverting zero or dividing by zero completes without a fault; the destination holds the unspecified value drawn there (the
model's treatment of U3, log 5). -/
def Obligations.InversionOfZeroWritesAnUnspecifiedValue : Prop :=
  (∀ (fs : Bank) (rd ra : Addr) (s : State), Ready (.finv fs rd ra) s → s.memRead ra 4 = 0 →
      ∃ t, exec (.finv fs rd ra) s = .next t ∧ FrameKept (.finv fs rd ra) s t
        ∧ t.memRead rd 4 = freeWords s.freeCount 0 4 ∧ t.freeCount = s.freeCount + 1)
    ∧ (∀ (fs : Bank) (rd ra rb : Addr) (s : State), Ready (.fdiv fs rd ra rb) s → s.memRead rb 4 = 0 →
        ∃ t, exec (.fdiv fs rd ra rb) s = .next t ∧ FrameKept (.fdiv fs rd ra rb) s t
          ∧ t.memRead rd 4 = freeWords s.freeCount 0 4 ∧ t.freeCount = s.freeCount + 1)

/-! ### The affine group: functions -/

/-- R96, R97: a valid point survives its encoding, and only Infinity has the sentinel's. -/
def Obligations.AffineEncodingIsFaithful : Prop :=
  ∀ (F : Desc) (P : Pt), F.WF → P.Valid F →
    decA (encA P) = P ∧ encA P < 2 ^ 512 ∧ (isinf (encA P) = true ↔ P = .inf)

/-- R98: the predicate is the curve equation between the represented values; so the premise of R116, in the form of
`Curve.NoOrderTwo`, says that no finite point of the curve has y = 0 (log 25). -/
def Obligations.OncurveIsTheCurveEquation : Prop :=
  ∀ (C : Curve) (x y : Nat), C.F.WF → quadVal C.cv.A < C.F.p → quadVal C.cv.B < C.F.p → x < C.F.p → y < C.F.p →
    (oncurve C (.fin x y) = true ↔
        tostd C.F y ^ 2 % C.F.p
          = (tostd C.F x ^ 3 + tostd C.F (quadVal C.cv.A) * tostd C.F x + tostd C.F (quadVal C.cv.B)) % C.F.p)
      ∧ (C.NoOrderTwo ↔ ∀ x₀, x₀ < C.F.p → oncurve C (.fin x₀ 0) = false)

/-- R101: identity, inverse, doubling and commutativity of the affine addition. -/
def Obligations.AffineAdditionLaws : Prop :=
  ∀ (C : Curve), C.WF →
    (∀ P, P.Valid C.F → aadd C .inf P = some P ∧ aadd C P .inf = some P ∧ aadd C P P = adbl C P)
      ∧ (∀ x y, x < C.F.p → 0 < y → y < C.F.p → aadd C (.fin x y) (aneg C (.fin x y)) = some .inf)
      ∧ (∀ P Q, P.Valid C.F → Q.Valid C.F → aadd C P Q = aadd C Q P)

/-- Doubling, adding and multiplying points of the curve gives valid points of the curve. -/
def Obligations.AffineOperationsStayOnTheCurve : Prop :=
  ∀ (C : Curve), C.WF →
    (∀ P R, P.Valid C.F → oncurve C P = true → adbl C P = some R → R.Valid C.F ∧ oncurve C R = true)
      ∧ (∀ P Q R, oncurve C P = true → oncurve C Q = true → aadd C P Q = some R → R.Valid C.F ∧ oncurve C R = true)
      ∧ (∀ k nb P R, smul C k nb P = some R → R.Valid C.F ∧ oncurve C R = true)

/-- R102: multiples by 0 and 1, the recurrence of the scan (where a step has no value, neither has the multiple), and the bit
count does not matter. -/
def Obligations.ScalarMultipleBasics : Prop :=
  ∀ (C : Curve) (P : Pt), C.WF → P.Valid C.F → oncurve C P = true →
    (∀ nb, smul C 0 nb P = some .inf) ∧ (∀ nb, 0 < nb → smul C 1 nb P = some P)
      ∧ (∀ k nb, smul C (2 * k) (nb + 1) P = (smul C k nb P).bind (adbl C)
          ∧ smul C (2 * k + 1) (nb + 1) P = ((smul C k nb P).bind (adbl C)).bind (fun Q => aadd C Q P))
      ∧ (∀ k nb nb', k < 2 ^ nb → k < 2 ^ nb' → smul C k nb P = smul C k nb' P)

/-! ### The affine group: commands -/

/-- AISINF and PISINF are predicates of any words (R103, R119). -/
def Obligations.InfinityTestsSetTheFlag : Prop :=
  OpcodeIs 0x30#8 { ra := true } (fun f => .aisinf f.ra)
    ∧ OpcodeIs 0x42#8 { ra := true } (fun f => .pisinf f.ra)
    ∧ (∀ (ra : Addr) (s : State), Ready (.aisinf ra) s →
      Completes (.aisinf ra) s fun t =>
        (t.t = true ↔ ∀ k, k < 8 → s.bufWord (ra.toNat + k) = 0xFFFFFFFFFFFFFFFF#64) ∧ t.buf = s.buf)
    ∧ (∀ (ra : Addr) (s : State), Ready (.pisinf ra) s →
        Completes (.pisinf ra) s fun t =>
          (t.t = true ↔ ∀ k, 8 ≤ k → k < 12 → s.bufWord (ra.toNat + k) = 0#64) ∧ t.buf = s.buf)

/-- AONCRV and AINSUB set T to their predicates (R104, R105; logs 12, 22, 24). -/
def Obligations.CurveTestsSetTheFlag : Prop :=
  OpcodeIs 0x31#8 { ra := true } (fun f => .aoncrv f.ra)
    ∧ OpcodeIs 0x32#8 { ra := true } (fun f => .ainsub f.ra)
    ∧ (∀ (ra : Addr) (s : State), Ready (.aoncrv ra) s → Pre (.aoncrv ra) s →
      Completes (.aoncrv ra) s fun t => t.t = oncurve s.curve (s.readPt ra) ∧ t.buf = s.buf)
    ∧ (∀ (ra : Addr) (s : State), Ready (.ainsub ra) s → Pre (.ainsub ra) s →
        Completes (.ainsub ra) s fun t => t.buf = s.buf
          ∧ (t.t = true ↔ oncurve s.curve (s.readPt ra) = true
              ∧ (s.readPt ra = .inf ∨ smul s.curve (quadVal s.cv.COF) 256 (s.readPt ra) = some .inf)))

/-- ANEG keeps Infinity and x and writes −y mod p (R106). -/
def Obligations.AnegNegatesThePoint : Prop :=
  OpcodeIs 0x33#8 { rd := true, ra := true } (fun f => .aneg f.rd f.ra)
    ∧ (∀ (rd ra : Addr) (s : State), Ready (.aneg rd ra) s → Pre (.aneg rd ra) s →
        Completes (.aneg rd ra) s fun t =>
          (s.readPt ra = .inf → t.memRead rd 8 = 2 ^ 512 - 1)
            ∧ (∀ x y, s.readPt ra = .fin x y → t.memRead rd 8 = x + (s.fd0.p - y) % s.fd0.p * 2 ^ 256))

/-- ADBL and AADD write the encoding of the sum (R107, R108; log 24). -/
def Obligations.AffineAdditionCommandsWriteTheSum : Prop :=
  OpcodeIs 0x34#8 { rd := true, ra := true } (fun f => .adbl f.rd f.ra)
    ∧ OpcodeIs 0x35#8 { rd := true, ra := true, rb := true } (fun f => .aadd f.rd f.ra f.rb)
    ∧ (∀ (rd ra : Addr) (s : State) (R : Pt), Ready (.adbl rd ra) s → s.curve.Specified →
      adbl s.curve (s.readPt ra) = some R → Completes (.adbl rd ra) s fun t => t.memRead rd 8 = encA R)
    ∧ (∀ (rd ra rb : Addr) (s : State) (R : Pt), Ready (.aadd rd ra rb) s → s.curve.Specified →
        aadd s.curve (s.readPt ra) (s.readPt rb) = some R →
        Completes (.aadd rd ra rb) s fun t => t.memRead rd 8 = encA R)

/-- ASMUL64, ASMULB and ASMULF write the encoding of the multiple (R109, R110, R111; logs 22, 24). -/
def Obligations.AffineMultiplicationCommandsWriteTheMultiple : Prop :=
  OpcodeIs 0x36#8 { rd := true, ra := true, rb := true } (fun f => .asmul64 f.rd f.ra f.rb)
    ∧ OpcodeIs 0x37#8 { rd := true, ra := true, rb := true, len := true } (fun f => .asmulb f.rd f.ra f.rb f.len.toNat)
    ∧ OpcodeIs 0x38#8 { rd := true, ra := true, rb := true, fs := true } (fun f => .asmulf (bankOf f.fs) f.rd f.ra f.rb)
    ∧ (∀ (rd ra rb : Addr) (s : State) (R : Pt), Ready (.asmul64 rd ra rb) s → s.WFC →
      smul s.curve (s.memRead rb 1) 64 (s.readPt ra) = some R →
      Completes (.asmul64 rd ra rb) s fun t => t.memRead rd 8 = encA R)
    ∧ (∀ (rd ra rb : Addr) (len : Nat) (s : State) (R : Pt), Ready (.asmulb rd ra rb len) s → s.WFC →
        smul s.curve (s.memRead rb len) (64 * len) (s.readPt ra) = some R →
        Completes (.asmulb rd ra rb len) s fun t => t.memRead rd 8 = encA R)
    ∧ (∀ (fs : Bank) (rd ra rb : Addr) (s : State) (R : Pt), Ready (.asmulf fs rd ra rb) s → s.WFC →
        (s.bank fs).WF → s.memRead rb 4 < (s.bank fs).p →
        smul s.curve (tostd (s.bank fs) (s.memRead rb 4)) 256 (s.readPt ra) = some R →
        Completes (.asmulf fs rd ra rb) s fun t => t.memRead rd 8 = encA R)

/-! ### The projective form -/

/-- R115: PJ-FROM, PJ-DBL, PJ-ADD and PJ-SMUL hold of every choice of ProjImpl, every result is a valid triple, and the
projective ladder gives the affine multiple.  In the model `conform` makes R115 hold by construction, for ProjRef
also without the premise of R116: log 10 (DESIGN CHOICE).  R115 is stated with WFC(C), so a singular curve is not excluded. -/
def Obligations.EveryProjImplRepresentsTheAffineGroup : Prop :=
  ∀ (impl : Config.ProjChoice) (C : Curve), C.WF →
    (∀ P, P.Valid C.F → (pfroma impl C P).Valid C.F ∧ rep C (pfroma impl C P) = P)
      ∧ (∀ t, t.Valid C.F → (pdbl impl C t).Valid C.F
          ∧ ∀ R, oncurve C (rep C t) = true → adbl C (rep C t) = some R → rep C (pdbl impl C t) = R)
      ∧ (∀ t u, t.Valid C.F → u.Valid C.F → (padd impl C t u).Valid C.F
          ∧ ∀ R, oncurve C (rep C t) = true → oncurve C (rep C u) = true → aadd C (rep C t) (rep C u) = some R →
            rep C (padd impl C t u) = R)
      ∧ (∀ k nb t, k < 2 ^ nb → t.Valid C.F → (psmul impl C k nb t).Valid C.F
          ∧ ∀ R, smul C k nb (rep C t) = some R → rep C (psmul impl C k nb t) = R)
      ∧ (∀ k nb P R, k < 2 ^ nb → P.Valid C.F → smul C k nb P = some R →
          rep C (psmul impl C k nb (pfroma impl C P)) = R)

/-- PFROMA and PTOA convert between the forms: the triple written represents the point read, and the point written is the one
the triple read represents (R117, R118; logs 11, 24). -/
def Obligations.ConversionCommandsKeepThePoint : Prop :=
  OpcodeIs 0x40#8 { rd := true, ra := true } (fun f => .pfroma f.rd f.ra)
    ∧ OpcodeIs 0x41#8 { rd := true, ra := true } (fun f => .ptoa f.rd f.ra)
    ∧ (∀ (rd ra : Addr) (s : State), Ready (.pfroma rd ra) s → Pre (.pfroma rd ra) s →
      Completes (.pfroma rd ra) s fun t =>
        (t.readTriple rd).Valid s.fd0 ∧ rep s.curve (t.readTriple rd) = s.readPt ra)
    ∧ (∀ (rd ra : Addr) (s : State), Ready (.ptoa rd ra) s → Pre (.ptoa rd ra) s →
        Completes (.ptoa rd ra) s fun t =>
          t.memRead rd 8 = encA (rep s.curve (s.readTriple ra)) ∧ t.readPt rd = rep s.curve (s.readTriple ra))

/-- PDBL, PADD, PSMUL64, PSMULB and PSMULF write a valid triple that represents the affine result (R120 to R124; log 24). -/
def Obligations.ProjectiveCommandsRepresentTheAffineResult : Prop :=
  OpcodeIs 0x43#8 { rd := true, ra := true } (fun f => .pdbl f.rd f.ra)
    ∧ OpcodeIs 0x44#8 { rd := true, ra := true, rb := true } (fun f => .padd f.rd f.ra f.rb)
    ∧ OpcodeIs 0x45#8 { rd := true, ra := true, rb := true } (fun f => .psmul64 f.rd f.ra f.rb)
    ∧ OpcodeIs 0x46#8 { rd := true, ra := true, rb := true, len := true } (fun f => .psmulb f.rd f.ra f.rb f.len.toNat)
    ∧ OpcodeIs 0x47#8 { rd := true, ra := true, rb := true, fs := true } (fun f => .psmulf (bankOf f.fs) f.rd f.ra f.rb)
    ∧ (∀ (rd ra : Addr) (s : State) (R : Pt), Ready (.pdbl rd ra) s → s.WFC → (s.readTriple ra).Valid s.fd0 →
      oncurve s.curve (rep s.curve (s.readTriple ra)) = true → adbl s.curve (rep s.curve (s.readTriple ra)) = some R →
      Completes (.pdbl rd ra) s fun t => (t.readTriple rd).Valid s.fd0 ∧ rep s.curve (t.readTriple rd) = R)
    ∧ (∀ (rd ra rb : Addr) (s : State) (R : Pt), Ready (.padd rd ra rb) s → s.WFC →
        (s.readTriple ra).Valid s.fd0 → (s.readTriple rb).Valid s.fd0 →
        oncurve s.curve (rep s.curve (s.readTriple ra)) = true →
        oncurve s.curve (rep s.curve (s.readTriple rb)) = true →
        aadd s.curve (rep s.curve (s.readTriple ra)) (rep s.curve (s.readTriple rb)) = some R →
        Completes (.padd rd ra rb) s fun t => (t.readTriple rd).Valid s.fd0 ∧ rep s.curve (t.readTriple rd) = R)
    ∧ (∀ (rd ra rb : Addr) (s : State) (R : Pt), Ready (.psmul64 rd ra rb) s → s.WFC →
        (s.readTriple ra).Valid s.fd0 → smul s.curve (s.memRead rb 1) 64 (rep s.curve (s.readTriple ra)) = some R →
        Completes (.psmul64 rd ra rb) s fun t => (t.readTriple rd).Valid s.fd0 ∧ rep s.curve (t.readTriple rd) = R)
    ∧ (∀ (rd ra rb : Addr) (len : Nat) (s : State) (R : Pt), Ready (.psmulb rd ra rb len) s → s.WFC →
        (s.readTriple ra).Valid s.fd0 →
        smul s.curve (s.memRead rb len) (64 * len) (rep s.curve (s.readTriple ra)) = some R →
        Completes (.psmulb rd ra rb len) s fun t => (t.readTriple rd).Valid s.fd0 ∧ rep s.curve (t.readTriple rd) = R)
    ∧ (∀ (fs : Bank) (rd ra rb : Addr) (s : State) (R : Pt), Ready (.psmulf fs rd ra rb) s → s.WFC →
        (s.bank fs).WF → s.memRead rb 4 < (s.bank fs).p → (s.readTriple ra).Valid s.fd0 →
        smul s.curve (tostd (s.bank fs) (s.memRead rb 4)) 256 (rep s.curve (s.readTriple ra)) = some R →
        Completes (.psmulf fs rd ra rb) s fun t => (t.readTriple rd).Valid s.fd0 ∧ rep s.curve (t.readTriple rd) = R)

/-- Whatever point a valid triple represents, PDBL, PADD, PSMUL64, PSMULB and PSMULF write a valid triple (R115, U7; log 24). -/
def Obligations.ProjectiveCommandsWriteValidTriples : Prop :=
  (∀ (rd ra : Addr) (s : State), Ready (.pdbl rd ra) s → s.WFC → (s.readTriple ra).Valid s.fd0 →
      Completes (.pdbl rd ra) s fun t => (t.readTriple rd).Valid s.fd0)
    ∧ (∀ (rd ra rb : Addr) (s : State), Ready (.padd rd ra rb) s → s.WFC → (s.readTriple ra).Valid s.fd0 →
        (s.readTriple rb).Valid s.fd0 →
        Completes (.padd rd ra rb) s fun t => (t.readTriple rd).Valid s.fd0)
    ∧ (∀ (rd ra rb : Addr) (s : State), Ready (.psmul64 rd ra rb) s → s.WFC → (s.readTriple ra).Valid s.fd0 →
        Completes (.psmul64 rd ra rb) s fun t => (t.readTriple rd).Valid s.fd0)
    ∧ (∀ (rd ra rb : Addr) (len : Nat) (s : State), Ready (.psmulb rd ra rb len) s → s.WFC →
        (s.readTriple ra).Valid s.fd0 →
        Completes (.psmulb rd ra rb len) s fun t => (t.readTriple rd).Valid s.fd0)
    ∧ (∀ (fs : Bank) (rd ra rb : Addr) (s : State), Ready (.psmulf fs rd ra rb) s → s.WFC → (s.bank fs).WF →
        s.memRead rb 4 < (s.bank fs).p → (s.readTriple ra).Valid s.fd0 →
        Completes (.psmulf fs rd ra rb) s fun t => (t.readTriple rd).Valid s.fd0)

/-! ### What doubling and adding compute, and what a violated precondition does -/

/-- R100 and R101 on the represented values: the slope is the tangent's or the chord's, and the result is the third point of
that line, negated; a doubling at y = 0 and a sum in no case of R101 have no value. -/
def Obligations.AffineFormulasOnRepresentedValues : Prop :=
  ∀ (C : Curve), C.WF →
    (adbl C .inf = some .inf
      ∧ (∀ x y, x < C.F.p → 0 < y → y < C.F.p →
          ∃ (x' y' : Nat) (m : Int), adbl C (.fin x y) = some (.fin x' y') ∧ x' < C.F.p ∧ y' < C.F.p
            ∧ (2 * val C.F y * m - (3 * val C.F x ^ 2 + val C.F (quadVal C.cv.A))) % C.F.p = 0
            ∧ ThirdPoint C.F m x y x x' y')
      ∧ (∀ x y, ¬(x < C.F.p ∧ 0 < y ∧ y < C.F.p) → adbl C (.fin x y) = none))
      ∧ (∀ xP yP xQ yQ, xP < C.F.p → yP < C.F.p → xQ < C.F.p → yQ < C.F.p → xP ≠ xQ →
          ∃ (x' y' : Nat) (m : Int), aadd C (.fin xP yP) (.fin xQ yQ) = some (.fin x' y') ∧ x' < C.F.p ∧ y' < C.F.p
            ∧ (m * (val C.F xQ - val C.F xP) - (val C.F yQ - val C.F yP)) % C.F.p = 0
            ∧ ThirdPoint C.F m xP yP xQ x' y')
      ∧ (∀ x yP yQ, yP ≠ yQ → yP ≠ fneg C.F yQ → aadd C (.fin x yP) (.fin x yQ) = none)

/-- A violated precondition (for the projective operations: of the tables, the triples or the scalar) makes a command complete
with the next drawn unspecified values in exactly its destination words, or in T (R11; the form of the values is the model's,
log 5).  A singular curve violates the precondition of every command that has WFC(C) (U11; log 24, DEDUCED).  That PFROMA, PTOA and AONCRV need WFC(C) whole, and that ANEG frees the x
words too, are the model's readings against R117, R118, R104 and R106: logs 11, 12 and 21 (DEDUCED); the premise of R116 is part
of WFC(C) for AINSUB, ASMUL*, PDBL, PADD and PSMUL* in a unit with ProjRef: log 25 (DEDUCED). -/
def Obligations.ViolatedPreconditionsWriteUnspecifiedValues : Prop :=
  ∀ (i : Instr) (s : State), i ≠ .halt → Ready i s → ¬ PreChecked i s →
    ∃ t, exec i s = .next t ∧ FrameKept i s t ∧ t.freeCount = s.freeCount + 1
      ∧ (∀ rd k, destOf i = some (rd, k) → t.memRead rd k = freeWords s.freeCount 0 k)
      ∧ (writesT i = true → t.t = Config.freeBit s.freeCount)
end

