-- ==== Sys2Proof/Laws/Primes.lean ====
section
/-! SUPPORT. Exact primality (R25; log 7): powers by square and multiply, the search for a divisor, Lucas certificates for the
moduli of the spec's vectors, and `isPrime_iff`. -/

set_option Elab.async false

namespace Sys2Proof.Machine

theorem powMod_eq (n bits a e : Nat) (h : e < 2 ^ bits) : powMod n bits a e = a ^ e % n := by
  induction bits generalizing a e with
  | zero =>
    have : e = 0 := by omega
    simp [powMod, this]
  | succ bits ih =>
    by_cases h0 : e = 0
    · simp [powMod, h0]
    · have hh : e / 2 < 2 ^ bits := by
        rw [Nat.pow_succ] at h
        omega
      have hsq : powMod n bits (a * a % n) (e / 2) = a ^ (2 * (e / 2)) % n := by
        rw [ih _ _ hh, ← Nat.pow_mod, ← sq, ← Nat.pow_mul]
      rw [powMod, if_neg h0]
      simp only [hsq]
      by_cases h1 : e % 2 = 1
      · rw [if_pos h1, Nat.mul_mod, Nat.mod_mod, ← Nat.mul_mod, ← Nat.pow_succ', show (2 * (e / 2)).succ = e by omega]
      · rw [if_neg h1, show 2 * (e / 2) = e by omega]

/-- The search finds a divisor exactly when there is one in its range. -/
theorem noDivisorFrom_iff (n fuel d : Nat) :
    noDivisorFrom n fuel d = true ↔ ∀ k, d ≤ k → k < d + fuel → k * k ≤ n → ¬ k ∣ n := by
  induction fuel generalizing d with
  | zero => exact ⟨fun _ k h1 h2 => by omega, fun _ => rfl⟩
  | succ fuel ih =>
    simp only [noDivisorFrom, Bool.or_eq_true, Bool.and_eq_true, decide_eq_true_iff, ih]
    constructor
    · rintro (h | ⟨h, hr⟩) k h1 h2 h3 hk
      · exact absurd (Nat.mul_le_mul h1 h1) (by omega)
      · rcases Nat.eq_or_lt_of_le h1 with rfl | h4
        · exact h (Nat.mod_eq_zero_of_dvd hk)
        · exact hr k h4 (by omega) h3 hk
    · intro h
      by_cases hd : n < d * d
      · exact .inl hd
      · exact .inr ⟨fun hm => h d le_rfl (by omega) (by omega) (Nat.dvd_of_mod_eq_zero hm),
          fun k h1 h2 => h k (by omega) (by omega)⟩

/-- The whole search decides primality. -/
theorem noDivisorFrom_two_iff {n : Nat} (h : 2 ≤ n) : noDivisorFrom n n 2 = true ↔ Nat.Prime n := by
  rw [noDivisorFrom_iff, Nat.prime_def_le_sqrt]
  constructor
  · intro hd
    refine ⟨h, fun m h2 hm => hd m h2 ?_ (Nat.le_sqrt.mp hm)⟩
    have := Nat.sqrt_le_self n
    omega
  · rintro ⟨-, hd⟩ k h2 - hk
    exact hd k h2 (Nat.le_sqrt.mpr hk)

/-- A Lucas certificate: `a` has order n − 1 modulo `n`, where n − 1 is the product of powers of primes found by search
(`small`) and of primes already proved (`large`). -/
def lucasCheck (n a : Nat) (small : List (Nat × Nat)) (large : List {q : Nat // Nat.Prime q}) : Bool :=
  decide (2 ≤ n ∧ n ≤ 2 ^ 256) && decide ((small.map fun q => q.1 ^ q.2).prod * (large.map (·.1)).prod = n - 1)
    && small.all (fun q => decide (2 ≤ q.1) && noDivisorFrom q.1 q.1 2) && decide (powMod n 256 a (n - 1) = 1)
    && (small.map (·.1) ++ large.map (·.1)).all fun q => decide (powMod n 256 a ((n - 1) / q) ≠ 1)

theorem prime_of_lucas {n : Nat} (a : Nat) (small : List (Nat × Nat)) (large : List {q : Nat // Nat.Prime q})
    (h : lucasCheck n a small large = true) : Nat.Prime n := by
  simp only [lucasCheck, Bool.and_eq_true, decide_eq_true_iff, List.all_eq_true] at h
  obtain ⟨⟨⟨⟨⟨hn2, hn⟩, hprod⟩, hsmall⟩, hone⟩, hne⟩ := h
  have pow_eq (e : Nat) (he : e ≤ n - 1) : (a : ZMod n) ^ e = ((powMod n 256 a e : Nat) : ZMod n) := by
    rw [powMod_eq n 256 a e (by omega), ZMod.natCast_mod, Nat.cast_pow]
  refine lucas_primality n a (by rw [pow_eq _ le_rfl, hone, Nat.cast_one]) fun q hq hdvd => ?_
  rw [pow_eq _ (Nat.div_le_self _ _)]
  have hmem : q ∈ small.map (·.1) ++ large.map (·.1) := by
    rw [← hprod, hq.dvd_mul, hq.prime.dvd_prod_iff, hq.prime.dvd_prod_iff] at hdvd
    rw [List.mem_append]
    rcases hdvd with ⟨x, hx, hd⟩ | ⟨x, hx, hd⟩
    · obtain ⟨y, hy, rfl⟩ := List.mem_map.mp hx
      have hp : Nat.Prime y.1 := (noDivisorFrom_two_iff (hsmall y hy).1).mp (hsmall y hy).2
      exact .inl (List.mem_map.mpr ⟨y, hy, ((Nat.prime_dvd_prime_iff_eq hq hp).mp (hq.dvd_of_dvd_pow hd)).symm⟩)
    · obtain ⟨y, hy, rfl⟩ := List.mem_map.mp hx
      exact .inr (List.mem_map.mpr ⟨y, hy, ((Nat.prime_dvd_prime_iff_eq hq y.2).mp hd).symm⟩)
  intro heq
  have hlt : powMod n 256 a ((n - 1) / q) < n := by
    rw [powMod_eq n 256 a _ ((Nat.div_le_self _ _).trans_lt (by omega))]
    exact Nat.mod_lt _ (by omega)
  refine hne q hmem ?_
  have hmod : powMod n 256 a ((n - 1) / q) ≡ 1 [MOD n] :=
    (ZMod.natCast_eq_natCast_iff _ _ _).mp (heq.trans Nat.cast_one.symm)
  rwa [Nat.ModEq, Nat.mod_eq_of_lt hlt, Nat.mod_eq_of_lt (by omega)] at hmod

theorem prime_1263766531 : Nat.Prime 1263766531 :=
  prime_of_lucas 10 [(2, 1), (3, 1), (5, 1), (13, 1), (911, 1), (3557, 1)]
    [] (by decide +kernel)

theorem prime_35385462869 : Nat.Prime 35385462869 :=
  prime_of_lucas 2 [(2, 2), (7, 1)]
    [⟨_, prime_1263766531⟩] (by decide +kernel)

theorem prime_2480874801745591 : Nat.Prime 2480874801745591 :=
  prime_of_lucas 6 [(2, 1), (3, 2), (5, 1), (19, 1), (41, 1)]
    [⟨_, prime_35385462869⟩] (by decide +kernel)

theorem prime_173171039 : Nat.Prime 173171039 :=
  prime_of_lucas 13 [(2, 1), (73, 1), (89, 1), (13327, 1)]
    [] (by decide +kernel)

theorem prime_13427688667394608761327070753331941386769 : Nat.Prime 13427688667394608761327070753331941386769 :=
  prime_of_lucas 17 [(2, 4), (3, 1), (7, 1), (11, 1), (1853641, 1), (4562087, 1)]
    [⟨_, prime_173171039⟩, ⟨_, prime_2480874801745591⟩] (by decide +kernel)

theorem prime_11465965001 : Nat.Prime 11465965001 :=
  prime_of_lucas 3 [(2, 3), (5, 4), (7, 1), (327599, 1)]
    [] (by decide +kernel)

theorem prime_405928799 : Nat.Prime 405928799 :=
  prime_of_lucas 22 [(2, 1), (11, 1), (3691, 1), (4999, 1)]
    [] (by decide +kernel)

theorem prime_bn254_p : Nat.Prime 21888242871839275222246405745257275088696311157297823662689037894645226208583 :=
  prime_of_lucas 3 [(2, 1), (3, 2), (13, 1), (29, 1), (67, 1), (229, 1), (311, 1), (983, 1), (11003, 1)]
    [⟨_, prime_405928799⟩, ⟨_, prime_11465965001⟩, ⟨_, prime_13427688667394608761327070753331941386769⟩] (by decide +kernel)

theorem prime_639533339 : Nat.Prime 639533339 :=
  prime_of_lucas 2 [(2, 1), (229, 1), (853, 1), (1637, 1)]
    [] (by decide +kernel)

theorem prime_65865678001877903 : Nat.Prime 65865678001877903 :=
  prime_of_lucas 5 [(2, 1), (83, 1), (379, 1), (1637, 1)]
    [⟨_, prime_639533339⟩] (by decide +kernel)

theorem prime_13818364434197438864469338081 : Nat.Prime 13818364434197438864469338081 :=
  prime_of_lucas 3 [(2, 5), (5, 1), (823, 1), (1593227, 1)]
    [⟨_, prime_65865678001877903⟩] (by decide +kernel)

theorem prime_12048837557 : Nat.Prime 12048837557 :=
  prime_of_lucas 2 [(2, 2), (7, 2), (661, 1), (93001, 1)]
    [] (by decide +kernel)

theorem prime_5156902474397 : Nat.Prime 5156902474397 :=
  prime_of_lucas 2 [(2, 2), (107, 1)]
    [⟨_, prime_12048837557⟩] (by decide +kernel)

theorem prime_1670836401704629 : Nat.Prime 1670836401704629 :=
  prime_of_lucas 2 [(2, 2), (3, 4)]
    [⟨_, prime_5156902474397⟩] (by decide +kernel)

theorem prime_bn254_r : Nat.Prime 21888242871839275222246405745257275088548364400416034343698204186575808495617 :=
  prime_of_lucas 5 [(2, 28), (3, 2), (13, 1), (29, 1), (983, 1), (11003, 1), (237073, 1)]
    [⟨_, prime_405928799⟩, ⟨_, prime_1670836401704629⟩, ⟨_, prime_13818364434197438864469338081⟩] (by decide +kernel)

theorem prime_235250327063489 : Nat.Prime 235250327063489 :=
  prime_of_lucas 3 [(2, 6), (11, 1), (78797, 1), (4240801, 1)]
    [] (by decide +kernel)

theorem prime_53499317 : Nat.Prime 53499317 :=
  prime_of_lucas 2 [(2, 2), (13, 2), (29, 1), (2729, 1)]
    [] (by decide +kernel)

theorem prime_97387603 : Nat.Prime 97387603 :=
  prime_of_lucas 2 [(2, 1), (3, 1), (13, 2), (96043, 1)]
    [] (by decide +kernel)

theorem prime_584325619 : Nat.Prime 584325619 :=
  prime_of_lucas 3 [(2, 1), (3, 1)]
    [⟨_, prime_97387603⟩] (by decide +kernel)

theorem prime_187566129132613339 : Nat.Prime 187566129132613339 :=
  prime_of_lucas 2 [(2, 1), (3, 1)]
    [⟨_, prime_53499317⟩, ⟨_, prime_584325619⟩] (by decide +kernel)

theorem prime_162511420735337114403059 : Nat.Prime 162511420735337114403059 :=
  prime_of_lucas 2 [(2, 1), (17, 2), (1499, 1)]
    [⟨_, prime_187566129132613339⟩] (by decide +kernel)

theorem prime_119070461 : Nat.Prime 119070461 :=
  prime_of_lucas 2 [(2, 2), (5, 1), (5953523, 1)]
    [] (by decide +kernel)

theorem prime_2381409221 : Nat.Prime 2381409221 :=
  prime_of_lucas 3 [(2, 2), (5, 1)]
    [⟨_, prime_119070461⟩] (by decide +kernel)

theorem prime_311004029459619177985044265791795672732388452026537 : Nat.Prime 311004029459619177985044265791795672732388452026537 :=
  prime_of_lucas 3 [(2, 3), (7, 1), (61, 1)]
    [⟨_, prime_2381409221⟩, ⟨_, prime_235250327063489⟩, ⟨_, prime_162511420735337114403059⟩] (by decide +kernel)

theorem prime_13889231063 : Nat.Prime 13889231063 :=
  prime_of_lucas 5 [(2, 1), (7, 1), (881, 1), (1126093, 1)]
    [] (by decide +kernel)

theorem prime_36139168099759229 : Nat.Prime 36139168099759229 :=
  prime_of_lucas 2 [(2, 2), (7, 1), (92927, 1)]
    [⟨_, prime_13889231063⟩] (by decide +kernel)

theorem prime_wide : Nat.Prime 57896044618658097711785492504343953926634992332820282019728792003956564820063 :=
  prime_of_lucas 37 [(2, 1), (3, 1), (977, 1), (878737, 1)]
    [⟨_, prime_36139168099759229⟩, ⟨_, prime_311004029459619177985044265791795672732388452026537⟩] (by decide +kernel)

theorem provenPrimes_prime : ∀ n ∈ provenPrimes, Nat.Prime n := by
  simp only [provenPrimes, List.forall_mem_cons]
  exact ⟨prime_bn254_p, prime_bn254_r, prime_wide, by simp⟩

/-- `isPrime` is primality. -/
@[simp] theorem isPrime_iff {n : Nat} : isPrime n = true ↔ Nat.Prime n := by
  simp only [isPrime, Bool.and_eq_true, Bool.or_eq_true, decide_eq_true_iff, List.contains_iff_mem]
  constructor
  · rintro ⟨h, hm | hd⟩
    · exact provenPrimes_prime n hm
    · exact (noDivisorFrom_two_iff h).mp hd
  · exact fun h => ⟨h.two_le, .inr ((noDivisorFrom_two_iff h.two_le).mpr h)⟩

end Sys2Proof.Machine
end

