-- ==== Sys2Proof/Laws/Descriptor.lean ====
section
/-! SUPPORT. The executable checks of the parameter tables hold exactly of the tables that are well-formed in the sense of the
rules (R25, R27; log 7). -/

set_option Elab.async false

namespace Sys2Proof.Machine

theorem quadVal_lt (q : Quad) : quadVal q < 2 ^ 256 := by
  have h0 := q.w0.isLt
  have h1 := q.w1.isLt
  have h2 := q.w2.isLt
  have h3 := q.w3.isLt
  unfold quadVal
  norm_num at *
  omega

/-- The executable check is WF(F) of R25. -/
@[simp] theorem Desc.wfCheck_iff {F : Desc} : F.wfCheck = true ↔ F.WF := by
  simp only [Desc.wfCheck, Bool.and_eq_true, decide_eq_true_iff, isPrime_iff]
  constructor
  · rintro ⟨⟨⟨⟨⟨⟨⟨⟨h1, h2⟩, h3⟩, h4⟩, h5⟩, h6⟩, h7⟩, h8⟩, h9⟩
    exact ⟨h9, h2, h1, h3, h4, h5, h6, h7, h8⟩
  · rintro ⟨h9, h2, h1, h3, h4, h5, h6, h7, h8⟩
    exact ⟨⟨⟨⟨⟨⟨⟨⟨h1, h2⟩, h3⟩, h4⟩, h5⟩, h6⟩, h7⟩, h8⟩, h9⟩

@[simp] theorem Desc.reduced_eq_true {F : Desc} {a : Nat} : F.reduced a = true ↔ a < F.p := decide_eq_true_iff

@[simp] theorem Pt.valid_eq_true {F : Desc} {P : Pt} : P.valid F = true ↔ P.Valid F := by
  cases P <;> simp [Pt.valid, Pt.Valid]

@[simp] theorem Triple.valid_eq_true {F : Desc} {t : Triple} : t.valid F = true ↔ t.Valid F := by
  simp [Triple.valid, Triple.Valid, and_assoc]

/-- The executable check is WFC(C) of R27. -/
@[simp] theorem Curve.wfCheck_iff {C : Curve} : C.wfCheck = true ↔ C.WF := by
  simp only [Curve.wfCheck, Bool.and_eq_true, Desc.wfCheck_iff, Desc.reduced_eq_true, decide_eq_true_eq]
  constructor
  · rintro ⟨⟨⟨⟨⟨⟨⟨h1, h2⟩, h3⟩, h4⟩, h5⟩, h6⟩, h7⟩, h8⟩
    exact ⟨h1, h2, h3, h4, h5, h6, h7, h8⟩
  · rintro ⟨h1, h2, h3, h4, h5, h6, h7, h8⟩
    exact ⟨⟨⟨⟨⟨⟨⟨h1, h2⟩, h3⟩, h4⟩, h5⟩, h6⟩, h7⟩, h8⟩

@[simp] theorem Curve.nonsingularCheck_iff {C : Curve} : C.nonsingularCheck = true ↔ C.Nonsingular := decide_eq_true_iff

/-- The executable check is the precondition of the commands that have WFC(C) (R27, U11). -/
@[simp] theorem Curve.specifiedCheck_iff {C : Curve} : C.specifiedCheck = true ↔ C.Specified := by
  rw [Curve.specifiedCheck, Bool.and_eq_true, Curve.wfCheck_iff, Curve.nonsingularCheck_iff]
  exact ⟨fun h => ⟨h.1, h.2⟩, fun h => ⟨h.wf, h.nonsingular⟩⟩

/-- The spec's form of the checks of R55 (`Ready`) is what `framingFault` tests. -/
theorem framingFault_of_ready {i : Instr} {s : State} (h : Ready i s) : framingFault i s = none := by
  have h2 : (operandsOf i).all operandFits = true := by
    rw [List.all_eq_true]
    intro o ho
    have := h.2 o ho
    rw [operandFits, Bool.or_eq_true, decide_eq_true_iff, decide_eq_true_iff]
    exact this
  simp [framingFault, h.1, h2]

end Sys2Proof.Machine
end

