-- ==== Sys2Proof/Laws/Cubic.lean ====
section
/-! SUPPORT. The check of the premise of R116 is exact (log 25): X³ + aX + b has no root modulo a prime p exactly when X^p − X is
a unit modulo it. -/

set_option Elab.async false

namespace Sys2Proof.Machine

section Value

variable {A : Type*} [CommRing A]

/-- The value of a residue at an element of a ring. -/
def cubicVal (x : A) (u : CubicResidue) : A := u.c0 + u.c1 * x + u.c2 * x ^ 2

theorem intCast_emod {p : Nat} (hp : (p : A) = 0) (n : Int) : ((n % p : Int) : A) = n := by
  rw [Int.emod_def]
  push_cast
  rw [hp]
  ring

variable {p : Nat} {s t : Int} {x : A}

/-- At a root of the cubic, in characteristic p, the value of a product is the product of the values. -/
theorem cubicVal_mul (hp : (p : A) = 0) (hx : x ^ 3 = s * x + t) (u v : CubicResidue) :
    cubicVal x (cubicMul p s t u v) = cubicVal x u * cubicVal x v := by
  simp only [cubicVal, cubicMul, intCast_emod hp]
  push_cast
  linear_combination (-((u.c1 : A) * v.c2 + u.c2 * v.c1) - u.c2 * v.c2 * x) * hx

theorem cubicVal_pow (hp : (p : A) = 0) (hx : x ^ 3 = s * x + t) (bits : Nat) (u : CubicResidue) (e : Nat) (he : e < 2 ^ bits) :
    cubicVal x (cubicPow p s t bits u e) = cubicVal x u ^ e := by
  induction bits generalizing u e with
  | zero =>
    obtain rfl : e = 0 := by omega
    simp [cubicPow, cubicVal]
  | succ bits ih =>
    by_cases h0 : e = 0
    · simp [cubicPow, cubicVal, h0]
    · have hh : e / 2 < 2 ^ bits := by
        rw [Nat.pow_succ] at he
        omega
      rw [cubicPow, if_neg h0]
      by_cases h1 : e % 2 = 1
      · rw [if_pos h1, cubicVal_mul hp hx, ih _ _ hh, cubicVal_mul hp hx, ← pow_two, ← pow_mul, ← pow_succ',
          show 2 * (e / 2) + 1 = e by omega]
      · rw [if_neg h1, ih _ _ hh, cubicVal_mul hp hx, ← pow_two, ← pow_mul, show 2 * (e / 2) = e by omega]

/-- The norm is a multiple of the value. -/
theorem cubicNorm_dvd (hx : x ^ 3 = s * x + t) (u : CubicResidue) : cubicVal x u ∣ (cubicNorm s t u : A) := by
  let e : A := u.c0 + s * u.c2
  let f : A := t * u.c2 + s * u.c1
  let k1 : A := -(u.c1 * e - u.c2 * f)
  let k2 : A := u.c1 * u.c1 - u.c2 * e
  refine ⟨e * e - u.c1 * f + k1 * x + k2 * x ^ 2, ?_⟩
  simp only [cubicVal, cubicNorm, k1, k2, e, f]
  push_cast
  linear_combination (-((u.c1 : A) * (u.c1 * u.c1 - u.c2 * (u.c0 + s * u.c2))
    - u.c2 * (u.c1 * (u.c0 + s * u.c2) - u.c2 * (t * u.c2 + s * u.c1)))
    - u.c2 * (u.c1 * u.c1 - u.c2 * (u.c0 + s * u.c2)) * x) * hx

end Value

/-- The matrix of the multiplication by a residue, modulo p. -/
def cubicMatrix (p : Nat) (s t : Int) (u : CubicResidue) : Matrix (Fin 3) (Fin 3) (ZMod p) :=
  !![(u.c0 : ZMod p), t * u.c2, t * u.c1; u.c1, u.c0 + s * u.c2, t * u.c2 + s * u.c1; u.c2, u.c1, u.c0 + s * u.c2]

theorem cubicNorm_eq_det (p : Nat) (s t : Int) (u : CubicResidue) :
    ((cubicNorm s t u : Int) : ZMod p) = (cubicMatrix p s t u).det := by
  simp only [cubicMatrix, cubicNorm, Matrix.det_fin_three, Matrix.of_apply, Matrix.cons_val', Matrix.cons_val]
  push_cast
  ring

theorem cubicNorm_mul {p : Nat} (s t : Int) (u v : CubicResidue) :
    ((cubicNorm s t (cubicMul p s t u v) : Int) : ZMod p) = cubicNorm s t u * cubicNorm s t v := by
  rw [cubicNorm_eq_det, cubicNorm_eq_det, cubicNorm_eq_det, ← Matrix.det_mul]
  congr 1
  ext i j
  fin_cases i <;> fin_cases j <;>
    (simp [cubicMatrix, cubicMul, Matrix.mul_apply, Fin.sum_univ_three]; ring)

open Polynomial in
theorem coeffs_of_quadratic_eq_zero {R : Type*} [CommRing R] {c0 c1 c2 : R} (h : C c0 + C c1 * X + C c2 * X ^ 2 = 0) :
    c0 = 0 ∧ c1 = 0 ∧ c2 = 0 := by
  refine ⟨?_, ?_, ?_⟩
  · simpa using congrArg (coeff · 0) h
  · simpa [coeff_C] using congrArg (coeff · 1) h
  · simpa [coeff_C, coeff_X] using congrArg (coeff · 2) h

open Polynomial in
/-- If the cubic has no root modulo p, there is a residue whose product with X^p − X is 1. -/
theorem exists_inverse_of_no_root {p : Nat} [Fact p.Prime] {s t : Int} (h : CubicResidue)
    (hval : ∀ (A : Type) [CommRing A] (x : A), (p : A) = 0 → x ^ 3 = s * x + t → cubicVal x h = x ^ p - x)
    (hroot : ∀ r : ZMod p, r ^ 3 ≠ s * r + t) : ∃ w, (cubicNorm s t (cubicMul p s t h w) : ZMod p) = 1 := by
  let g : (ZMod p)[X] := C (s : ZMod p) * X + C (t : ZMod p)
  let f : (ZMod p)[X] := X ^ 3 - g
  have hg : g.degree < 3 := degree_linear_le.trans_lt (by decide)
  have hmon : f.Monic := monic_X_pow_sub hg
  have hdeg : f.degree = 3 := by
    rw [degree_sub_eq_left_of_degree_lt (by rw [degree_X_pow]; exact hg), degree_X_pow]; rfl
  -- f has no linear factor, and X^p − X is a product of linear factors
  have hcop : IsCoprime f (X ^ p - X) := by
    have hprod : (∏ a : ZMod p, (X - C a)) = X ^ p - X := by
      have hp1 := (Fact.out : p.Prime).one_lt
      have hroots : (X ^ p - X : (ZMod p)[X]).roots = Finset.univ.val := by
        have := FiniteField.roots_X_pow_card_sub_X (ZMod p)
        rwa [ZMod.card] at this
      have hm : (X ^ p - X : (ZMod p)[X]).Monic := by
        refine monic_X_pow_sub (n := p) ?_
        rw [degree_X]
        exact_mod_cast hp1
      have h := prod_multiset_X_sub_C_of_monic_of_roots_card_eq hm (by
        rw [hroots, FiniteField.X_pow_card_sub_X_natDegree_eq _ hp1, Finset.card_val, Finset.card_univ, ZMod.card])
      rwa [hroots] at h
    rw [← hprod]
    refine IsCoprime.prod_right fun a _ => ((irreducible_X_sub_C a).coprime_iff_not_dvd.mpr fun hd => ?_).symm
    refine hroot a ?_
    have := (dvd_iff_isRoot.mp hd).eq_zero
    simpa [f, g, sub_eq_zero] using this
  -- in the ring of residues
  let K := AdjoinRoot f
  let x : K := AdjoinRoot.root f
  have hpK : ((p : Nat) : K) = 0 := by
    rw [← map_natCast (AdjoinRoot.of f), ZMod.natCast_self, map_zero]
  have hx : x ^ 3 = (s : K) * x + t := by
    have := AdjoinRoot.mk_self (f := f)
    simpa [f, g, sub_eq_zero] using this
  have val_mk (u : CubicResidue) :
      cubicVal x u = AdjoinRoot.mk f (C (u.c0 : ZMod p) + C (u.c1 : ZMod p) * X + C (u.c2 : ZMod p) * X ^ 2) := by
    simp [cubicVal, x]
  obtain ⟨a, v, hav⟩ := hcop
  have hv : AdjoinRoot.mk f v * (x ^ p - x) = 1 := by
    have := congrArg (AdjoinRoot.mk f) hav
    simpa [x] using this
  let w := v %ₘ f
  have hwdeg : w.degree < 3 := hdeg ▸ degree_modByMonic_lt v hmon
  have hw : AdjoinRoot.mk f w = AdjoinRoot.mk f v := by
    rw [AdjoinRoot.mk_eq_mk]
    exact ⟨-(v /ₘ f), by linear_combination modByMonic_add_div v f⟩
  let ω : CubicResidue := ⟨((w.coeff 0).val : Int), ((w.coeff 1).val : Int), ((w.coeff 2).val : Int)⟩
  have hω : cubicVal x ω = AdjoinRoot.mk f w := by
    rw [val_mk]
    have hnat : w.natDegree < 3 := by
      by_cases hz : w = 0
      · simp [hz]
      · exact (natDegree_lt_iff_degree_lt hz).mpr hwdeg
    have hsum := w.as_sum_range_C_mul_X_pow' hnat
    rw [hsum]
    simp [ω, Finset.sum_range_succ]
  refine ⟨ω, ?_⟩
  have hone : cubicVal x (cubicMul p s t h ω) = 1 := by
    rw [cubicVal_mul hpK hx, hval K x hpK hx, hω, hw, mul_comm, hv]
  generalize cubicMul p s t h ω = m at hone
  let q : (ZMod p)[X] := C ((m.c0 : ZMod p) - 1) + C (m.c1 : ZMod p) * X + C (m.c2 : ZMod p) * X ^ 2
  have hq : q = 0 := by
    refine eq_zero_of_dvd_of_degree_lt (p := f) (AdjoinRoot.mk_eq_zero.mp ?_) ?_
    · rw [val_mk] at hone
      have : q = (C (m.c0 : ZMod p) + C (m.c1 : ZMod p) * X + C (m.c2 : ZMod p) * X ^ 2) - 1 := by
        simp only [q, C_sub, C_1]
        ring
      rw [this, map_sub, hone, map_one, sub_self]
    · rw [hdeg]
      have : q = C (m.c2 : ZMod p) * X ^ 2 + C (m.c1 : ZMod p) * X + C ((m.c0 : ZMod p) - 1) := by ring
      rw [this]
      exact degree_quadratic_lt
  obtain ⟨h0, h1, h2⟩ := coeffs_of_quadratic_eq_zero hq
  simp [cubicNorm, sub_eq_zero.mp h0, h1, h2]

/-- `rootFree` decides, for a prime of at most 256 bits, whether X³ + aX + b has a root modulo it. -/
theorem rootFree_iff {p : Nat} (hp : p.Prime) (hlt : p < 2 ^ 256) (a b : Nat) :
    rootFree p a b = true ↔ ∀ x, x < p → (x ^ 3 + a * x + b) % p ≠ 0 := by
  have := Fact.mk hp
  simp only [rootFree, decide_eq_true_iff]
  set g := cubicPow p (-a) (-b) 256 ⟨0, 1, 0⟩ p
  set h : CubicResidue := ⟨g.c0, g.c1 - 1, g.c2⟩ with hdef
  have hval (A : Type) [CommRing A] (x : A) (hA : (p : A) = 0) (hx : x ^ 3 = ((-a : Int) : A) * x + ((-b : Int) : A)) :
      cubicVal x h = x ^ p - x := by
    have hg : cubicVal x g = x ^ p := by
      rw [cubicVal_pow hA hx 256 _ p hlt]
      simp [cubicVal]
    rw [← hg]
    simp only [cubicVal, hdef]
    push_cast
    ring
  rw [Ne, ← Int.dvd_iff_emod_eq_zero, ← ZMod.intCast_zmod_eq_zero_iff_dvd]
  constructor
  · intro hN x hx h0
    refine hN ?_
    have hroot : (x : ZMod p) ^ 3 = ((-a : Int) : ZMod p) * x + ((-b : Int) : ZMod p) := by
      have : ((x ^ 3 + a * x + b : Nat) : ZMod p) = 0 := (ZMod.natCast_eq_zero_iff _ _).mpr (Nat.dvd_of_mod_eq_zero h0)
      push_cast at this ⊢
      linear_combination this
    have := cubicNorm_dvd hroot h
    rw [hval _ _ (ZMod.natCast_self p) hroot, ZMod.pow_card, sub_self] at this
    exact zero_dvd_iff.mp this
  · intro hno hN
    obtain ⟨w, hw⟩ := exists_inverse_of_no_root (s := -a) (t := -b) h hval fun r hr => by
      refine hno r.val r.val_lt (Nat.mod_eq_zero_of_dvd ((ZMod.natCast_eq_zero_iff _ _).mp ?_))
      push_cast at hr ⊢
      rw [ZMod.natCast_zmod_val]
      linear_combination hr
    rw [cubicNorm_mul, hN, zero_mul] at hw
    exact zero_ne_one hw

/-- The executable premise of R116 is the premise. -/
theorem Curve.noOrderTwoCheck_iff {C : Curve} (h : C.F.WF) : C.noOrderTwoCheck = true ↔ C.NoOrderTwo :=
  rootFree_iff h.prime (quadVal_lt C.F.P) _ _

/-- The executable check of the curve table is the precondition of the commands that use ProjImpl's addition (R27, U11, R116). -/
@[simp] theorem State.wfcCheck_iff {s : State} : s.wfcCheck = true ↔ s.WFC := by
  simp only [State.wfcCheck, Bool.and_eq_true, Bool.or_eq_true, Curve.specifiedCheck_iff, decide_eq_true_iff]
  constructor
  · rintro ⟨h, hr⟩
    exact ⟨h, fun he => (Curve.noOrderTwoCheck_iff h.wf.field).mp (hr.resolve_left (not_not_intro he))⟩
  · rintro ⟨h, hr⟩
    exact ⟨h, (ne_or_eq s.projImpl .reference).imp_right fun he => (Curve.noOrderTwoCheck_iff h.wf.field).mpr (hr he)⟩

end Sys2Proof.Machine
end

