-- ==== Sys2Proof/Laws/Encoding.lean ====
section
/-! SUPPORT. The six fields tile the 64 bits of a command word (R45, R51). -/

set_option Elab.async false

namespace Sys2Proof

/-- Adding a multiple of `B` above a number below `B`: the low part. -/
theorem low_part {B x y : Nat} (hx : x < B) : (x + y * B) % B = x := by
  rw [Nat.add_mul_mod_self_right, Nat.mod_eq_of_lt hx]

/-- Adding a multiple of `B` above a number below `B`: the high part. -/
theorem high_part {B x y : Nat} (hx : x < B) : (x + y * B) / B = y := by
  rw [Nat.add_mul_div_right _ _ (by omega), Nat.div_eq_of_lt hx, Nat.zero_add]

/-- The word of six fields, nested: each field above the one before it. -/
theorem packFields_toNat (f : Fields) :
    (packFields f).toNat = f.op.toNat + (f.fs.toNat + (f.len.toNat + (f.rd.toNat + (f.ra.toNat + f.rb.toNat * 2 ^ 16) * 2 ^ 16)
      * 2 ^ 7) * 2 ^ 1) * 2 ^ 8 := by
  have h1 := f.op.isLt
  have h2 := f.fs.isLt
  have h3 := f.len.isLt
  have h4 := f.rd.isLt
  have h5 := f.ra.isLt
  have h6 := f.rb.isLt
  rw [packFields, BitVec.toNat_ofNat, Nat.mod_eq_of_lt]
  · ring
  · norm_num at *
    omega

theorem fieldsOf_packFields (f : Fields) : fieldsOf (packFields f) = f := by
  have hn := packFields_toNat f
  have h1 := f.op.isLt
  have h2 := f.fs.isLt
  have h3 := f.len.isLt
  have h4 := f.rd.isLt
  have h5 := f.ra.isLt
  have h6 := f.rb.isLt
  have d8 := congrArg (· / 2 ^ 8) hn
  simp only [high_part h1] at d8
  have d9 := congrArg (· / 2 ^ 1) d8
  simp only [high_part h2, Nat.div_div_eq_div_mul, ← Nat.pow_add, Nat.reduceAdd] at d9
  have d16 := congrArg (· / 2 ^ 7) d9
  simp only [high_part h3, Nat.div_div_eq_div_mul, ← Nat.pow_add, Nat.reduceAdd] at d16
  have d32 := congrArg (· / 2 ^ 16) d16
  simp only [high_part h4, Nat.div_div_eq_div_mul, ← Nat.pow_add, Nat.reduceAdd] at d32
  have d48 := congrArg (· / 2 ^ 16) d32
  simp only [high_part h5, Nat.div_div_eq_div_mul, ← Nat.pow_add, Nat.reduceAdd] at d48
  obtain ⟨op, fs, len, rd, ra, rb⟩ := f
  simp only [fieldsOf, Fields.mk.injEq]
  refine ⟨?_, ?_, ?_, ?_, ?_, ?_⟩ <;> apply BitVec.eq_of_toNat_eq <;>
    rw [BitVec.extractLsb'_toNat, Nat.shiftRight_eq_div_pow]
  · rw [Nat.pow_zero, Nat.div_one, hn, low_part h1]
  · rw [d8, low_part h2]
  · rw [d9, low_part h3]
  · rw [d16, low_part h4]
  · rw [d32, low_part h5]
  · rw [d48, Nat.mod_eq_of_lt h6]

theorem packFields_fieldsOf (w : Word) : packFields (fieldsOf w) = w := by
  apply BitVec.eq_of_toNat_eq
  rw [packFields_toNat]
  simp only [fieldsOf, BitVec.extractLsb'_toNat, Nat.shiftRight_eq_div_pow, Nat.pow_zero, Nat.div_one]
  have step (a b : Nat) : w.toNat / 2 ^ a % 2 ^ b + w.toNat / 2 ^ (a + b) * 2 ^ b = w.toNat / 2 ^ a := by
    rw [Nat.pow_add, ← Nat.div_div_eq_div_mul]
    exact Nat.mod_add_div' _ _
  have top : w.toNat / 2 ^ 48 % 2 ^ 16 = w.toNat / 2 ^ 48 :=
    Nat.mod_eq_of_lt (by rw [Nat.div_lt_iff_lt_mul (by positivity), ← Nat.pow_add]; exact w.isLt)
  rw [top, step 32 16, step 16 16, step 9 7, step 8 1]
  exact Nat.mod_add_div' _ _

/-- Two words with the same fields are the same word. -/
theorem fieldsOf_injective {v w : Word} (h : fieldsOf v = fieldsOf w) : v = w := by
  rw [← packFields_fieldsOf v, h, packFields_fieldsOf]

/-- The fields of an encoded command are the command's fields. -/
@[simp] theorem fieldsOf_encode (i : Instr) : fieldsOf (encode i) = i.fields := fieldsOf_packFields i.fields

@[simp] theorem bankOf_bankBit (b : Bank) : bankOf (bankBit b) = b := by cases b <;> rfl

@[simp] theorem bankBit_bankOf (b : BitVec 1) : bankBit (bankOf b) = b := by
  revert b; decide

/-- Nothing but `legal`'s own command comes out of it, and only when the unused fields are zero. -/
theorem legal_ok {f : Fields} {u : Uses} {i j : Instr} (h : legal f u i = .ok j) : f.within u = true ∧ j = i := by
  unfold legal at h
  split at h
  · exact ⟨‹_›, by simpa using h.symm⟩
  · cases h

end Sys2Proof
end

