-- ==== Sys2Proof/Laws/State.lean ====
section
/-! SUPPORT. What each update of the state does to each field, one lemma per field per update. -/

set_option Elab.async false

namespace Sys2Proof.Machine

/-! ### `memWrite` -/

@[simp] theorem State.memWrite_buf (s : State) (a : Addr) (k v : Nat) : (s.memWrite a k v).buf = s.buf.writeWords a.toNat k v := rfl
@[simp] theorem State.memWrite_cmd (s : State) (a : Addr) (k v : Nat) : (s.memWrite a k v).cmd = s.cmd := rfl
@[simp] theorem State.memWrite_pc (s : State) (a : Addr) (k v : Nat) : (s.memWrite a k v).pc = s.pc := rfl
@[simp] theorem State.memWrite_t (s : State) (a : Addr) (k v : Nat) : (s.memWrite a k v).t = s.t := rfl
@[simp] theorem State.memWrite_run (s : State) (a : Addr) (k v : Nat) : (s.memWrite a k v).run = s.run := rfl
@[simp] theorem State.memWrite_done (s : State) (a : Addr) (k v : Nat) : (s.memWrite a k v).done = s.done := rfl
@[simp] theorem State.memWrite_faulted (s : State) (a : Addr) (k v : Nat) : (s.memWrite a k v).faulted = s.faulted := rfl
@[simp] theorem State.memWrite_cause (s : State) (a : Addr) (k v : Nat) : (s.memWrite a k v).cause = s.cause := rfl
@[simp] theorem State.memWrite_finfo (s : State) (a : Addr) (k v : Nat) : (s.memWrite a k v).finfo = s.finfo := rfl
@[simp] theorem State.memWrite_fd0 (s : State) (a : Addr) (k v : Nat) : (s.memWrite a k v).fd0 = s.fd0 := rfl
@[simp] theorem State.memWrite_fd1 (s : State) (a : Addr) (k v : Nat) : (s.memWrite a k v).fd1 = s.fd1 := rfl
@[simp] theorem State.memWrite_cv (s : State) (a : Addr) (k v : Nat) : (s.memWrite a k v).cv = s.cv := rfl
@[simp] theorem State.memWrite_freeCount (s : State) (a : Addr) (k v : Nat) : (s.memWrite a k v).freeCount = s.freeCount := rfl
@[simp] theorem State.memWrite_projImpl (s : State) (a : Addr) (k v : Nat) : (s.memWrite a k v).projImpl = s.projImpl := rfl

/-! ### `setT` -/

@[simp] theorem State.setT_buf (s : State) (b : Bool) : (s.setT b).buf = s.buf := rfl
@[simp] theorem State.setT_cmd (s : State) (b : Bool) : (s.setT b).cmd = s.cmd := rfl
@[simp] theorem State.setT_pc (s : State) (b : Bool) : (s.setT b).pc = s.pc := rfl
@[simp] theorem State.setT_t (s : State) (b : Bool) : (s.setT b).t = b := rfl
@[simp] theorem State.setT_run (s : State) (b : Bool) : (s.setT b).run = s.run := rfl
@[simp] theorem State.setT_done (s : State) (b : Bool) : (s.setT b).done = s.done := rfl
@[simp] theorem State.setT_faulted (s : State) (b : Bool) : (s.setT b).faulted = s.faulted := rfl
@[simp] theorem State.setT_cause (s : State) (b : Bool) : (s.setT b).cause = s.cause := rfl
@[simp] theorem State.setT_finfo (s : State) (b : Bool) : (s.setT b).finfo = s.finfo := rfl
@[simp] theorem State.setT_fd0 (s : State) (b : Bool) : (s.setT b).fd0 = s.fd0 := rfl
@[simp] theorem State.setT_fd1 (s : State) (b : Bool) : (s.setT b).fd1 = s.fd1 := rfl
@[simp] theorem State.setT_cv (s : State) (b : Bool) : (s.setT b).cv = s.cv := rfl
@[simp] theorem State.setT_freeCount (s : State) (b : Bool) : (s.setT b).freeCount = s.freeCount := rfl
@[simp] theorem State.setT_projImpl (s : State) (b : Bool) : (s.setT b).projImpl = s.projImpl := rfl

/-! ### `advance` -/

@[simp] theorem State.advance_buf (s : State) : (s.advance).buf = s.buf := rfl
@[simp] theorem State.advance_cmd (s : State) : (s.advance).cmd = s.cmd := rfl
@[simp] theorem State.advance_pc (s : State) : (s.advance).pc = s.pc + 1#16 := rfl
@[simp] theorem State.advance_t (s : State) : (s.advance).t = s.t := rfl
@[simp] theorem State.advance_run (s : State) : (s.advance).run = s.run := rfl
@[simp] theorem State.advance_done (s : State) : (s.advance).done = s.done := rfl
@[simp] theorem State.advance_faulted (s : State) : (s.advance).faulted = s.faulted := rfl
@[simp] theorem State.advance_cause (s : State) : (s.advance).cause = s.cause := rfl
@[simp] theorem State.advance_finfo (s : State) : (s.advance).finfo = s.finfo := rfl
@[simp] theorem State.advance_fd0 (s : State) : (s.advance).fd0 = s.fd0 := rfl
@[simp] theorem State.advance_fd1 (s : State) : (s.advance).fd1 = s.fd1 := rfl
@[simp] theorem State.advance_cv (s : State) : (s.advance).cv = s.cv := rfl
@[simp] theorem State.advance_freeCount (s : State) : (s.advance).freeCount = s.freeCount := rfl
@[simp] theorem State.advance_projImpl (s : State) : (s.advance).projImpl = s.projImpl := rfl

/-! ### `draw` -/

@[simp] theorem State.draw_buf (s : State) : (s.draw).buf = s.buf := rfl
@[simp] theorem State.draw_cmd (s : State) : (s.draw).cmd = s.cmd := rfl
@[simp] theorem State.draw_pc (s : State) : (s.draw).pc = s.pc := rfl
@[simp] theorem State.draw_t (s : State) : (s.draw).t = s.t := rfl
@[simp] theorem State.draw_run (s : State) : (s.draw).run = s.run := rfl
@[simp] theorem State.draw_done (s : State) : (s.draw).done = s.done := rfl
@[simp] theorem State.draw_faulted (s : State) : (s.draw).faulted = s.faulted := rfl
@[simp] theorem State.draw_cause (s : State) : (s.draw).cause = s.cause := rfl
@[simp] theorem State.draw_finfo (s : State) : (s.draw).finfo = s.finfo := rfl
@[simp] theorem State.draw_fd0 (s : State) : (s.draw).fd0 = s.fd0 := rfl
@[simp] theorem State.draw_fd1 (s : State) : (s.draw).fd1 = s.fd1 := rfl
@[simp] theorem State.draw_cv (s : State) : (s.draw).cv = s.cv := rfl
@[simp] theorem State.draw_freeCount (s : State) : (s.draw).freeCount = s.freeCount + 1 := rfl
@[simp] theorem State.draw_projImpl (s : State) : (s.draw).projImpl = s.projImpl := rfl

/-! ### `raise` -/

@[simp] theorem State.raise_buf (s : State) (x : ArchFault) (w : Word) : (s.raise x w).buf = s.buf := rfl
@[simp] theorem State.raise_cmd (s : State) (x : ArchFault) (w : Word) : (s.raise x w).cmd = s.cmd := rfl
@[simp] theorem State.raise_pc (s : State) (x : ArchFault) (w : Word) : (s.raise x w).pc = s.pc := rfl
@[simp] theorem State.raise_t (s : State) (x : ArchFault) (w : Word) : (s.raise x w).t = s.t := rfl
@[simp] theorem State.raise_run (s : State) (x : ArchFault) (w : Word) : (s.raise x w).run = false := rfl
@[simp] theorem State.raise_done (s : State) (x : ArchFault) (w : Word) : (s.raise x w).done = s.done := rfl
@[simp] theorem State.raise_faulted (s : State) (x : ArchFault) (w : Word) : (s.raise x w).faulted = true := rfl
@[simp] theorem State.raise_cause (s : State) (x : ArchFault) (w : Word) : (s.raise x w).cause = x.code := rfl
@[simp] theorem State.raise_finfo (s : State) (x : ArchFault) (w : Word) : (s.raise x w).finfo = w := rfl
@[simp] theorem State.raise_fd0 (s : State) (x : ArchFault) (w : Word) : (s.raise x w).fd0 = s.fd0 := rfl
@[simp] theorem State.raise_fd1 (s : State) (x : ArchFault) (w : Word) : (s.raise x w).fd1 = s.fd1 := rfl
@[simp] theorem State.raise_cv (s : State) (x : ArchFault) (w : Word) : (s.raise x w).cv = s.cv := rfl
@[simp] theorem State.raise_freeCount (s : State) (x : ArchFault) (w : Word) : (s.raise x w).freeCount = s.freeCount := rfl
@[simp] theorem State.raise_projImpl (s : State) (x : ArchFault) (w : Word) : (s.raise x w).projImpl = s.projImpl := rfl

/-! ### `launch` -/

@[simp] theorem State.launch_buf (s : State) : (s.launch).buf = s.buf := rfl
@[simp] theorem State.launch_cmd (s : State) : (s.launch).cmd = s.cmd := rfl
@[simp] theorem State.launch_pc (s : State) : (s.launch).pc = s.pc := rfl
@[simp] theorem State.launch_t (s : State) : (s.launch).t = s.t := rfl
@[simp] theorem State.launch_run (s : State) : (s.launch).run = true := rfl
@[simp] theorem State.launch_done (s : State) : (s.launch).done = false := rfl
@[simp] theorem State.launch_faulted (s : State) : (s.launch).faulted = false := rfl
@[simp] theorem State.launch_cause (s : State) : (s.launch).cause = 0#4 := rfl
@[simp] theorem State.launch_finfo (s : State) : (s.launch).finfo = 0#64 := rfl
@[simp] theorem State.launch_fd0 (s : State) : (s.launch).fd0 = s.fd0 := rfl
@[simp] theorem State.launch_fd1 (s : State) : (s.launch).fd1 = s.fd1 := rfl
@[simp] theorem State.launch_cv (s : State) : (s.launch).cv = s.cv := rfl
@[simp] theorem State.launch_freeCount (s : State) : (s.launch).freeCount = s.freeCount := rfl
@[simp] theorem State.launch_projImpl (s : State) : (s.launch).projImpl = s.projImpl := rfl

/-! ### `resetControl` -/

@[simp] theorem State.resetControl_buf (s : State) : (s.resetControl).buf = s.buf := rfl
@[simp] theorem State.resetControl_cmd (s : State) : (s.resetControl).cmd = s.cmd := rfl
@[simp] theorem State.resetControl_pc (s : State) : (s.resetControl).pc = 0#16 := rfl
@[simp] theorem State.resetControl_t (s : State) : (s.resetControl).t = false := rfl
@[simp] theorem State.resetControl_run (s : State) : (s.resetControl).run = false := rfl
@[simp] theorem State.resetControl_done (s : State) : (s.resetControl).done = false := rfl
@[simp] theorem State.resetControl_faulted (s : State) : (s.resetControl).faulted = false := rfl
@[simp] theorem State.resetControl_cause (s : State) : (s.resetControl).cause = 0#4 := rfl
@[simp] theorem State.resetControl_finfo (s : State) : (s.resetControl).finfo = 0#64 := rfl
@[simp] theorem State.resetControl_fd0 (s : State) : (s.resetControl).fd0 = s.fd0 := rfl
@[simp] theorem State.resetControl_fd1 (s : State) : (s.resetControl).fd1 = s.fd1 := rfl
@[simp] theorem State.resetControl_cv (s : State) : (s.resetControl).cv = s.cv := rfl
@[simp] theorem State.resetControl_freeCount (s : State) : (s.resetControl).freeCount = s.freeCount := rfl
@[simp] theorem State.resetControl_projImpl (s : State) : (s.resetControl).projImpl = s.projImpl := rfl

end Sys2Proof.Machine
end

