-- ==== Sys2Proof/Laws/Memory.lean ====
section
/-! SUPPORT. The laws of word memories: read after write, the canonical form, and the multi-word accesses of R8 and R9. -/

set_option Elab.async false

namespace Sys2Proof.Machine

/-! ### One word -/

theorem lookupCell_insertCell (l : List (Nat × Word)) (a b : Nat) (v : Word) :
    lookupCell (insertCell l a v) b = if b = a then some v else lookupCell l b := by
  induction l with
  | nil => simp [insertCell, lookupCell]
  | cons c rest ih =>
    obtain ⟨c, u⟩ := c
    by_cases h1 : a < c
    · simp [insertCell, h1, lookupCell]
    · by_cases h2 : a = c
      · subst h2
        by_cases h3 : b = a <;> simp [insertCell, lookupCell, h3]
      · by_cases h3 : b = c
        · subst h3
          simp [insertCell, h1, h2, lookupCell, Ne.symm h2]
        · simp [insertCell, h1, h2, lookupCell, h3, ih]

theorem Memory.read_write (m : Memory) (a b : Nat) (v : Word) :
    (m.write a v).read b = if b = a then some v else m.read b := lookupCell_insertCell m.cells a b v

@[simp] theorem Memory.read_write_same (m : Memory) (a : Nat) (v : Word) : (m.write a v).read a = some v := by
  simp [Memory.read_write]

theorem Memory.read_write_other (m : Memory) {a b : Nat} (v : Word) (h : b ≠ a) : (m.write a v).read b = m.read b := by
  simp [Memory.read_write, h]

theorem risingFrom_insertCell {size : Nat} (l : List (Nat × Word)) {lo a : Nat} (v : Word)
    (h : risingFrom size lo l = true) (hlo : lo ≤ a) (ha : a < size) :
    risingFrom size lo (insertCell l a v) = true := by
  induction l generalizing lo with
  | nil => simp [insertCell, risingFrom, hlo, ha]
  | cons c rest ih =>
    obtain ⟨c, u⟩ := c
    simp only [risingFrom, Bool.and_eq_true, decide_eq_true_eq] at h
    obtain ⟨⟨h1, h2⟩, h3⟩ := h
    by_cases hac : a < c
    · simp [insertCell, hac, risingFrom, hlo, ha, h2, h3]
    · by_cases heq : a = c
      · subst heq
        simp [insertCell, risingFrom, hlo, ha, h3]
      · have hca : c + 1 ≤ a := by omega
        simp [insertCell, hac, heq, risingFrom, h1, h2, ih h3 hca]

/-- Every write inside the memory keeps the canonical form. -/
theorem Memory.wf_write {m : Memory} {size a : Nat} (v : Word) (h : m.wf size = true) (ha : a < size) :
    (m.write a v).wf size = true := risingFrom_insertCell m.cells v h (Nat.zero_le a) ha

@[simp] theorem Memory.wf_empty (size : Nat) : (Memory.mk []).wf size = true := rfl

/-! ### Several words -/

theorem Memory.read_writeWords_outside (m : Memory) (a k v b : Nat) (h : b < a ∨ a + k ≤ b) :
    (m.writeWords a k v).read b = m.read b := by
  induction k generalizing m a v with
  | zero => rfl
  | succ k ih =>
    rw [Memory.writeWords, ih _ _ _ (by omega), Memory.read_write_other _ _ (by omega)]

theorem Memory.read_writeWords_inside (m : Memory) (a k v i : Nat) (h : i < k) :
    (m.writeWords a k v).read (a + i) = some (BitVec.ofNat 64 (v / 2 ^ (64 * i))) := by
  induction k generalizing m a v i with
  | zero => omega
  | succ k ih =>
    cases i with
    | zero =>
      rw [Memory.writeWords, Memory.read_writeWords_outside _ _ _ _ _ (by omega)]
      simp
    | succ i =>
      have := ih (m.write a (BitVec.ofNat 64 v)) (a + 1) (v / 2 ^ 64) i (by omega)
      rw [Memory.writeWords, show a + (i + 1) = a + 1 + i by omega, this, Nat.div_div_eq_div_mul, ← Nat.pow_add]
      congr 4
      omega

/-- Every multi-word write inside the memory keeps the canonical form. -/
theorem Memory.wf_writeWords {m : Memory} {size : Nat} (a k v : Nat) (h : m.wf size = true) (hk : a + k ≤ size) :
    (m.writeWords a k v).wf size = true := by
  induction k generalizing m a v with
  | zero => exact h
  | succ k ih => exact ih _ _ (Memory.wf_write _ h (by omega)) (by omega)

/-! ### MemRead and MemWrite (R9) -/

theorem State.bufWord_of_read {s t : State} {a : Nat} (h : t.buf.read a = s.buf.read a) : t.bufWord a = s.bufWord a := by
  simp [State.bufWord, h]

theorem State.readAt_lt (s : State) (a k : Nat) : s.readAt a k < 2 ^ (64 * k) := by
  induction k generalizing a with
  | zero => simp [State.readAt]
  | succ k ih =>
    have h1 := (s.bufWord a).isLt
    have h2 := ih (a + 1)
    rw [State.readAt, Nat.mul_succ, Nat.pow_add]
    nlinarith

theorem State.memRead_lt (s : State) (a : Addr) (k : Nat) : s.memRead a k < 2 ^ (64 * k) := s.readAt_lt a.toNat k

/-- Two states whose words agree on a range read the same value there. -/
theorem State.readAt_congr {s t : State} {a k : Nat} (h : ∀ i, i < k → t.bufWord (a + i) = s.bufWord (a + i)) :
    t.readAt a k = s.readAt a k := by
  induction k generalizing a with
  | zero => rfl
  | succ k ih =>
    have h0 := h 0 (by omega)
    have ih' := @ih (a + 1) fun i hi => by
      have := h (i + 1) (by omega)
      rwa [show a + 1 + i = a + (i + 1) by omega]
    simp only [Nat.add_zero] at h0
    simp [State.readAt, h0, ih']

/-- A state whose words on a range are those of `v` reads `v` there. -/
theorem State.readAt_eq_of_words {t : State} {a k v : Nat}
    (h : ∀ i, i < k → t.bufWord (a + i) = BitVec.ofNat 64 (v / 2 ^ (64 * i))) : t.readAt a k = v % 2 ^ (64 * k) := by
  induction k generalizing a v with
  | zero => simp [State.readAt, Nat.mod_one]
  | succ k ih =>
    have h0 := h 0 (by omega)
    have ih' := @ih (a + 1) (v / 2 ^ 64) fun i hi => by
      have := h (i + 1) (by omega)
      rw [show a + 1 + i = a + (i + 1) by omega, this, Nat.div_div_eq_div_mul, ← Nat.pow_add]
      congr 3
      omega
    simp only [Nat.add_zero, Nat.mul_zero, Nat.pow_zero, Nat.div_one] at h0
    rw [State.readAt, h0, ih', BitVec.toNat_ofNat, Nat.mul_succ, Nat.add_comm (64 * k), Nat.pow_add, Nat.mod_mul]

/-- MemRead after MemWrite of the same words. -/
theorem State.memRead_memWrite_same (s : State) (a : Addr) (k v : Nat) :
    (s.memWrite a k v).memRead a k = v % 2 ^ (64 * k) :=
  State.readAt_eq_of_words fun i hi => by
    simp [State.bufWord, Memory.read_writeWords_inside _ _ _ _ _ hi]

/-- MemWrite leaves every other word of BUF. -/
theorem State.read_memWrite_outside (s : State) (a : Addr) (k v b : Nat) (h : b < a.toNat ∨ a.toNat + k ≤ b) :
    (s.memWrite a k v).buf.read b = s.buf.read b := Memory.read_writeWords_outside _ _ _ _ _ h

@[simp] theorem State.readAt_setT (s : State) (b : Bool) (a k : Nat) : (s.setT b).readAt a k = s.readAt a k :=
  State.readAt_congr fun _ _ => rfl

@[simp] theorem State.readAt_advance (s : State) (a k : Nat) : s.advance.readAt a k = s.readAt a k :=
  State.readAt_congr fun _ _ => rfl

@[simp] theorem State.readAt_draw (s : State) (a k : Nat) : s.draw.readAt a k = s.readAt a k :=
  State.readAt_congr fun _ _ => rfl

@[simp] theorem State.memRead_setT (s : State) (b : Bool) (a : Addr) (k : Nat) : (s.setT b).memRead a k = s.memRead a k :=
  State.readAt_setT s b a.toNat k

@[simp] theorem State.memRead_advance (s : State) (a : Addr) (k : Nat) : s.advance.memRead a k = s.memRead a k :=
  State.readAt_advance s a.toNat k

@[simp] theorem State.memRead_draw (s : State) (a : Addr) (k : Nat) : s.draw.memRead a k = s.memRead a k :=
  State.readAt_draw s a.toNat k

end Sys2Proof.Machine
end

