-- ==== Sys2Proof/Laws/Issue.lean ====
section
/-! SUPPORT. What the shared operations of the commands can do: unspecified results (R11), the framing checks (R55). -/

set_option Elab.async false

namespace Sys2Proof.Machine

/-- Everything `writeResult` can do: write the result, or write unspecified words to the same place and count the draw. -/
theorem State.writeResult_cases (s : State) (rd : Addr) (k : Nat) (v : Option Nat) :
    (∃ x, v = some x ∧ s.writeResult rd k v = s.memWrite rd k x)
      ∨ (v = none ∧ s.writeResult rd k v = (s.memWrite rd k (freeWords s.freeCount 0 k)).draw) := by
  cases v with
  | none => exact .inr ⟨rfl, rfl⟩
  | some x => exact .inl ⟨x, rfl, rfl⟩

/-- Everything `flagResult` can do. -/
theorem State.flagResult_cases (s : State) (b : Option Bool) :
    (∃ x, b = some x ∧ s.flagResult b = s.setT x)
      ∨ (b = none ∧ s.flagResult b = (s.setT (Config.freeBit s.freeCount)).draw) := by
  cases b with
  | none => exact .inr ⟨rfl, rfl⟩
  | some x => exact .inl ⟨x, rfl, rfl⟩

/-- Everything `framingFault` can answer, with the reason (R127 to R130). -/
theorem framingFault_cases (i : Instr) (s : State) :
    (framingFault i s = some .pcOverflow ∧ i ≠ .halt ∧ s.pc = 0xFFFF#16)
      ∨ (framingFault i s = some .addressRange ∧ ¬(i ≠ .halt ∧ s.pc = 0xFFFF#16)
        ∧ (operandsOf i).all operandFits = false)
      ∨ (framingFault i s = none ∧ ¬(i ≠ .halt ∧ s.pc = 0xFFFF#16) ∧ (operandsOf i).all operandFits = true) := by
  unfold framingFault
  by_cases h1 : i ≠ .halt ∧ s.pc = 0xFFFF#16
  · exact .inl ⟨by rw [if_pos h1], h1.1, h1.2⟩
  · cases h2 : (operandsOf i).all operandFits
    · exact .inr (.inl ⟨by rw [if_neg h1]; simp, h1, rfl⟩)
    · exact .inr (.inr ⟨by rw [if_neg h1]; simp, h1, rfl⟩)

/-- Everything `issue` can do: one fault entry, or the effect and then pc + 1. -/
theorem issue_cases (i : Instr) (s e : State) :
    (∃ x, framingFault i s = some x ∧ issue i s e = .next (s.raise x (encode i)))
      ∨ (framingFault i s = none ∧ issue i s e = .next e.advance) := by
  unfold issue
  cases h : framingFault i s with
  | some x => exact .inl ⟨x, rfl, rfl⟩
  | none => exact .inr ⟨rfl, rfl⟩

/-- The framing checks read nothing but pc. -/
theorem framingFault_congr (i : Instr) {s t : State} (h : t.pc = s.pc) : framingFault i t = framingFault i s := by
  simp [framingFault, h]

end Sys2Proof.Machine
end

