-- ==== Sys2Proof/Laws/PerInstr.lean ====
section
/-! SUPPORT. The family FieldsDecode: the six fields of a well-formed command stand for that command in the opcode map (R46, R49),
one lemma per command. -/

set_option Elab.async false

namespace Sys2Proof.Laws

/-- The fields of a well-formed command stand for that command. -/
def FieldsDecode.Statement (i : Instr) : Prop := i.wellFormed = true → decodeFields i.fields = .ok i

theorem FieldsDecode.halt : FieldsDecode.Statement .halt := fun _ => by
  simp [decodeFields, Instr.fields, legal, Fields.within]

theorem FieldsDecode.stt (rd : Addr) : FieldsDecode.Statement (.stt rd) := fun _ => by
  simp [decodeFields, Instr.fields, legal, Fields.within]

theorem FieldsDecode.iadd (rd ra rb : Addr) : FieldsDecode.Statement (.iadd rd ra rb) := fun _ => by
  simp [decodeFields, Instr.fields, legal, Fields.within]

theorem FieldsDecode.isub (rd ra rb : Addr) : FieldsDecode.Statement (.isub rd ra rb) := fun _ => by
  simp [decodeFields, Instr.fields, legal, Fields.within]

theorem FieldsDecode.isubr (rd ra rb : Addr) : FieldsDecode.Statement (.isubr rd ra rb) := fun _ => by
  simp [decodeFields, Instr.fields, legal, Fields.within]

theorem FieldsDecode.imul (rd ra rb : Addr) : FieldsDecode.Statement (.imul rd ra rb) := fun _ => by
  simp [decodeFields, Instr.fields, legal, Fields.within]

theorem FieldsDecode.isqr (rd ra : Addr) : FieldsDecode.Statement (.isqr rd ra) := fun _ => by
  simp [decodeFields, Instr.fields, legal, Fields.within]

theorem FieldsDecode.itstz (ra : Addr) : FieldsDecode.Statement (.itstz ra) := fun _ => by
  simp [decodeFields, Instr.fields, legal, Fields.within]

theorem FieldsDecode.ieq (ra rb : Addr) : FieldsDecode.Statement (.ieq ra rb) := fun _ => by
  simp [decodeFields, Instr.fields, legal, Fields.within]

theorem FieldsDecode.icopy (rd ra : Addr) : FieldsDecode.Statement (.icopy rd ra) := fun _ => by
  simp [decodeFields, Instr.fields, legal, Fields.within]

theorem FieldsDecode.iclr (rd : Addr) : FieldsDecode.Statement (.iclr rd) := fun _ => by
  simp [decodeFields, Instr.fields, legal, Fields.within]

theorem FieldsDecode.fadd (fs : Bank) (rd ra rb : Addr) : FieldsDecode.Statement (.fadd fs rd ra rb) := fun _ => by
  simp [decodeFields, Instr.fields, legal, Fields.within]

theorem FieldsDecode.fsub (fs : Bank) (rd ra rb : Addr) : FieldsDecode.Statement (.fsub fs rd ra rb) := fun _ => by
  simp [decodeFields, Instr.fields, legal, Fields.within]

theorem FieldsDecode.fneg (fs : Bank) (rd ra : Addr) : FieldsDecode.Statement (.fneg fs rd ra) := fun _ => by
  simp [decodeFields, Instr.fields, legal, Fields.within]

theorem FieldsDecode.fmul (fs : Bank) (rd ra rb : Addr) : FieldsDecode.Statement (.fmul fs rd ra rb) := fun _ => by
  simp [decodeFields, Instr.fields, legal, Fields.within]

theorem FieldsDecode.fsqr (fs : Bank) (rd ra : Addr) : FieldsDecode.Statement (.fsqr fs rd ra) := fun _ => by
  simp [decodeFields, Instr.fields, legal, Fields.within]

theorem FieldsDecode.fredc (fs : Bank) (rd ra : Addr) : FieldsDecode.Statement (.fredc fs rd ra) := fun _ => by
  simp [decodeFields, Instr.fields, legal, Fields.within]

theorem FieldsDecode.fpow64 (fs : Bank) (rd ra rb : Addr) : FieldsDecode.Statement (.fpow64 fs rd ra rb) := fun _ => by
  simp [decodeFields, Instr.fields, legal, Fields.within]

theorem FieldsDecode.fpowb (fs : Bank) (rd ra rb : Addr) (len : Nat) : FieldsDecode.Statement (.fpowb fs rd ra rb len) := fun h => by
  have hl : len < 128 := Nat.lt_succ_of_le (of_decide_eq_true (p := len ≤ 127) h)
  simp [decodeFields, Instr.fields, legal, Fields.within, Nat.mod_eq_of_lt hl]

theorem FieldsDecode.finv (fs : Bank) (rd ra : Addr) : FieldsDecode.Statement (.finv fs rd ra) := fun _ => by
  simp [decodeFields, Instr.fields, legal, Fields.within]

theorem FieldsDecode.fdiv (fs : Bank) (rd ra rb : Addr) : FieldsDecode.Statement (.fdiv fs rd ra rb) := fun _ => by
  simp [decodeFields, Instr.fields, legal, Fields.within]

theorem FieldsDecode.fisone (fs : Bank) (ra : Addr) : FieldsDecode.Statement (.fisone fs ra) := fun _ => by
  simp [decodeFields, Instr.fields, legal, Fields.within]

theorem FieldsDecode.fsetone (fs : Bank) (rd : Addr) : FieldsDecode.Statement (.fsetone fs rd) := fun _ => by
  simp [decodeFields, Instr.fields, legal, Fields.within]

theorem FieldsDecode.ftostd (fs : Bank) (rd ra : Addr) : FieldsDecode.Statement (.ftostd fs rd ra) := fun _ => by
  simp [decodeFields, Instr.fields, legal, Fields.within]

theorem FieldsDecode.ffromstd (fs : Bank) (rd ra : Addr) : FieldsDecode.Statement (.ffromstd fs rd ra) := fun _ => by
  simp [decodeFields, Instr.fields, legal, Fields.within]

theorem FieldsDecode.aisinf (ra : Addr) : FieldsDecode.Statement (.aisinf ra) := fun _ => by
  simp [decodeFields, Instr.fields, legal, Fields.within]

theorem FieldsDecode.aoncrv (ra : Addr) : FieldsDecode.Statement (.aoncrv ra) := fun _ => by
  simp [decodeFields, Instr.fields, legal, Fields.within]

theorem FieldsDecode.ainsub (ra : Addr) : FieldsDecode.Statement (.ainsub ra) := fun _ => by
  simp [decodeFields, Instr.fields, legal, Fields.within]

theorem FieldsDecode.aneg (rd ra : Addr) : FieldsDecode.Statement (.aneg rd ra) := fun _ => by
  simp [decodeFields, Instr.fields, legal, Fields.within]

theorem FieldsDecode.adbl (rd ra : Addr) : FieldsDecode.Statement (.adbl rd ra) := fun _ => by
  simp [decodeFields, Instr.fields, legal, Fields.within]

theorem FieldsDecode.aadd (rd ra rb : Addr) : FieldsDecode.Statement (.aadd rd ra rb) := fun _ => by
  simp [decodeFields, Instr.fields, legal, Fields.within]

theorem FieldsDecode.asmul64 (rd ra rb : Addr) : FieldsDecode.Statement (.asmul64 rd ra rb) := fun _ => by
  simp [decodeFields, Instr.fields, legal, Fields.within]

theorem FieldsDecode.asmulb (rd ra rb : Addr) (len : Nat) : FieldsDecode.Statement (.asmulb rd ra rb len) := fun h => by
  have hl : len < 128 := Nat.lt_succ_of_le (of_decide_eq_true (p := len ≤ 127) h)
  simp [decodeFields, Instr.fields, legal, Fields.within, Nat.mod_eq_of_lt hl]

theorem FieldsDecode.asmulf (fs : Bank) (rd ra rb : Addr) : FieldsDecode.Statement (.asmulf fs rd ra rb) := fun _ => by
  simp [decodeFields, Instr.fields, legal, Fields.within]

theorem FieldsDecode.pfroma (rd ra : Addr) : FieldsDecode.Statement (.pfroma rd ra) := fun _ => by
  simp [decodeFields, Instr.fields, legal, Fields.within]

theorem FieldsDecode.ptoa (rd ra : Addr) : FieldsDecode.Statement (.ptoa rd ra) := fun _ => by
  simp [decodeFields, Instr.fields, legal, Fields.within]

theorem FieldsDecode.pisinf (ra : Addr) : FieldsDecode.Statement (.pisinf ra) := fun _ => by
  simp [decodeFields, Instr.fields, legal, Fields.within]

theorem FieldsDecode.pdbl (rd ra : Addr) : FieldsDecode.Statement (.pdbl rd ra) := fun _ => by
  simp [decodeFields, Instr.fields, legal, Fields.within]

theorem FieldsDecode.padd (rd ra rb : Addr) : FieldsDecode.Statement (.padd rd ra rb) := fun _ => by
  simp [decodeFields, Instr.fields, legal, Fields.within]

theorem FieldsDecode.psmul64 (rd ra rb : Addr) : FieldsDecode.Statement (.psmul64 rd ra rb) := fun _ => by
  simp [decodeFields, Instr.fields, legal, Fields.within]

theorem FieldsDecode.psmulb (rd ra rb : Addr) (len : Nat) : FieldsDecode.Statement (.psmulb rd ra rb len) := fun h => by
  have hl : len < 128 := Nat.lt_succ_of_le (of_decide_eq_true (p := len ≤ 127) h)
  simp [decodeFields, Instr.fields, legal, Fields.within, Nat.mod_eq_of_lt hl]

theorem FieldsDecode.psmulf (fs : Bank) (rd ra rb : Addr) : FieldsDecode.Statement (.psmulf fs rd ra rb) := fun _ => by
  simp [decodeFields, Instr.fields, legal, Fields.within]

end Sys2Proof.Laws
end

