-- ==== Sys2Proof/Tests/Slice0.lean ====
section
/-! SUPPORT. The model's own tests: expected results are the vectors of `spec/95_test_vectors.md` (their ids are named), and
for every statement that has hypotheses a witness that they can be met together. -/

set_option Elab.async false

namespace Sys2Proof.Machine.Tests

/-! ### The well-formedness checks: an ill-formed term for each -/

theorem test_wellFormed_refuses_fpowb : (Instr.fpowb .b0 0#16 0#16 0#16 128).wellFormed = false := by decide
theorem test_wellFormed_refuses_asmulb : (Instr.asmulb 0#16 0#16 0#16 128).wellFormed = false := by decide
theorem test_wellFormed_refuses_psmulb : (Instr.psmulb 0#16 0#16 0#16 128).wellFormed = false := by decide
theorem test_wellFormed_accepts_len_127 : (Instr.fpowb .b0 0#16 0#16 0#16 127).wellFormed = true := by decide

/-! ### Decoding: words of V6.1 -/

theorem test_decode_halt : decode 0x0000000000000000#64 = .ok .halt := by decide
theorem test_decode_stt : decode 0x0000000001000001#64 = .ok (.stt 0x0100#16) := by decide
theorem test_decode_iadd : decode 0x0004000000080010#64 = .ok (.iadd 0x0008#16 0x0000#16 0x0004#16) := by decide
theorem test_decode_imul : decode 0xFFFCFFFCFFF80013#64 = .ok (.imul 0xFFF8#16 0xFFFC#16 0xFFFC#16) := by decide
theorem test_decode_itstz : decode 0x0000000800000015#64 = .ok (.itstz 0x0008#16) := by decide
theorem test_decode_ieq : decode 0x0014001000000016#64 = .ok (.ieq 0x0010#16 0x0014#16) := by decide
theorem test_decode_icopy : decode 0x0000000000080017#64 = .ok (.icopy 0x0008#16 0x0000#16) := by decide
theorem test_decode_iclr : decode 0x0000000000080018#64 = .ok (.iclr 0x0008#16) := by decide
theorem test_decode_fneg : decode 0x0000001000100122#64 = .ok (.fneg .b1 0x0010#16 0x0010#16) := by decide
theorem test_decode_fmul : decode 0x0004000000200123#64 = .ok (.fmul .b1 0x0020#16 0x0000#16 0x0004#16) := by decide
theorem test_decode_fredc : decode 0x0000002000280025#64 = .ok (.fredc .b0 0x0028#16 0x0020#16) := by decide
theorem test_decode_fpow64 : decode 0x0010000000200026#64 = .ok (.fpow64 .b0 0x0020#16 0x0000#16 0x0010#16) := by decide
theorem test_decode_fpowb : decode 0x0010000000200827#64 = .ok (.fpowb .b0 0x0020#16 0x0000#16 0x0010#16 4) := by decide
theorem test_decode_fisone : decode 0x000000240000002A#64 = .ok (.fisone .b0 0x0024#16) := by decide
theorem test_decode_fsetone : decode 0x000000000010012B#64 = .ok (.fsetone .b1 0x0010#16) := by decide
theorem test_decode_aisinf : decode 0x0000003000000030#64 = .ok (.aisinf 0x0030#16) := by decide
theorem test_decode_adbl : decode 0x0000000000100034#64 = .ok (.adbl 0x0010#16 0x0000#16) := by decide
theorem test_decode_aadd : decode 0x0010000000180035#64 = .ok (.aadd 0x0018#16 0x0000#16 0x0010#16) := by decide
theorem test_decode_asmul64 : decode 0x0008000000180036#64 = .ok (.asmul64 0x0018#16 0x0000#16 0x0008#16) := by decide
theorem test_decode_asmulb : decode 0x0008000000180837#64 = .ok (.asmulb 0x0018#16 0x0000#16 0x0008#16 4) := by decide
theorem test_decode_asmulf : decode 0x0038003000400138#64 = .ok (.asmulf .b1 0x0040#16 0x0030#16 0x0038#16) := by decide
theorem test_decode_pfroma : decode 0x0000000000200040#64 = .ok (.pfroma 0x0020#16 0x0000#16) := by decide
theorem test_decode_ptoa : decode 0x0000002000300041#64 = .ok (.ptoa 0x0030#16 0x0020#16) := by decide
theorem test_decode_pisinf : decode 0x0000002000000042#64 = .ok (.pisinf 0x0020#16) := by decide
theorem test_decode_padd : decode 0x002C002000400044#64 = .ok (.padd 0x0040#16 0x0020#16 0x002C#16) := by decide
theorem test_decode_psmulb : decode 0x0010002000200846#64 = .ok (.psmulb 0x0020#16 0x0020#16 0x0010#16 4) := by decide
theorem test_decode_psmulf : decode 0x0010002000400147#64 = .ok (.psmulf .b1 0x0040#16 0x0020#16 0x0010#16) := by decide

/-! ### Decoding: words written out letter by letter from the `encoding` pattern of the opcode table -/

theorem test_decode_isub : decode 0x0A0B01020C0D0011#64 = .ok (.isub 0x0C0D#16 0x0102#16 0x0A0B#16) := by decide
theorem test_decode_isubr : decode 0x0A0B01020C0D0012#64 = .ok (.isubr 0x0C0D#16 0x0102#16 0x0A0B#16) := by decide
theorem test_decode_isqr : decode 0x000001020C0D0014#64 = .ok (.isqr 0x0C0D#16 0x0102#16) := by decide
theorem test_decode_fadd : decode 0x0A0B01020C0D0120#64 = .ok (.fadd .b1 0x0C0D#16 0x0102#16 0x0A0B#16) := by decide
theorem test_decode_fsub : decode 0x0A0B01020C0D0121#64 = .ok (.fsub .b1 0x0C0D#16 0x0102#16 0x0A0B#16) := by decide
theorem test_decode_fsqr : decode 0x000001020C0D0124#64 = .ok (.fsqr .b1 0x0C0D#16 0x0102#16) := by decide
theorem test_decode_finv : decode 0x000001020C0D0128#64 = .ok (.finv .b1 0x0C0D#16 0x0102#16) := by decide
theorem test_decode_fdiv : decode 0x0A0B01020C0D0129#64 = .ok (.fdiv .b1 0x0C0D#16 0x0102#16 0x0A0B#16) := by decide
theorem test_decode_ftostd : decode 0x000001020C0D012C#64 = .ok (.ftostd .b1 0x0C0D#16 0x0102#16) := by decide
theorem test_decode_ffromstd : decode 0x000001020C0D012D#64 = .ok (.ffromstd .b1 0x0C0D#16 0x0102#16) := by decide
theorem test_decode_aoncrv : decode 0x0000010200000031#64 = .ok (.aoncrv 0x0102#16) := by decide
theorem test_decode_ainsub : decode 0x0000010200000032#64 = .ok (.ainsub 0x0102#16) := by decide
theorem test_decode_aneg : decode 0x000001020C0D0033#64 = .ok (.aneg 0x0C0D#16 0x0102#16) := by decide
theorem test_decode_pdbl : decode 0x000001020C0D0043#64 = .ok (.pdbl 0x0C0D#16 0x0102#16) := by decide
theorem test_decode_psmul64 : decode 0x0A0B01020C0D0045#64 = .ok (.psmul64 0x0C0D#16 0x0102#16 0x0A0B#16) := by decide

/-! ### Illegal words of V6.2 -/

theorem test_illegal_unassigned_first : decodeTableWord 64 0x0000000000000002 = none := by decide
theorem test_illegal_unassigned_after_iclr : decodeTableWord 64 0x0000000000000019 = none := by decide
theorem test_illegal_unassigned_all_ones : decodeTableWord 64 0xFFFFFFFFFFFFFFFF = none := by decide
theorem test_illegal_halt_with_rd : decodeTableWord 64 0x0000000000010000 = none := by decide
theorem test_illegal_iadd_with_fs : decodeTableWord 64 0x0004000000080110 = none := by decide
theorem test_illegal_fadd_with_len : decodeTableWord 64 0x0004000000080220 = none := by decide
theorem test_illegal_itstz_with_rd : decodeTableWord 64 0x0000000800010015 = none := by decide
theorem test_illegal_stt_with_rb : decodeTableWord 64 0x0001000001000001 = none := by decide
theorem test_illegal_adbl_with_fs : decodeTableWord 64 0x0000000000100134 = none := by decide
theorem test_illegal_fsetone_with_ra : decodeTableWord 64 0x000000040010002B = none := by decide
theorem test_illegal_asmul64_with_len : decodeTableWord 64 0x0008000000180236 = none := by decide

/-! ### The states of the tests: F101 and E101 (95 section 2 and 3), BN254's p and 2^255 + 95 (section 4) -/

def f101 : Desc := ⟨quadOf 101, quadOf 102, quadOf 37, quadOf 56, quadOf 52, 0xC5B3F5DC83CD4E93#64⟩

def e101 : CurveTable := ⟨quadOf 74, quadOf 20, quadOf 60, quadOf 47, quadOf 96, quadOf 3⟩

/-- BN254's p (95 section 4), the words of the table. -/
def bn254 : Desc where
  P := ⟨0x3C208C16D87CFD47#64, 0x97816A916871CA8D#64, 0xB85045B68181585D#64, 0x30644E72E131A029#64⟩
  PP1 := ⟨0x3C208C16D87CFD48#64, 0x97816A916871CA8D#64, 0xB85045B68181585D#64, 0x30644E72E131A029#64⟩
  R1 := ⟨0xD35D438DC58F0D9D#64, 0x0A78EB28F5C70B3D#64, 0x666EA36F7879462C#64, 0x0E0A77C19A07DF2F#64⟩
  R2 := ⟨0xF32CFC5B538AFA89#64, 0xB5E71911D44501FB#64, 0x47AB1EFF0A417FF6#64, 0x06D89F71CAB8351F#64⟩
  R3 := ⟨0xB1CD6DAFDA1530DF#64, 0x62F210E6A7283DB6#64, 0xEF7F0B0C0ADA0AFB#64, 0x20FD6E902D592544#64⟩
  NINV := 0x87D20782E4866389#64

/-- The wide prime q = 2^255 + 95 (95 section 4). -/
def wide : Desc :=
  ⟨quadOf (2 ^ 255 + 95), quadOf (2 ^ 255 + 96), quadOf (2 ^ 255 - 95), quadOf 0x8D04,
    ⟨0xFFFFFFFFFF975767#64, 0xFFFFFFFFFFFFFFFF#64, 0xFFFFFFFFFFFFFFFF#64, 0x7FFFFFFFFFFFFFFF#64⟩, 0xB1DA46102B1DA461#64⟩

/-- BN254's r (95 section 4), the modulus of the scalar field. -/
def bn254R : Nat := 0x30644E72E131A029B85045B68181585D2833E84879B9709143E1F593F0000001

def x1 : Nat := 0x0123456789ABCDEFFEDCBA98765432100F1E2D3C4B5A69788796A5B4C3D2E1F0
def x2 : Nat := 0x7FFFFFFFFFFFFFFF80000000000000000000000000000001FFFFFFFFFFFFFFFF

/-- BUF of the tests: G at 0x00, a scalar 5 at 0x08, [0, 1] at 0x0A, 2G at 0x10, the triples of G and 2G at 0x20 and 0x30,
84 at 0x40, 57 at 0x44, 4788 (8 words) at 0x48, 3 at 0x50, x1 at 0x54, x2 at 0x58, zero at 0x5C, Infinity at 0x60, the triple
(0, 9, 0) at 0x68. -/
def demo : State :=
  let s : State := { State.reset with fd0 := f101, fd1 := f101, cv := e101, run := true }
  (((((((((((((((s.memWrite 0x00#16 8 (47 + 96 * 2 ^ 256)).memWrite 0x08#16 1 5).memWrite 0x0A#16 2 (2 ^ 64)).memWrite
    0x10#16 8 (95 + 98 * 2 ^ 256)).memWrite 0x20#16 12 (encP ⟨47, 96, 37⟩)).memWrite 0x30#16 12 (encP ⟨95, 98, 37⟩)).memWrite
    0x40#16 4 84).memWrite 0x44#16 4 57).memWrite 0x48#16 8 4788).memWrite 0x50#16 1 3).memWrite 0x54#16 4 x1).memWrite
    0x58#16 4 x2).memWrite 0x5C#16 4 0).memWrite 0x60#16 8 (2 ^ 512 - 1)).memWrite 0x68#16 12 (encP ⟨0, 9, 0⟩))

/-- The state after a command, if there is one. -/
def after (i : Instr) (s : State) : Option State :=
  match exec i s with
  | .next t => some t
  | .fault _ => none
  | .refused _ => none

/-- What a command writes at 0x80, as a `k`-word value. -/
def wrote (i : Instr) (k : Nat) (s : State := demo) : Option Nat := (after i s).map fun t => t.memRead 0x80#16 k

/-- What a command leaves in T. -/
def flag (i : Instr) (s : State := demo) : Option Bool := (after i s).map fun t => t.t

/-- How many free values a command draws, from a count of 0. -/
def drawn (i : Instr) (s : State) : Option Nat := (after i { s with freeCount := 0 }).map fun t => t.freeCount

/-! ### Sequencing (V6.3a, V6.3b) -/

theorem test_halt : (after .halt demo).map (fun t => (t.run, t.done, t.pc)) = some (false, true, 0#16) := by decide +kernel
theorem test_stt : wrote (.stt 0x80#16) 1 (demo.setT true) = some 1 := by decide +kernel

/-! ### The integer core (V5.3, V5.7, V5.12, V5.14, V5.19, V5.21, V5.22, V5.a3, V5.a4) -/

theorem test_iadd : (after (.iadd 0x56#16 0x54#16 0x58#16) demo).map (fun t => (t.memRead 0x56#16 4, t.memRead 0x54#16 2, t.t))
    = some (0x8123456789ABCDEF7EDCBA98765432100F1E2D3C4B5A697A8796A5B4C3D2E1EF, 0x0F1E2D3C4B5A69788796A5B4C3D2E1F0, false) := by
  decide +kernel
theorem test_iadd_carry : flag (.iadd 0x80#16 0x60#16 0x54#16) = some true := by decide +kernel
theorem test_isub : wrote (.isub 0x80#16 0x54#16 0x58#16) 4
    = some 0x8123456789ABCDF07EDCBA98765432100F1E2D3C4B5A69768796A5B4C3D2E1F1 := by decide +kernel
theorem test_isub_borrow : flag (.isub 0x80#16 0x54#16 0x58#16) = some true := by decide +kernel
theorem test_isubr : wrote (.isubr 0x80#16 0x54#16 0x58#16) 4
    = some 0x7EDCBA987654320F8123456789ABCDEFF0E1D2C3B4A5968978695A4B3C2D1E0F := by decide +kernel
theorem test_isubr_borrow : flag (.isubr 0x80#16 0x54#16 0x58#16) = some false := by decide +kernel
theorem test_imul : (wrote (.imul 0x80#16 0x54#16 0x58#16) 8).map (fun v => (limb v 0, limb v 3, limb v 4, limb v 7))
    = some (0x78695A4B3C2D1E10, 0xB8CADCEF01132538, 0x3E82C70B4F93D81B, 0x0091A2B3C4D5E6F7) := by decide +kernel
theorem test_isqr : (wrote (.isqr 0x80#16 0x54#16) 8).map (fun v => (limb v 0, limb v 3, limb v 4, limb v 7))
    = some (0xB2D80B6B1527C100, 0x7716581E4ABF5E08, 0xAAA4F00356609978, 0x00014B66DC33F6AC) := by decide +kernel
theorem test_itstz : (flag (.itstz 0x5C#16), flag (.itstz 0x54#16)) = (some true, some false) := by decide +kernel
theorem test_ieq : (flag (.ieq 0x54#16 0x54#16), flag (.ieq 0x54#16 0x58#16)) = (some true, some false) := by decide +kernel
theorem test_icopy_overlapping : (after (.icopy 0x56#16 0x54#16) demo).map (fun t => t.memRead 0x56#16 4) = some x1 := by
  decide +kernel
theorem test_iclr : (after (.iclr 0x54#16) demo).map (fun t => t.memRead 0x54#16 4) = some 0 := by decide +kernel

/-! ### The field on F101 (V2.1 to V2.14) -/

theorem test_fadd : wrote (.fadd .b0 0x80#16 0x40#16 0x44#16) 4 = some 40 := by decide +kernel
theorem test_fsub : wrote (.fsub .b0 0x80#16 0x44#16 0x40#16) 4 = some 74 := by decide +kernel
theorem test_fneg : wrote (.fneg .b1 0x80#16 0x40#16) 4 = some 17 := by decide +kernel
theorem test_fmul : wrote (.fmul .b0 0x80#16 0x40#16 0x44#16) 4 = some 83 := by decide +kernel
theorem test_fsqr : wrote (.fsqr .b0 0x80#16 0x40#16) 4 = some 16 := by decide +kernel
theorem test_fredc : wrote (.fredc .b0 0x80#16 0x48#16) 4 = some 83 := by decide +kernel
theorem test_fpow64 : wrote (.fpow64 .b0 0x80#16 0x40#16 0x50#16) 4 = some 80 := by decide +kernel
theorem test_fpowb : wrote (.fpowb .b0 0x80#16 0x40#16 0x0A#16 2) 4 = some 36 := by decide +kernel
theorem test_fpowb_len_zero : wrote (.fpowb .b0 0x80#16 0x40#16 0xFFFF#16 0) 4 = some 37 := by decide +kernel
theorem test_finv : wrote (.finv .b0 0x80#16 0x40#16) 4 = some 68 := by decide +kernel
theorem test_fdiv : wrote (.fdiv .b0 0x80#16 0x40#16 0x44#16) 4 = some 12 := by decide +kernel
theorem test_fisone : (flag (.fisone .b0 0x40#16), flag (.fisone .b0 0x28#16)) = (some false, some true) := by decide +kernel
theorem test_fsetone : wrote (.fsetone .b0 0x80#16) 4 = some 37 := by decide +kernel
theorem test_ftostd : wrote (.ftostd .b1 0x80#16 0x40#16) 4 = some 5 := by decide +kernel
theorem test_ffromstd : wrote (.ffromstd .b1 0x80#16 0x40#16) 4 = some 78 := by decide +kernel

/-! ### Full width: the descriptor check, V4.3, V4.15, V4.16, V4.16c -/

theorem test_wfCheck_bn254 : bn254.wfCheck = true := by decide +kernel
theorem test_wfCheck_wide : wide.wfCheck = true := by decide +kernel
theorem test_wfCheck_bn254_scalar : isPrime bn254R = true := by decide +kernel
theorem test_isPrime_small : (List.range 30).filter isPrime = [2, 3, 5, 7, 11, 13, 17, 19, 23, 29] := by decide +kernel
/-- The least composite that passes a strong probable prime test to the first thirteen prime bases. -/
theorem test_isPrime_refuses_pseudoprime : isPrime 3317044064679887385961981 = false := by
  rw [Bool.eq_false_iff, Ne, isPrime_iff]
  exact Nat.not_prime_of_mul_eq (a := 1287836182261) (b := 2575672364521) (by norm_num) (by norm_num) (by norm_num)
/-- Against the search over every x, for every cubic modulo 7. -/
theorem test_rootFree_mod_7 : ((List.range 7).all fun a => (List.range 7).all fun b =>
    rootFree 7 a b == (List.range 7).all fun x => (x ^ 3 + a * x + b) % 7 != 0) = true := by decide +kernel
/-- BN254 has odd order (95 section 4), so x³ + 3 has no root. -/
theorem test_rootFree_bn254 : rootFree bn254.p 0 3 = true := by decide +kernel
theorem test_redc_bn254 : fmul bn254 (fromstd bn254 2) (fromstd bn254 3)
    = 0x23DA8016BAFD9AF2AE478EE651564CAAA75418645A3878E5B80F093BC8DD5467 := by decide +kernel
theorem test_finv_bn254 : finv bn254 (fromstd bn254 2)
    = 0x1F37631A3D9CBFAC8F5F7492FCFD4F44D0FD2ADD2F1C6AE587BEE7D24F060572 := by decide +kernel
theorem test_fadd_wide : fadd wide (2 ^ 255 + 94) (2 ^ 255 + 93) = 2 ^ 255 + 92 := by decide +kernel
theorem test_redc_wide : redc wide (2 ^ 255 + 95 + (2 ^ 255 - 90) * 2 ^ 256) = 2 ^ 255 - 90 := by decide +kernel
theorem test_fneg_wide : fneg wide (2 ^ 255 + 94) = 1 := by decide +kernel

/-! ### The curve E101 (V3.1 to V3.18) -/

theorem test_aisinf : (flag (.aisinf 0x60#16), flag (.aisinf 0x00#16)) = (some true, some false) := by decide +kernel
theorem test_aoncrv : (flag (.aoncrv 0x00#16), flag (.aoncrv 0x60#16)) = (some true, some true) := by decide +kernel
theorem test_ainsub_cofactor : flag (.ainsub 0x00#16) = some false := by decide +kernel
theorem test_ainsub_order : flag (.ainsub 0x00#16) { demo with cv := { e101 with COF := quadOf 31 } } = some true := by
  decide +kernel
theorem test_aneg : wrote (.aneg 0x80#16 0x00#16) 8 = some (encA (.fin 47 5)) := by decide +kernel
theorem test_adbl : wrote (.adbl 0x80#16 0x00#16) 8 = some (encA (.fin 95 98)) := by decide +kernel
theorem test_aadd : wrote (.aadd 0x80#16 0x00#16 0x10#16) 8 = some (encA (.fin 15 40)) := by decide +kernel
theorem test_aadd_infinity : wrote (.aadd 0x80#16 0x60#16 0x10#16) 8 = some (encA (.fin 95 98)) := by decide +kernel
theorem test_asmul64 : wrote (.asmul64 0x80#16 0x00#16 0x08#16) 8 = some (encA (.fin 22 13)) := by decide +kernel
theorem test_asmulb_len_zero : wrote (.asmulb 0x80#16 0x00#16 0xFFFF#16 0) 8 = some (encA .inf) := by decide +kernel
theorem test_asmulb : wrote (.asmulb 0x80#16 0x00#16 0x08#16 1) 8 = some (encA (.fin 22 13)) := by decide +kernel
theorem test_asmulf : wrote (.asmulf .b1 0x80#16 0x00#16 0x40#16) 8 = some (encA (.fin 22 13)) := by decide +kernel
theorem test_pfroma : wrote (.pfroma 0x80#16 0x00#16) 12 = some (encP ⟨47, 96, 37⟩) := by decide +kernel
theorem test_ptoa : wrote (.ptoa 0x80#16 0x20#16) 8 = some (encA (.fin 47 96)) := by decide +kernel
theorem test_ptoa_infinity : wrote (.ptoa 0x80#16 0x68#16) 8 = some (encA .inf) := by decide +kernel
theorem test_pisinf : (flag (.pisinf 0x68#16), flag (.pisinf 0x20#16)) = (some true, some false) := by decide +kernel
theorem test_pdbl : wrote (.pdbl 0x80#16 0x20#16) 12 = some (encP ⟨61, 81, 11⟩) := by decide +kernel
theorem test_padd : wrote (.padd 0x80#16 0x20#16 0x30#16) 12 = some (encP ⟨56, 82, 91⟩) := by decide +kernel
theorem test_psmul64 : wrote (.psmul64 0x80#16 0x20#16 0x08#16) 12 = some (encP ⟨78, 92, 21⟩) := by decide +kernel
theorem test_psmulb : wrote (.psmulb 0x80#16 0x20#16 0x08#16 1) 12 = some (encP ⟨78, 92, 21⟩) := by decide +kernel
theorem test_psmulf : wrote (.psmulf .b1 0x80#16 0x20#16 0x40#16) 12 = some (encP ⟨78, 92, 21⟩) := by decide +kernel
/-- R116, G4: on y² = x³ + 100x (A = 100, B = 0), which has the point (0, 0), a unit with ProjRef has no WFC(C) for
ProjImpl's addition, another has; AONCRV, PFROMA and PTOA do not need the premise. -/
theorem test_wfc_order_two :
    let c : CurveTable := ⟨quadOf (fromstd f101 100), quadOf 0, quadOf 0, quadOf 0, quadOf 0, quadOf 1⟩
    (State.wfcCheck { demo with cv := c }, State.wfcCheck { demo with cv := c, projImpl := .other 1 }) = (false, true)
      ∧ flag (.aoncrv 0x00#16) { demo with cv := c } = some false
      ∧ wrote (.pfroma 0x80#16 0x00#16) 12 { demo with cv := c } = some (encP ⟨47, 96, 37⟩)
      ∧ wrote (.ptoa 0x80#16 0x20#16) 8 { demo with cv := c } = some (encA (.fin 47 96)) := by
  decide +kernel
/-- y² = x³ − 3x + 2 over F101, singular at (1, 0). -/
def singularTable : CurveTable :=
  ⟨quadOf (fromstd f101 98), quadOf (fromstd f101 2), quadOf (fromstd f101 6), quadOf (fromstd f101 1), quadOf 0, quadOf 1⟩
/-- U11, G1: a singular curve may meet R27; PTOA writes a free value on it. -/
theorem test_singular_curve :
    (Curve.wfCheck ⟨f101, singularTable⟩, Curve.specifiedCheck ⟨f101, singularTable⟩) = (true, false)
      ∧ drawn (.ptoa 0x80#16 0x20#16) { demo with cv := singularTable } = some 1
      ∧ drawn (.ptoa 0x80#16 0x20#16) demo = some 0 := by
  decide +kernel
theorem test_adbl_off_curve : adbl ⟨f101, e101⟩ (.fin 47 97) = some (.fin 94 91) := by decide +kernel
theorem test_aadd_unrelated : aadd ⟨f101, e101⟩ (.fin 47 96) (.fin 47 97) = none := by decide +kernel

/-! ### The step and the faults (V6.3a, d, f, h, k, l, m, n) -/

/-- The state after one step on the word `w` at pc, if there is one. -/
def stepOn (w : Nat) (s : State) : Option State :=
  match step (s.withFetchWord 64 w) with
  | .next t => some t
  | .fault _ => none
  | .refused _ => none

/-- STATUS, CAUSE, FINFO and pc after one step. -/
def report (w : Nat) (s : State) : Option (Word × BitVec 4 × Word × BitVec 16) :=
  (stepOn w s).map fun t => (t.status, t.cause, t.finfo, t.pc)

theorem test_step_halt : report 0 State.reset = some (0x2#64, 0#4, 0#64, 0#16) := by decide +kernel
theorem test_step_illegal : report 2 State.reset = some (0x4#64, 1#4, 2#64, 0#16) := by decide +kernel
theorem test_step_imul_past_end :
    report 0x00000000FFF90013 State.reset = some (0x4#64, 2#4, 0x00000000FFF90013#64, 0#16) := by decide +kernel
theorem test_step_iadd_past_end :
    report 0xFFFCFFFD00000010 State.reset = some (0x4#64, 2#4, 0xFFFCFFFD00000010#64, 0#16) := by decide +kernel
theorem test_step_halt_last_slot :
    report 0 { State.reset with pc := 0xFFFF#16 } = some (0x2#64, 0#4, 0#64, 0xFFFF#16) := by decide +kernel
theorem test_step_stt_last_slot :
    report 1 { State.reset with pc := 0xFFFF#16 } = some (0x4#64, 3#4, 1#64, 0xFFFF#16) := by decide +kernel
theorem test_step_illegal_before_overflow :
    report 2 { State.reset with pc := 0xFFFF#16 } = some (0x4#64, 1#4, 2#64, 0xFFFF#16) := by decide +kernel
theorem test_step_overflow_before_range :
    report 0x00000000FFF90013 { State.reset with pc := 0xFFFF#16 }
      = some (0x4#64, 3#4, 0x00000000FFF90013#64, 0xFFFF#16) := by decide +kernel
theorem test_step_first_fmul_advances :
    (stepOn 0x0004000000200123 State.reset).map (fun t => (t.pc, t.run)) = some (1#16, true) := by decide +kernel

/-! ### The host port (R23, R28, R29, R54, R136) -/

theorem test_host_map : [hostTarget 0x0FFFF#18, hostTarget 0x10000#18, hostTarget 0x20003#18, hostTarget 0x20024#18,
    hostTarget 0x20025#18, hostTarget 0x20050#18, hostTarget 0x20100#18]
      = [.bufWord 0xFFFF, .cmdWord 0, .pc, .desc .b0 20, .none, .curve 0, .none] := by decide +kernel
theorem test_host_launch : (hostWrite 0x20000#18 1#64 { State.reset with done := true, pc := 7#16 }).status = 1#64 := by
  decide +kernel
theorem test_host_write_discarded : hostWrite 0x00000#18 9#64 demo = demo := by decide +kernel
theorem test_host_srst_wins : (hostWrite 0x20000#18 3#64 demo).status = 0#64 := by decide +kernel
theorem test_host_reads_ninv : (hostRead 0x20024#18 { demo with run := false }).1 = 0xC5B3F5DC83CD4E93#64 := by decide +kernel

/-! ### The text form (R52) and the pseudo-instructions (R53) -/

theorem test_text : commandText (.fpowb .b0 0x0020#16 0x0000#16 0x0010#16 4) = "FPOWB.0 @0x0020, @0x0000, @0x0010, #4" := by
  decide +kernel
theorem test_expand_acopy : expand (.acopy 0x0010#16 0x0000#16)
    = some [.icopy 0x0010#16 0x0000#16, .icopy 0x0014#16 0x0004#16] := by decide

/-! ### Witnesses: for every statement with hypotheses, states and operands that meet them together -/

/-- `demo` with the word `w` at its pc. -/
def demoAt (w : Word) : State := { demo with cmd := demo.cmd.write 0 w }

def p101 : Curve := ⟨f101, e101⟩

theorem f101_wf : f101.WF where
  prime := by
    have h : f101.p = 101 := by decide +kernel
    rw [h]; norm_num
  odd := by decide +kernel
  ge_three := by decide +kernel
  top_word := by decide +kernel
  pp1 := by decide +kernel
  r1 := by decide +kernel
  r2 := by decide +kernel
  r3 := by decide +kernel
  ninv := by decide +kernel

theorem p101_wf : p101.WF where
  field := f101_wf
  a_reduced := by decide +kernel
  b_reduced := by decide +kernel
  b3_reduced := by decide +kernel
  genx_reduced := by decide +kernel
  geny_reduced := by decide +kernel
  b3_triple := by decide +kernel
  generator := by decide +kernel

theorem p101_specified : p101.Specified := ⟨p101_wf, Curve.nonsingularCheck_iff.mp (by decide +kernel)⟩

theorem p101_noOrderTwo : p101.NoOrderTwo := (Curve.noOrderTwoCheck_iff f101_wf).mp (by decide +kernel)

theorem demo_wfc : demo.WFC := ⟨p101_specified, fun _ => p101_noOrderTwo⟩

theorem demo_bank_wf (fs : Bank) : (demo.bank fs).WF := by cases fs <;> exact f101_wf

theorem demo_inv : demo.Inv where
  buf := by decide +kernel
  cmd := by decide +kernel
  one_status := by decide +kernel
  cause_le := by decide +kernel
  cause_faulted := by decide +kernel
  finfo := by intro; rfl

/-- Any word at the pc of `demo`. -/
theorem demoAt_inv (w : Word) : (demoAt w).Inv where
  buf := demo_inv.buf
  cmd := rfl
  one_status := ⟨rfl, rfl, rfl⟩
  cause_le := Nat.zero_le 3
  cause_faulted := by show (false = true ↔ (0#4 : BitVec 4) ≠ 0#4); decide
  finfo := fun _ => rfl

theorem readPt_G : demo.readPt 0x00#16 = .fin 47 96 := by decide +kernel
theorem readPt_2G : demo.readPt 0x10#16 = .fin 95 98 := by decide +kernel
theorem readTriple_G : demo.readTriple 0x20#16 = ⟨47, 96, 37⟩ := by decide +kernel
theorem readTriple_2G : demo.readTriple 0x30#16 = ⟨95, 98, 37⟩ := by decide +kernel
theorem valid_G : (demo.readTriple 0x20#16).Valid demo.fd0 := by
  rw [readTriple_G]; exact ⟨by decide +kernel, by decide +kernel, by decide +kernel⟩
theorem valid_2G : (demo.readTriple 0x30#16).Valid demo.fd0 := by
  rw [readTriple_2G]; exact ⟨by decide +kernel, by decide +kernel, by decide +kernel⟩

/-- The words of opcode `op` that the tests give `OpcodeIs`: one inside the used fields, one outside. -/
def opcodeWitness (op : BitVec 8) (u : Uses) (good bad : Word) : Bool :=
  (fieldsOf good).op == op && (fieldsOf good).within u && (fieldsOf bad).op == op && !(fieldsOf bad).within u

/-- One word inside and one outside the used fields for each `OpcodeIs` clause of the field, affine and projective statements;
FPOWB uses every field, so it has no word outside. -/
theorem witness_opcodes : ([
    (0x20#8, { rd := true, ra := true, rb := true, fs := true }, 0x9ABC567812340120#64, 0x9ABC567812340B20#64),
    (0x21#8, { rd := true, ra := true, rb := true, fs := true }, 0x9ABC567812340121#64, 0x9ABC567812340B21#64),
    (0x22#8, { rd := true, ra := true, fs := true }, 0x0000567812340122#64, 0x9ABC567812340122#64),
    (0x23#8, { rd := true, ra := true, rb := true, fs := true }, 0x9ABC567812340123#64, 0x9ABC567812340B23#64),
    (0x24#8, { rd := true, ra := true, fs := true }, 0x0000567812340124#64, 0x9ABC567812340124#64),
    (0x25#8, { rd := true, ra := true, fs := true }, 0x0000567812340125#64, 0x9ABC567812340125#64),
    (0x26#8, { rd := true, ra := true, rb := true, fs := true }, 0x9ABC567812340126#64, 0x9ABC567812340B26#64),
    (0x28#8, { rd := true, ra := true, fs := true }, 0x0000567812340128#64, 0x9ABC567812340128#64),
    (0x29#8, { rd := true, ra := true, rb := true, fs := true }, 0x9ABC567812340129#64, 0x9ABC567812340B29#64),
    (0x2A#8, { ra := true, fs := true }, 0x000056780000012A#64, 0x9ABC56780000012A#64),
    (0x2B#8, { rd := true, fs := true }, 0x000000001234012B#64, 0x9ABC00001234012B#64),
    (0x2C#8, { rd := true, ra := true, fs := true }, 0x000056781234012C#64, 0x9ABC56781234012C#64),
    (0x2D#8, { rd := true, ra := true, fs := true }, 0x000056781234012D#64, 0x9ABC56781234012D#64),
    (0x30#8, { ra := true }, 0x0000567800000030#64, 0x9ABC567800000030#64),
    (0x42#8, { ra := true }, 0x0000567800000042#64, 0x9ABC567800000042#64),
    (0x31#8, { ra := true }, 0x0000567800000031#64, 0x9ABC567800000031#64),
    (0x32#8, { ra := true }, 0x0000567800000032#64, 0x9ABC567800000032#64),
    (0x33#8, { rd := true, ra := true }, 0x0000567812340033#64, 0x9ABC567812340033#64),
    (0x34#8, { rd := true, ra := true }, 0x0000567812340034#64, 0x9ABC567812340034#64),
    (0x35#8, { rd := true, ra := true, rb := true }, 0x9ABC567812340035#64, 0x9ABC567812340A35#64),
    (0x36#8, { rd := true, ra := true, rb := true }, 0x9ABC567812340036#64, 0x9ABC567812340A36#64),
    (0x37#8, { rd := true, ra := true, rb := true, len := true }, 0x9ABC567812340A37#64, 0x9ABC567812340B37#64),
    (0x38#8, { rd := true, ra := true, rb := true, fs := true }, 0x9ABC567812340138#64, 0x9ABC567812340B38#64),
    (0x40#8, { rd := true, ra := true }, 0x0000567812340040#64, 0x9ABC567812340040#64),
    (0x41#8, { rd := true, ra := true }, 0x0000567812340041#64, 0x9ABC567812340041#64),
    (0x43#8, { rd := true, ra := true }, 0x0000567812340043#64, 0x9ABC567812340043#64),
    (0x44#8, { rd := true, ra := true, rb := true }, 0x9ABC567812340044#64, 0x9ABC567812340A44#64),
    (0x45#8, { rd := true, ra := true, rb := true }, 0x9ABC567812340045#64, 0x9ABC567812340A45#64),
    (0x46#8, { rd := true, ra := true, rb := true, len := true }, 0x9ABC567812340A46#64, 0x9ABC567812340B46#64),
    (0x47#8, { rd := true, ra := true, rb := true, fs := true }, 0x9ABC567812340147#64, 0x9ABC567812340B47#64)].all fun r => opcodeWitness r.1 r.2.1 r.2.2.1 r.2.2.2) = true
    ∧ (fieldsOf 0x9ABC567812340B27#64).op = 0x27#8
    ∧ (fieldsOf 0x9ABC567812340B27#64).within { rd := true, ra := true, rb := true, fs := true, len := true } = true := by
  decide +kernel

theorem witness_DecodeAndEncodeAreInverse : (Instr.fpowb .b1 0xFFFF#16 0#16 0x8000#16 127).wellFormed = true
    ∧ decode 0x8000000000FFFF27#64 = .ok (.fpowb .b1 0x00FF#16 0#16 0x8000#16 127) := by decide +kernel

theorem witness_OpcodeTableRowsDecodeExactly :
    ⟨"PSMULF", 0x000000000000FEFF#64, 0x0000000000000047#64⟩ ∈ opcodeRows := by decide +kernel

theorem witness_IllegalWordsAreThoseOutsideTheTable :
    ((demoAt 2#64).run = true ∧ decode (demoAt 2#64).fetch = .error (.unassignedOpcode 0x02#8))
      ∧ (∀ op ∈ [0x02, 0x0F, 0x19, 0x1F, 0x2E, 0x2F, 0x39, 0x3F, 0x48, 0xFF],
          decode (BitVec.ofNat 64 op) = .error (.unassignedOpcode (BitVec.ofNat 8 op))) := by decide +kernel

theorem witness_StepRunsTheDecodedCommand :
    ((demoAt 0x0004000000080010#64).run = true
      ∧ decode ((demoAt 0x0004000000080010#64).cmdWord (demoAt 0x0004000000080010#64).pc.toNat)
          = .ok (.iadd 0x0008#16 0x0000#16 0x0004#16))
      ∧ decodeTableWord 64 0x0004000000080010 = some (.iadd 0x0008#16 0x0000#16 0x0004#16) := by decide +kernel

/-- The last slot of CMD holds `STT @0x0100`. -/
def demoLast : State := { demo with pc := 0xFFFF#16, cmd := demo.cmd.write 0xFFFF 0x0000000001000001#64 }

theorem witness_FramingFaultsEnterWithTheirCodes :
    ((demoAt 2#64).run = true ∧ decode (demoAt 2#64).fetch = .error (.unassignedOpcode 0x02#8))
      ∧ (demoLast.run = true ∧ decode demoLast.fetch = .ok (.stt 0x0100#16) ∧ demoLast.pc = 0xFFFF#16)
      ∧ ((demoAt 0x00000000FFF90013#64).run = true
        ∧ decode (demoAt 0x00000000FFF90013#64).fetch = .ok (.imul 0xFFF9#16 0#16 0#16)
        ∧ (demoAt 0x00000000FFF90013#64).pc ≠ 0xFFFF#16
        ∧ ∃ o ∈ operandsOf (.imul 0xFFF9#16 0#16 0#16), 0 < o.2 ∧ 65536 < o.1.toNat + o.2) := by decide +kernel

theorem witness_IdleUnitDoesNothing : State.reset.run = false := rfl

theorem witness_CommandsCompleteWithinTheirFootprint :
    Instr.imul 0xFFF8#16 0xFFFC#16 0xFFFC#16 ≠ .halt ∧ Ready (.imul 0xFFF8#16 0xFFFC#16 0xFFFC#16) demo
      ∧ Ready (.fpowb .b0 0xFFFC#16 0xFFFC#16 0xFFFF#16 0) demo := by decide +kernel

theorem witness_PreconditionsExcludeUnspecifiedResults :
    Instr.fadd .b1 0x80#16 0x40#16 0x44#16 ≠ .halt ∧ Ready (.fadd .b1 0x80#16 0x40#16 0x44#16) demo
      ∧ Pre (.fadd .b1 0x80#16 0x40#16 0x44#16) demo :=
  ⟨by decide +kernel, by decide +kernel, demo_bank_wf _, by decide +kernel, by decide +kernel⟩

theorem witness_EveryRunEndsByTheLastSlot : demo.Inv ∧ demo.run = true ∧ demoLast.run = true := ⟨demo_inv, rfl, rfl⟩

theorem witness_StepsKeepCommandsAndTables : ∃ t, step (demoAt 0x0000006800000042#64) = .next t ∧ t.t = true :=
  ⟨_, rfl, by decide +kernel⟩

theorem witness_OnlyTheListedCommandsWriteT :
    (demoAt 0x0000006800000042#64).run = true ∧ decode (demoAt 0x0000006800000042#64).fetch = .ok (.pisinf 0x0068#16)
      ∧ ∃ t, step (demoAt 0x0000006800000042#64) = .next t ∧ t.t ≠ (demoAt 0x0000006800000042#64).t :=
  ⟨by decide +kernel, by decide +kernel, _, rfl, by decide +kernel⟩

theorem witness_OnlySttReadsT : (∀ rd, Instr.itstz 0x5C#16 ≠ .stt rd) ∧ (∃ t, exec (.itstz 0x5C#16) demo = .next t)
    ∧ writesT (.itstz 0x5C#16) = true ∧ Ready (.itstz 0x5C#16) demo :=
  ⟨fun _ h => Instr.noConfusion h, ⟨_, rfl⟩, rfl, by decide +kernel⟩

theorem witness_RelaunchRepeatsTheFault : (demoAt 2#64).Inv ∧ (demoAt 2#64).run = true
    ∧ ∃ t, step (demoAt 2#64) = .next t ∧ t.faulted = true :=
  ⟨demoAt_inv _, rfl, _, rfl, by decide +kernel⟩

theorem witness_EveryStepKeepsTheInvariant : demo.Inv ∧ (demoAt 0x0000006800000042#64).Inv
    ∧ ∃ t, step (demoAt 0x0000006800000042#64) = .next t := ⟨demo_inv, demoAt_inv _, _, rfl⟩

theorem witness_EveryHostAccessKeepsTheInvariant : demo.Inv ∧ demo.run = true ∧ State.reset.run = false :=
  ⟨demo_inv, rfl, rfl⟩

theorem witness_CtrlWritesLaunchOrReset :
    (2#64 : Word).getLsbD 1 = true
      ∧ ((1#64 : Word).getLsbD 1 = false ∧ (1#64 : Word).getLsbD 0 = true ∧ State.reset.run = false)
      ∧ ((1#64 : Word).getLsbD 1 = false ∧ demo.run = true)
      ∧ ((4#64 : Word).getLsbD 1 = false ∧ (4#64 : Word).getLsbD 0 = false) := by decide +kernel

theorem witness_RunningUnitIgnoresHostAccesses : demo.run = true ∧ (0x20001#18 : HostAddr) ≠ 0x20000#18 := by decide +kernel

/-- At the ends of every range. -/
theorem witness_IdleHostReadsBackWhatItWrote :
    State.reset.run = false
      ∧ ([0x00000#18, 0x1FFFF#18, 0x20010#18, 0x20024#18, 0x20030#18, 0x20044#18, 0x20050#18, 0x20067#18].all fun a =>
          decide (a.toNat < 0x20000 ∨ (0x20010 ≤ a.toNat ∧ a.toNat ≤ 0x20024) ∨ (0x20030 ≤ a.toNat ∧ a.toNat ≤ 0x20044)
            ∨ (0x20050 ≤ a.toNat ∧ a.toNat ≤ 0x20067))) = true
      ∧ (0x20002#18 ≠ 0x20003#18 ∧ 0x20003#18 ≠ 0x20000#18)
      ∧ ([0x20005#18, 0x2000F#18, 0x20025#18, 0x2002F#18, 0x20045#18, 0x2004F#18, 0x20068#18, 0x3FFFF#18].all fun a =>
          decide ((0x20005 ≤ a.toNat ∧ a.toNat ≤ 0x2000F) ∨ (0x20025 ≤ a.toNat ∧ a.toNat ≤ 0x2002F)
            ∨ (0x20045 ≤ a.toNat ∧ a.toNat ≤ 0x2004F) ∨ 0x20068 ≤ a.toNat)) = true
      ∧ 65535 < 65536 ∧ 20 < 21 ∧ 23 < 24 := by decide +kernel

theorem witness_ResetClearsTheControlState :
    State.reset.run = false ∧ decode (demoAt 2#64).fetch = .error (.unassignedOpcode 0x02#8)
      ∧ decode (demoAt 0x0004000000080010#64).fetch = .ok (.iadd 0x0008#16 0x0000#16 0x0004#16)
      ∧ OutsideDest (.iadd 0x0008#16 0x0000#16 0x0004#16) 7 ∧ OutsideDest (.iadd 0x0008#16 0x0000#16 0x0004#16) 12 := by
  refine ⟨rfl, by decide +kernel, by decide +kernel, ?_, ?_⟩ <;>
    (intro rd k h; simp only [destOf, Option.some.injEq, Prod.mk.injEq] at h; obtain ⟨rfl, rfl⟩ := h; decide)

theorem witness_HaltEndsTheRun : (fieldsOf 0x10000#64).op = 0x00#8 ∧ (0x10000#64 : Word) ≠ 0#64 := by decide +kernel

theorem witness_SttStoresTheFlag :
    opcodeWitness 0x01#8 { rd := true } 0xFFFF0001#64 0x1FFFF0001#64 = true ∧ demo.pc ≠ 0xFFFF#16 ∧ demoLast.pc = 0xFFFF#16 := by
  decide +kernel

theorem witness_IaddAddsExactlyWithCarryOut :
    opcodeWitness 0x10#8 { rd := true, ra := true, rb := true } 0x0004000000080010#64 0x0004000000080110#64 = true
      ∧ Ready (.iadd 0xFFFC#16 0x54#16 0x58#16) demo := by decide +kernel

theorem witness_IsubAndIsubrSubtractWithBorrowOut :
    opcodeWitness 0x11#8 { rd := true, ra := true, rb := true } 0x0004000000080011#64 0x0004000000080111#64 = true
      ∧ opcodeWitness 0x12#8 { rd := true, ra := true, rb := true } 0x0004000000080012#64 0x0004000000080212#64 = true
      ∧ Ready (.isub 0x80#16 0x54#16 0x58#16) demo ∧ Ready (.isubr 0x80#16 0x54#16 0x58#16) demo := by decide +kernel

theorem witness_ImulAndIsqrGiveTheFullProduct :
    opcodeWitness 0x13#8 { rd := true, ra := true, rb := true } 0x0004000000080013#64 0x0004000000080113#64 = true
      ∧ opcodeWitness 0x14#8 { rd := true, ra := true } 0x0000000400080014#64 0x0001000400080014#64 = true
      ∧ Ready (.imul 0xFFF8#16 0x54#16 0x58#16) demo ∧ Ready (.isqr 0xFFF8#16 0x54#16) demo
      ∧ demo.pc ≠ 0xFFFF#16 ∧ 0xFFF8 < (0xFFF9#16 : Addr).toNat := by decide +kernel

theorem witness_ItstzAndIeqSetTheFlag :
    opcodeWitness 0x15#8 { ra := true } 0x0000000400000015#64 0x0000000400010015#64 = true
      ∧ opcodeWitness 0x16#8 { ra := true, rb := true } 0x0004000000000016#64 0x0004000000010016#64 = true
      ∧ Ready (.itstz 0x5C#16) demo ∧ Ready (.ieq 0x54#16 0x54#16) demo := by decide +kernel

theorem witness_IcopyCopiesAndIclrClears :
    opcodeWitness 0x17#8 { rd := true, ra := true } 0x0000000400080017#64 0x0001000400080017#64 = true
      ∧ opcodeWitness 0x18#8 { rd := true } 0x0000000000080018#64 0x0000000100080018#64 = true
      ∧ Ready (.icopy 0x56#16 0x54#16) demo ∧ Ready (.iclr 0x54#16) demo := by decide +kernel

theorem witness_AcopyCopiesAPoint :
    demo.pc.toNat < 0xFFFE
      ∧ ([(0x10#16, 0x10#16), (0xFFF8#16, 0x00#16), (0x08#16, 0x10#16), (0x10#16, 0x08#16)].all fun p =>
        decide (p.1.toNat ≤ 0xFFF8 ∧ p.2.toNat ≤ 0xFFF8
          ∧ (p.1 = p.2 ∨ p.1.toNat + 8 ≤ p.2.toNat ∨ p.2.toNat + 8 ≤ p.1.toNat))) = true := by decide +kernel

theorem witness_RedcDividesByTheRadixModP : f101.WF ∧ 4788 < 2 ^ 256 * f101.p ∧ 2 ^ 256 * 71 % f101.p = 1 :=
  ⟨f101_wf, by decide +kernel, by decide +kernel⟩

theorem witness_FieldAdditionIsModular : f101.WF ∧ 84 < f101.p ∧ 100 < f101.p := ⟨f101_wf, by decide +kernel, by decide +kernel⟩

theorem witness_MontgomeryFormIsMultiplicative : f101.WF ∧ 84 < f101.p ∧ 0 < f101.p ∧ 2 ^ 256 * 71 % f101.p = 1 :=
  ⟨f101_wf, by decide +kernel, by decide +kernel, by decide +kernel⟩

theorem witness_FpowRaisesTheRepresentedValue : f101.WF ∧ 3 < 2 ^ 2 ∧ 0 < 84 ∧ 84 < f101.p ∧ f101.p ≤ 2 ^ 7 :=
  ⟨f101_wf, by decide +kernel, by decide +kernel, by decide +kernel, by decide +kernel⟩

theorem witness_FieldInversionAndDivision : f101.WF ∧ 0 < 84 ∧ 84 < f101.p ∧ 57 < f101.p ∧ 95 < f101.p ∧ 84 * 95 % f101.p = 1 :=
  ⟨f101_wf, by decide +kernel, by decide +kernel, by decide +kernel, by decide +kernel, by decide +kernel⟩

theorem witness_StandardFormConversionsAreInverse : f101.WF ∧ 100 < f101.p := ⟨f101_wf, by decide +kernel⟩

theorem witness_FieldAdditionCommandsWriteTheirResults :
    (Ready (.fadd .b1 0x80#16 0x40#16 0x44#16) demo ∧ Pre (.fadd .b1 0x80#16 0x40#16 0x44#16) demo)
      ∧ (Ready (.fsub .b1 0x80#16 0x40#16 0x44#16) demo ∧ Pre (.fsub .b1 0x80#16 0x40#16 0x44#16) demo)
      ∧ (Ready (.fneg .b0 0x80#16 0x40#16) demo ∧ Pre (.fneg .b0 0x80#16 0x40#16) demo) :=
  ⟨⟨by decide +kernel, demo_bank_wf _, by decide +kernel, by decide +kernel⟩,
    ⟨by decide +kernel, demo_bank_wf _, by decide +kernel, by decide +kernel⟩,
    ⟨by decide +kernel, demo_bank_wf _, by decide +kernel⟩⟩

theorem witness_FieldProductCommandsWriteTheirResults :
    (Ready (.fmul .b1 0x80#16 0x40#16 0x44#16) demo ∧ Pre (.fmul .b1 0x80#16 0x40#16 0x44#16) demo)
      ∧ (Ready (.fsqr .b1 0x80#16 0x40#16) demo ∧ Pre (.fsqr .b1 0x80#16 0x40#16) demo)
      ∧ (Ready (.fredc .b0 0x80#16 0x48#16) demo ∧ Pre (.fredc .b0 0x80#16 0x48#16) demo) :=
  ⟨⟨by decide +kernel, demo_bank_wf _, by decide +kernel, by decide +kernel⟩,
    ⟨by decide +kernel, demo_bank_wf _, by decide +kernel⟩,
    ⟨by decide +kernel, demo_bank_wf _, by decide +kernel⟩⟩

theorem witness_FieldPowerCommandsWriteTheirResults :
    (Ready (.fpow64 .b1 0x80#16 0x40#16 0x50#16) demo ∧ Pre (.fpow64 .b1 0x80#16 0x40#16 0x50#16) demo)
      ∧ (Ready (.fpowb .b1 0x80#16 0x40#16 0xFF81#16 127) demo ∧ Pre (.fpowb .b1 0x80#16 0x40#16 0xFF81#16 127) demo) :=
  ⟨⟨by decide +kernel, demo_bank_wf _, by decide +kernel⟩, ⟨by decide +kernel, demo_bank_wf _, by decide +kernel⟩⟩

theorem witness_FieldInverseCommandsWriteTheirResults :
    (Ready (.finv .b1 0x80#16 0x40#16) demo ∧ Pre (.finv .b1 0x80#16 0x40#16) demo)
      ∧ (Ready (.fdiv .b1 0x80#16 0x5C#16 0x44#16) demo ∧ Pre (.fdiv .b1 0x80#16 0x5C#16 0x44#16) demo) :=
  ⟨⟨by decide +kernel, demo_bank_wf _, by decide +kernel, by decide +kernel⟩,
    ⟨by decide +kernel, demo_bank_wf _, by decide +kernel, by decide +kernel, by decide +kernel⟩⟩

theorem witness_FisoneAndFsetoneUseR1 : Ready (.fisone .b0 0x40#16) demo ∧ Ready (.fsetone .b1 0xFFFC#16) demo := by
  decide +kernel

theorem witness_FieldConversionCommandsWriteTheirResults :
    (Ready (.ftostd .b1 0x80#16 0x40#16) demo ∧ Pre (.ftostd .b1 0x80#16 0x40#16) demo)
      ∧ (Ready (.ffromstd .b1 0x80#16 0x40#16) demo ∧ Pre (.ffromstd .b1 0x80#16 0x40#16) demo) :=
  ⟨⟨by decide +kernel, demo_bank_wf _, by decide +kernel⟩, ⟨by decide +kernel, demo_bank_wf _, by decide +kernel⟩⟩

theorem witness_InversionOfZeroWritesAnUnspecifiedValue :
    Ready (.finv .b0 0x80#16 0x5C#16) demo ∧ Ready (.fdiv .b0 0x80#16 0x40#16 0x5C#16) demo ∧ demo.memRead 0x5C#16 4 = 0 := by
  decide +kernel

theorem witness_AffineEncodingIsFaithful : f101.WF ∧ (Pt.fin 47 96).Valid f101 ∧ Pt.inf.Valid f101 :=
  ⟨f101_wf, ⟨by decide +kernel, by decide +kernel⟩, trivial⟩

theorem witness_OncurveIsTheCurveEquation : p101.F.WF ∧ quadVal p101.cv.A < p101.F.p ∧ quadVal p101.cv.B < p101.F.p
    ∧ 47 < p101.F.p ∧ 96 < p101.F.p :=
  ⟨f101_wf, by decide +kernel, by decide +kernel, by decide +kernel, by decide +kernel⟩

theorem witness_AffineAdditionLaws : p101.WF ∧ (Pt.fin 47 96).Valid p101.F ∧ (Pt.fin 95 98).Valid p101.F :=
  ⟨p101_wf, ⟨by decide +kernel, by decide +kernel⟩, ⟨by decide +kernel, by decide +kernel⟩⟩

theorem witness_AffineOperationsStayOnTheCurve : p101.WF ∧ (Pt.fin 47 96).Valid p101.F
    ∧ oncurve p101 (.fin 47 96) = true ∧ adbl p101 (.fin 47 96) = some (.fin 95 98)
    ∧ oncurve p101 (.fin 95 98) = true ∧ aadd p101 (.fin 47 96) (.fin 95 98) = some (.fin 15 40)
    ∧ smul p101 5 3 (.fin 47 96) = some (.fin 22 13) :=
  ⟨p101_wf, ⟨by decide +kernel, by decide +kernel⟩, by decide +kernel, by decide +kernel, by decide +kernel, by decide +kernel,
    by decide +kernel⟩

theorem witness_ScalarMultipleBasics : p101.WF ∧ (Pt.fin 47 96).Valid p101.F ∧ oncurve p101 (.fin 47 96) = true
    ∧ 0 < 1 ∧ 5 < 2 ^ 3 ∧ 5 < 2 ^ 64 :=
  ⟨p101_wf, ⟨by decide +kernel, by decide +kernel⟩, by decide +kernel, by decide, by decide, by decide⟩

theorem witness_InfinityTestsSetTheFlag : Ready (.aisinf 0xFFF8#16) demo ∧ Ready (.pisinf 0xFFF4#16) demo := by decide +kernel

theorem witness_CurveTestsSetTheFlag :
    (Ready (.aoncrv 0x00#16) demo ∧ Pre (.aoncrv 0x00#16) demo) ∧ (Ready (.ainsub 0x00#16) demo ∧ Pre (.ainsub 0x00#16) demo) := by
  refine ⟨⟨by decide +kernel, p101_specified, ?_⟩, ⟨by decide +kernel, demo_wfc, ?_, fun _ => ⟨.fin 15 40, by decide +kernel⟩⟩⟩ <;>
    rw [readPt_G] <;> exact ⟨by decide +kernel, by decide +kernel⟩

theorem witness_AnegNegatesThePoint : (Ready (.aneg 0x80#16 0x00#16) demo ∧ Pre (.aneg 0x80#16 0x00#16) demo)
    ∧ Pre (.aneg 0x80#16 0x60#16) demo ∧ demo.readPt 0x00#16 = .fin 47 96 ∧ demo.readPt 0x60#16 = .inf := by
  have h : demo.readPt 0x60#16 = .inf := by decide +kernel
  refine ⟨⟨by decide +kernel, f101_wf, ?_⟩, ⟨f101_wf, ?_⟩, readPt_G, h⟩
  · intro x y e; rw [readPt_G] at e; cases e; decide +kernel
  · intro x y e; rw [h] at e; cases e

theorem witness_AffineAdditionCommandsWriteTheSum : demo.curve.Specified
    ∧ (Ready (.adbl 0x80#16 0x00#16) demo ∧ adbl demo.curve (demo.readPt 0x00#16) = some (.fin 95 98))
    ∧ (Ready (.aadd 0x80#16 0x00#16 0x10#16) demo
      ∧ aadd demo.curve (demo.readPt 0x00#16) (demo.readPt 0x10#16) = some (.fin 15 40)) :=
  ⟨p101_specified, by decide +kernel, by decide +kernel⟩

theorem witness_AffineMultiplicationCommandsWriteTheMultiple : demo.WFC
    ∧ (Ready (.asmul64 0x80#16 0x00#16 0x08#16) demo
      ∧ smul demo.curve (demo.memRead 0x08#16 1) 64 (demo.readPt 0x00#16) = some (.fin 22 13))
    ∧ (Ready (.asmulb 0x80#16 0x00#16 0x08#16 1) demo
      ∧ smul demo.curve (demo.memRead 0x08#16 1) (64 * 1) (demo.readPt 0x00#16) = some (.fin 22 13))
    ∧ (Ready (.asmulf .b1 0x80#16 0x00#16 0x40#16) demo ∧ (demo.bank .b1).WF ∧ demo.memRead 0x40#16 4 < (demo.bank .b1).p
      ∧ smul demo.curve (tostd (demo.bank .b1) (demo.memRead 0x40#16 4)) 256 (demo.readPt 0x00#16) = some (.fin 22 13)) :=
  ⟨demo_wfc, by decide +kernel, by decide +kernel, by decide +kernel, demo_bank_wf _, by decide +kernel, by decide +kernel⟩

theorem witness_EveryProjImplRepresentsTheAffineGroup : p101.WF ∧ (Pt.fin 47 96).Valid p101.F
    ∧ Triple.Valid p101.F ⟨47, 96, 37⟩ ∧ Triple.Valid p101.F ⟨95, 98, 37⟩
    ∧ rep p101 ⟨47, 96, 37⟩ = .fin 47 96 ∧ rep p101 ⟨95, 98, 37⟩ = .fin 95 98
    ∧ oncurve p101 (.fin 47 96) = true ∧ oncurve p101 (.fin 95 98) = true
    ∧ adbl p101 (.fin 47 96) = some (.fin 95 98) ∧ aadd p101 (.fin 47 96) (.fin 95 98) = some (.fin 15 40)
    ∧ 5 < 2 ^ 3 ∧ smul p101 5 3 (.fin 47 96) = some (.fin 22 13) :=
  ⟨p101_wf, ⟨by decide +kernel, by decide +kernel⟩, ⟨by decide +kernel, by decide +kernel, by decide +kernel⟩,
    ⟨by decide +kernel, by decide +kernel, by decide +kernel⟩, by decide +kernel⟩

theorem witness_ConversionCommandsKeepThePoint :
    (Ready (.pfroma 0x80#16 0x00#16) demo ∧ Pre (.pfroma 0x80#16 0x00#16) demo)
      ∧ (Ready (.ptoa 0x80#16 0x20#16) demo ∧ Pre (.ptoa 0x80#16 0x20#16) demo) := by
  refine ⟨⟨by decide +kernel, p101_specified, ?_⟩, by decide +kernel, p101_specified, valid_G⟩
  rw [readPt_G]; exact ⟨by decide +kernel, by decide +kernel⟩

/-- The triples of G and 2G meet the hypotheses of each of the five clauses. -/
theorem witness_ProjectiveCommandsRepresentTheAffineResult :
    (demo.WFC ∧ (demo.readTriple 0x20#16).Valid demo.fd0 ∧ (demo.readTriple 0x30#16).Valid demo.fd0
      ∧ oncurve demo.curve (rep demo.curve (demo.readTriple 0x20#16)) = true
      ∧ oncurve demo.curve (rep demo.curve (demo.readTriple 0x30#16)) = true)
    ∧ (Ready (.pdbl 0x80#16 0x20#16) demo ∧ adbl demo.curve (rep demo.curve (demo.readTriple 0x20#16)) = some (.fin 95 98))
    ∧ (Ready (.padd 0x80#16 0x20#16 0x30#16) demo
      ∧ aadd demo.curve (rep demo.curve (demo.readTriple 0x20#16)) (rep demo.curve (demo.readTriple 0x30#16))
          = some (.fin 15 40))
    ∧ (Ready (.psmul64 0x80#16 0x20#16 0x08#16) demo ∧ Ready (.psmulb 0x80#16 0x20#16 0x08#16 1) demo
      ∧ smul demo.curve (demo.memRead 0x08#16 1) 64 (rep demo.curve (demo.readTriple 0x20#16)) = some (.fin 22 13))
    ∧ (Ready (.psmulf .b1 0x80#16 0x20#16 0x40#16) demo ∧ (demo.bank .b1).WF ∧ demo.memRead 0x40#16 4 < (demo.bank .b1).p
      ∧ smul demo.curve (tostd (demo.bank .b1) (demo.memRead 0x40#16 4)) 256 (rep demo.curve (demo.readTriple 0x20#16))
          = some (.fin 22 13)) :=
  ⟨⟨demo_wfc, valid_G, valid_2G, by decide +kernel, by decide +kernel⟩, by decide +kernel, by decide +kernel,
    by decide +kernel, by decide +kernel, demo_bank_wf _, by decide +kernel, by decide +kernel⟩

theorem witness_ProjectiveCommandsWriteValidTriples : (demo.WFC ∧ (demo.readTriple 0x20#16).Valid demo.fd0
    ∧ (demo.readTriple 0x30#16).Valid demo.fd0) ∧ (Ready (.pdbl 0x80#16 0x20#16) demo
    ∧ Ready (.padd 0x80#16 0x20#16 0x30#16) demo ∧ Ready (.psmul64 0x80#16 0x20#16 0x08#16) demo
    ∧ Ready (.psmulb 0x80#16 0x20#16 0x08#16 1) demo ∧ Ready (.psmulf .b1 0x80#16 0x20#16 0x40#16) demo)
    ∧ (demo.bank .b1).WF ∧ demo.memRead 0x40#16 4 < (demo.bank .b1).p :=
  ⟨⟨demo_wfc, valid_G, valid_2G⟩, by decide +kernel, demo_bank_wf _, by decide +kernel⟩

theorem witness_AffineFormulasOnRepresentedValues : p101.WF ∧ (47 < p101.F.p ∧ 0 < 96 ∧ 96 < p101.F.p)
    ∧ ¬(47 < p101.F.p ∧ 0 < 0 ∧ 0 < p101.F.p) ∧ (47 ≠ 95 ∧ 95 < p101.F.p ∧ 98 < p101.F.p)
    ∧ (96 ≠ 97 ∧ 96 ≠ fneg p101.F 97) := ⟨p101_wf, by decide +kernel⟩

/-- One of each shape: field (division by zero), flag (a coordinate not reduced), affine (a doubling at y = 0; a singular
curve) and projective (a triple not reduced). -/
theorem witness_ViolatedPreconditionsWriteUnspecifiedValues :
    (Instr.finv .b0 0x80#16 0x5C#16 ≠ .halt ∧ Ready (.finv .b0 0x80#16 0x5C#16) demo
      ∧ ¬ PreChecked (.finv .b0 0x80#16 0x5C#16) demo)
    ∧ (Instr.aoncrv 0x54#16 ≠ .halt ∧ Ready (.aoncrv 0x54#16) demo ∧ ¬ PreChecked (.aoncrv 0x54#16) demo)
    ∧ (Instr.adbl 0x80#16 0x6C#16 ≠ .halt ∧ Ready (.adbl 0x80#16 0x6C#16) demo ∧ ¬ PreChecked (.adbl 0x80#16 0x6C#16) demo)
    ∧ (Instr.pdbl 0x80#16 0x54#16 ≠ .halt ∧ Ready (.pdbl 0x80#16 0x54#16) demo
      ∧ ¬ PreChecked (.pdbl 0x80#16 0x54#16) demo)
    ∧ (Instr.adbl 0x80#16 0x00#16 ≠ .halt ∧ Ready (.adbl 0x80#16 0x00#16) { demo with cv := singularTable }
      ∧ ¬ PreChecked (.adbl 0x80#16 0x00#16) { demo with cv := singularTable }) := by
  have h1 : demo.readPt 0x54#16 = .fin x1 x2 := by decide +kernel
  have h2 : demo.readPt 0x6C#16 = .fin 9 0 := by decide +kernel
  refine ⟨⟨by decide, by decide +kernel, fun h => ?_⟩, ⟨by decide, by decide +kernel, fun h => ?_⟩,
    ⟨by decide, by decide +kernel, fun h => ?_⟩, ⟨by decide, by decide +kernel, fun h => ?_⟩,
    ⟨by decide, by decide +kernel, fun h => h.1.nonsingular (by decide +kernel)⟩⟩
  · exact absurd h.2.1 (by decide +kernel)
  · simp only [PreChecked, Pre, h1, Pt.Valid] at h
    exact absurd h.2.1 (by decide +kernel)
  · exact absurd (h.2 9 0 h2).2.1 (by decide)
  · have hv : (demo.readTriple 0x54#16).x < demo.fd0.p := h.2.1
    exact absurd hv (by decide +kernel)

end Sys2Proof.Machine.Tests
end

section
/-! The effect of a command between the checks of R55 and the advance of pc (R11, R35): one lemma says for every command what it
writes and that a free value is drawn exactly where its precondition fails.  The footprint, the absence of unspecified results
inside the precondition and the unspecified results outside it all follow from that lemma. -/

namespace Sys2Proof.Machine

/-! ### Where the rules give a result -/

@[simp] theorem State.curve_F (s : State) : s.curve.F = s.fd0 := rfl
@[simp] theorem State.curve_cv (s : State) : s.curve.cv = s.cv := rfl

@[simp] theorem whenPre_isSome (c : Bool) (v : Nat) : (whenPre c v).isSome = c := by
  cases c <;> rfl

theorem ptResult_isSome_iff {c : Bool} {P : Option Pt} :
    (ptResult c P).isSome = true ↔ c = true ∧ ∃ R, P = some R := by
  cases c with
  | false => simp [ptResult]
  | true => simp [ptResult, Option.isSome_iff_exists]

theorem anegPre_iff {F : Desc} {P : Pt} : anegPre F P = true ↔ F.WF ∧ ∀ x y, P = .fin x y → y < F.p := by
  cases P with
  | inf => simp [anegPre]
  | fin x y => simp [anegPre]

/-- The domain of doubling (R100) is the Precondition line of ADBL (R107). -/
theorem adbl_defined_iff {C : Curve} {P : Pt} :
    (∃ R, adbl C P = some R) ↔ ∀ x y, P = .fin x y → x < C.F.p ∧ 0 < y ∧ y < C.F.p := by
  cases P with
  | inf => simp [adbl]
  | fin x y => simp [adbl, and_assoc, and_comm (a := 0 < y)]

theorem aadd_inf_inf (C : Curve) : aadd C .inf .inf = some .inf := rfl

theorem smulLoop_inf (C : Curve) (k i : Nat) : smulLoop C k .inf i .inf = some .inf := by
  induction i with
  | zero => rfl
  | succ i ih => cases hk : k.testBit i <;> simp [smulLoop, adbl, hk, aadd_inf_inf, ih]

theorem smul_inf (C : Curve) (k nb : Nat) : smul C k nb .inf = some .inf := smulLoop_inf C k nb

/-- AINSUB has a rule's answer exactly under its Precondition line (R105); at Infinity no multiple is computed, but it exists. -/
theorem insub_isSome_iff {wfc : Bool} {C : Curve} {P : Pt} :
    (insub wfc C P).isSome = true ↔ wfc = true ∧ P.Valid C.F
      ∧ (oncurve C P = true → ∃ Q, smul C (quadVal C.cv.COF) 256 P = some Q) := by
  by_cases hpre : wfc = true ∧ P.Valid C.F
  · cases hon : oncurve C P with
    | false => simp [insub, hpre, hon]
    | true =>
      cases P with
      | inf => simp [insub, hpre, hon, smul_inf]
      | fin x y => simp [insub, hpre, hon, Option.isSome_iff_exists]
  · have hnone : insub wfc C P = none := by simp [insub, hpre]
    rw [hnone]
    simpa using fun hw hv => absurd ⟨hw, hv⟩ hpre

/-! ### The effect of a command -/

/-- `e` is `s` after the effect of command `i` on exactly its footprint (R35): its destination words, T, or both.  The result is
one that a rule gives when `fixed` holds and an unspecified value when it does not (R11). -/
inductive EffectOf (i : Instr) (s : State) (fixed : Prop) : State → Prop
  | words {rd : Addr} {k : Nat} {v : Option Nat} (hdest : destOf i = some (rd, k)) (hflag : writesT i = false)
      (hfixed : v.isSome = true ↔ fixed) : EffectOf i s fixed (s.writeResult rd k v)
  | flag {b : Option Bool} (hdest : destOf i = none) (hflag : writesT i = true)
      (hfixed : b.isSome = true ↔ fixed) : EffectOf i s fixed (s.flagResult b)
  | both {rd : Addr} {k v : Nat} {b : Bool} (hdest : destOf i = some (rd, k)) (hflag : writesT i = true)
      (hfixed : fixed) : EffectOf i s fixed ((s.memWrite rd k v).setT b)

section Shapes

variable {i : Instr} {s : State} {fixed : Prop} {rd : Addr} {k v : Nat}

/-- A command without a precondition that writes words. -/
theorem EffectOf.value (hdest : destOf i = some (rd, k)) (hflag : writesT i = false) (hfixed : fixed) :
    EffectOf i s fixed (s.memWrite rd k v) :=
  .words (v := some v) hdest hflag (by simpa using hfixed)

/-- A command without a precondition that writes T. -/
theorem EffectOf.truth {b : Bool} (hdest : destOf i = none) (hflag : writesT i = true) (hfixed : fixed) :
    EffectOf i s fixed (s.setT b) :=
  .flag (b := some b) hdest hflag (by simpa using hfixed)

/-- A command that writes a number under a checked precondition. -/
theorem EffectOf.checked {c : Bool} (hdest : destOf i = some (rd, k)) (hflag : writesT i = false)
    (hfixed : c = true ↔ fixed) : EffectOf i s fixed (s.writeResult rd k (whenPre c v)) :=
  .words hdest hflag (by rwa [whenPre_isSome])

/-- A command that writes an affine point under a checked precondition, where the function that gives the point is defined. -/
theorem EffectOf.point {c : Bool} {P : Option Pt} (hdest : destOf i = some (rd, k)) (hflag : writesT i = false)
    (hfixed : (c = true ∧ ∃ R, P = some R) ↔ fixed) : EffectOf i s fixed (s.writeResult rd k (ptResult c P)) :=
  .words hdest hflag (ptResult_isSome_iff.trans hfixed)

end Shapes

/-- Every command but HALT is its effect inside the frame of R55, and its result is fixed exactly where its precondition, as
far as it is checked, holds. -/
theorem exec_effect (i : Instr) (s : State) (hi : i ≠ .halt) :
    ∃ e, exec i s = issue i s e ∧ EffectOf i s (PreChecked i s) e := by
  cases i with
  | halt => exact absurd rfl hi
  | stt | imul | isqr | icopy | iclr | fsetone => exact ⟨_, rfl, .value rfl rfl trivial⟩
  | iadd | isub | isubr => exact ⟨_, rfl, .both rfl rfl trivial⟩
  | itstz | ieq | fisone | aisinf | pisinf => exact ⟨_, rfl, .truth rfl rfl trivial⟩
  | fneg | fsqr | fredc | fpow64 | fpowb | ftostd | ffromstd =>
    exact ⟨_, rfl, .checked rfl rfl (by simp [PreChecked, Pre])⟩
  | fadd | fsub | fmul | finv | fdiv => exact ⟨_, rfl, .checked rfl rfl (by simp [PreChecked, Pre, and_assoc])⟩
  | aoncrv => exact ⟨_, rfl, .flag rfl rfl (Option.isSome_ite.trans (by simp [PreChecked, Pre]))⟩
  | ainsub => exact ⟨_, rfl, .flag rfl rfl (by simp [PreChecked, Pre, insub_isSome_iff])⟩
  | aneg => exact ⟨_, rfl, .point rfl rfl (by simp [PreChecked, Pre, anegPre_iff])⟩
  | adbl => exact ⟨_, rfl, .point rfl rfl (by simp [PreChecked, Pre, adbl_defined_iff])⟩
  | aadd | asmul64 | asmulb | ptoa => exact ⟨_, rfl, .point rfl rfl (by simp [PreChecked, Pre])⟩
  | asmulf => exact ⟨_, rfl, .point rfl rfl (by simp [PreChecked, Pre, and_assoc])⟩
  | pfroma => exact ⟨_, rfl, .checked rfl rfl (by simp [PreChecked, Pre])⟩
  | pdbl | psmul64 | psmulb => exact ⟨_, rfl, .checked rfl rfl (by simp [PreChecked])⟩
  | padd | psmulf => exact ⟨_, rfl, .checked rfl rfl (by simp [PreChecked, and_assoc])⟩

/-- A ready command executes: its effect, and then pc + 1. -/
theorem exec_ready {i : Instr} {s : State} (hi : i ≠ .halt) (hready : Ready i s) :
    ∃ e, exec i s = .next e.advance ∧ EffectOf i s (PreChecked i s) e := by
  obtain ⟨e, hexec, heffect⟩ := exec_effect i s hi
  exact ⟨e, by rw [hexec, issue, framingFault_of_ready hready], heffect⟩

/-! ### What an effect leaves unchanged -/

theorem frameKept_advance (i : Instr) (s : State) : FrameKept i s s.advance :=
  ⟨rfl, fun _ _ => rfl, fun _ => rfl, rfl, rfl, rfl, rfl, rfl, rfl, rfl, rfl, rfl, rfl⟩

theorem frameKept_memWrite {i : Instr} {s : State} {rd : Addr} {k : Nat} (v : Nat) (hdest : destOf i = some (rd, k)) :
    FrameKept i s (s.memWrite rd k v).advance :=
  { frameKept_advance i s with
    buf := fun a ha => s.read_memWrite_outside rd k v a (ha rd k hdest) }

theorem FrameKept.setT {i : Instr} {s e : State} (h : FrameKept i s e.advance) (b : Bool) (hflag : writesT i = true) :
    FrameKept i s (e.setT b).advance :=
  { h with flag := fun hno => absurd (hflag.symm.trans hno) (by decide) }

theorem FrameKept.draw {i : Instr} {s e : State} (h : FrameKept i s e.advance) : FrameKept i s e.draw.advance :=
  { h with }

theorem EffectOf.frameKept {i : Instr} {s e : State} {fixed : Prop} (h : EffectOf i s fixed e) :
    FrameKept i s e.advance := by
  cases h with
  | @words rd k v hdest _ _ =>
    obtain ⟨x, -, he⟩ | ⟨-, he⟩ := s.writeResult_cases rd k v <;> rw [he]
    · exact frameKept_memWrite x hdest
    · exact (frameKept_memWrite _ hdest).draw
  | @flag b _ hflag _ =>
    obtain ⟨x, -, he⟩ | ⟨-, he⟩ := s.flagResult_cases b <;> rw [he]
    · exact (frameKept_advance i s).setT x hflag
    · exact ((frameKept_advance i s).setT _ hflag).draw
  | both hdest hflag _ => exact (frameKept_memWrite _ hdest).setT _ hflag

/-! ### Fixed and unspecified results -/

theorem freeWords_lt (n i k : Nat) : freeWords n i k < 2 ^ (64 * k) := by
  induction k generalizing i with
  | zero => simp [freeWords]
  | succ k ih =>
    have hword := (Config.freeWord n i).isLt
    have hrest := ih (i + 1)
    rw [freeWords, Nat.mul_succ, Nat.pow_add]
    omega

/-- The words drawn for a destination are read back from it whole. -/
theorem State.memRead_memWrite_freeWords (s : State) (rd : Addr) (n k : Nat) :
    (s.memWrite rd k (freeWords n 0 k)).memRead rd k = freeWords n 0 k := by
  rw [State.memRead_memWrite_same, Nat.mod_eq_of_lt (freeWords_lt n 0 k)]

theorem EffectOf.freeCount_of_fixed {i : Instr} {s e : State} {fixed : Prop} (h : EffectOf i s fixed e) (hf : fixed) :
    e.freeCount = s.freeCount := by
  cases h with
  | words _ _ hfixed =>
    obtain ⟨x, rfl⟩ := Option.isSome_iff_exists.mp (hfixed.mpr hf)
    rfl
  | flag _ _ hfixed =>
    obtain ⟨x, rfl⟩ := Option.isSome_iff_exists.mp (hfixed.mpr hf)
    rfl
  | both _ _ _ => rfl

/-- The next free value has been drawn, and it is what the destination words, or T, hold (R11; log 5). -/
structure FreeResult (i : Instr) (s t : State) : Prop where
  drawn : t.freeCount = s.freeCount + 1
  words : ∀ rd k, destOf i = some (rd, k) → t.memRead rd k = freeWords s.freeCount 0 k
  flag : writesT i = true → t.t = Config.freeBit s.freeCount

theorem EffectOf.freeResult_of_not_fixed {i : Instr} {s e : State} {fixed : Prop} (h : EffectOf i s fixed e)
    (hf : ¬ fixed) : FreeResult i s e.advance := by
  cases h with
  | @words rd k v hdest hflag hfixed =>
    obtain rfl : v = none := by simpa [← hfixed] using hf
    refine ⟨rfl, fun rd' k' hdest' => ?_, fun hyes => absurd (hflag.symm.trans hyes) (by decide)⟩
    obtain ⟨rfl, rfl⟩ : rd = rd' ∧ k = k' := by simpa [hdest] using hdest'
    simpa [State.writeResult] using s.memRead_memWrite_freeWords rd s.freeCount k
  | @flag b hdest _ hfixed =>
    obtain rfl : b = none := by simpa [← hfixed] using hf
    exact ⟨rfl, fun rd k hdest' => absurd (hdest.symm.trans hdest') (by simp), fun _ => rfl⟩
  | both _ _ hfixed => exact absurd hfixed hf

/-- The whole precondition is checked, but for the hypotheses of R115 in the projective operations (U7). -/
theorem preChecked_of_pre {i : Instr} {s : State} (h : Pre i s) : PreChecked i s := by
  cases i with
  | pdbl | psmul64 | psmulb =>
    obtain ⟨hwfc, hvalid, -⟩ := h
    exact ⟨hwfc, hvalid⟩
  | padd =>
    obtain ⟨hwfc, hleft, hright, -⟩ := h
    exact ⟨hwfc, hleft, hright⟩
  | psmulf =>
    obtain ⟨hwfc, hbank, hscalar, hvalid, -⟩ := h
    exact ⟨hwfc, hbank, hscalar, hvalid⟩
  | _ => exact h

/-- A ready command whose checked precondition fails completes, keeps its frame and delivers the next free value. -/
theorem exec_freeResult {i : Instr} {s : State} (hi : i ≠ .halt) (hready : Ready i s) (hpre : ¬ PreChecked i s) :
    ∃ t, exec i s = .next t ∧ FrameKept i s t ∧ FreeResult i s t := by
  obtain ⟨e, hexec, heffect⟩ := exec_ready hi hready
  exact ⟨e.advance, hexec, heffect.frameKept, heffect.freeResult_of_not_fixed hpre⟩

/-! ### Every step answers a next state -/

theorem exec_answers_next (i : Instr) (s : State) : ∃ t, exec i s = .next t := by
  by_cases hi : i = .halt
  · subst hi
    exact ⟨_, rfl⟩
  · obtain ⟨e, hexec, -⟩ := exec_effect i s hi
    obtain ⟨x, -, hissue⟩ | ⟨-, hissue⟩ := issue_cases i s e <;> exact ⟨_, hexec.trans hissue⟩

/-- Everything a step can do (R55): nothing while RUN = 0, the fault of an illegal word, or the command that the word decodes
to. -/
theorem step_cases (s : State) :
    (s.run = false ∧ step s = .next s)
      ∨ (s.run = true ∧ (∃ x, decode s.fetch = .error x) ∧ step s = .next (s.raise .illegalCommand s.fetch))
      ∨ (s.run = true ∧ ∃ i, decode s.fetch = .ok i ∧ step s = exec i s) := by
  cases hrun : s.run with
  | false => exact .inl ⟨rfl, by simp [step, hrun]⟩
  | true =>
    cases hdecode : decode s.fetch with
    | error x => exact .inr (.inl ⟨rfl, ⟨x, rfl⟩, by simp [step, hrun, hdecode]⟩)
    | ok i => exact .inr (.inr ⟨rfl, i, rfl, by simp [step, hrun, hdecode]⟩)

theorem step_answers_next (s : State) : ∃ t, step s = .next t := by
  obtain ⟨-, hstep⟩ | ⟨-, -, hstep⟩ | ⟨-, i, -, hstep⟩ := step_cases s
  · exact ⟨_, hstep⟩
  · exact ⟨_, hstep⟩
  · rw [hstep]
    exact exec_answers_next i s

/-! ### The obligations -/

/-- Settles O8, by the cases of the step and of the frame of R55: a fault entry is a next state too. -/
theorem everyStepAnswersANextState : Obligations.EveryStepAnswersANextState :=
  ⟨step_answers_next, exec_answers_next⟩

/-- Settles O9: whatever the precondition, the effect of a ready command stays in its footprint. -/
theorem commandsCompleteWithinTheirFootprint : Obligations.CommandsCompleteWithinTheirFootprint := by
  intro i s hi hready
  obtain ⟨e, hexec, heffect⟩ := exec_ready hi hready
  exact ⟨e.advance, hexec, heffect.frameKept⟩

/-- Settles O10: where the precondition holds the result is a rule's, so no free value is drawn. -/
theorem preconditionsExcludeUnspecifiedResults : Obligations.PreconditionsExcludeUnspecifiedResults := by
  intro i s hi hready hpre
  obtain ⟨e, hexec, heffect⟩ := exec_ready hi hready
  exact ⟨e.advance, hexec, heffect.frameKept, heffect.freeCount_of_fixed (preChecked_of_pre hpre), trivial⟩

/-- Settles O60: where the checked precondition fails, the effect of the command is the next free value. -/
theorem violatedPreconditionsWriteUnspecifiedValues : Obligations.ViolatedPreconditionsWriteUnspecifiedValues := by
  intro i s hi hready hpre
  obtain ⟨t, hexec, hframe, hfree⟩ := exec_freeResult hi hready hpre
  exact ⟨t, hexec, hframe, hfree.drawn, hfree.words, hfree.flag⟩

/-- Settles O44: a zero operand violates the precondition of FINV and FDIV, under any descriptor. -/
theorem inversionOfZeroWritesAnUnspecifiedValue : Obligations.InversionOfZeroWritesAnUnspecifiedValue := by
  constructor
  · intro fs rd ra s hready hzero
    have hpre : ¬ PreChecked (.finv fs rd ra) s := fun ⟨_, hpos, _⟩ => hpos.ne' hzero
    obtain ⟨t, hexec, hframe, hfree⟩ := exec_freeResult (by simp) hready hpre
    exact ⟨t, hexec, hframe, hfree.words rd 4 rfl, hfree.drawn⟩
  · intro fs rd ra rb s hready hzero
    have hpre : ¬ PreChecked (.fdiv fs rd ra rb) s := fun ⟨_, _, hpos, _⟩ => hpos.ne' hzero
    obtain ⟨t, hexec, hframe, hfree⟩ := exec_freeResult (by simp) hready hpre
    exact ⟨t, hexec, hframe, hfree.words rd 4 rfl, hfree.drawn⟩

end Sys2Proof.Machine
end

section
/-! The host port (R20, R23, R28, R29): the address map places every word the host can reach at one address, one rule says what a
host write does and one what a host read answers, and a place reads back what the host stored there and nothing else. -/

namespace Sys2Proof.Machine

/-! ### The address map (R28) -/

/-- The place exists: its index lies inside the memory or the table it names (R24, R26, R28). -/
def HostTarget.Placed : HostTarget → Prop
  | .bufWord a => a < 0x10000
  | .cmdWord i => i < 0x10000
  | .desc _ i => i < 21
  | .curve i => i < 24
  | .ctrl | .status | .cause | .pc | .finfo => True
  | .none => False

/-- The address of a place (R28); `none` has none. -/
def HostTarget.address : HostTarget → Nat
  | .bufWord a => a
  | .cmdWord i => 0x10000 + i
  | .ctrl => 0x20000
  | .status => 0x20001
  | .cause => 0x20002
  | .pc => 0x20003
  | .finfo => 0x20004
  | .desc .b0 i => 0x20010 + i
  | .desc .b1 i => 0x20030 + i
  | .curve i => 0x20050 + i
  | .none => 0

/-- The address is reserved or unassigned (R28). -/
def ReservedAddress (n : Nat) : Prop :=
  (0x20005 ≤ n ∧ n ≤ 0x2000F) ∨ (0x20025 ≤ n ∧ n ≤ 0x2002F) ∨ (0x20045 ≤ n ∧ n ≤ 0x2004F) ∨ 0x20068 ≤ n

theorem hostTarget_buf {a : HostAddr} (h : a.toNat < 0x10000) : hostTarget a = .bufWord a.toNat := if_pos h

theorem hostTarget_cmd {a : HostAddr} {i : Nat} (hi : i < 0x10000) (ha : a.toNat = 0x10000 + i) :
    hostTarget a = .cmdWord i := by
  rw [hostTarget, if_neg (by omega), if_pos (by omega), ha, Nat.add_sub_cancel_left]

theorem hostTarget_reg {a : HostAddr} {o : Nat} (ho : o < 0x100) (ha : a.toNat = 0x20000 + o) :
    hostTarget a = regTarget o := by
  rw [hostTarget, if_neg (by omega), if_neg (by omega), if_pos (by omega), ha, Nat.add_sub_cancel_left]

theorem hostTarget_unassigned {a : HostAddr} (h : 0x20100 ≤ a.toNat) : hostTarget a = .none := by
  rw [hostTarget, if_neg (by omega), if_neg (by omega), if_neg h.not_gt]

theorem regTarget_desc0 {i : Nat} (h : i < 21) : regTarget (0x10 + i) = .desc .b0 i := by
  interval_cases i <;> rfl

theorem regTarget_desc1 {i : Nat} (h : i < 21) : regTarget (0x30 + i) = .desc .b1 i := by
  interval_cases i <;> rfl

theorem regTarget_curve {i : Nat} (h : i < 24) : regTarget (0x50 + i) = .curve i := by
  interval_cases i <;> rfl

/-- A register offset names a place at this offset, or it is reserved. -/
theorem regTarget_cases (o : Nat) :
    ((regTarget o).Placed ∧ (regTarget o).address = 0x20000 + o)
      ∨ (regTarget o = .none ∧ ReservedAddress (0x20000 + o)) := by
  unfold regTarget
  split_ifs <;>
    simp only [HostTarget.Placed, HostTarget.address, ReservedAddress, true_and, false_and, or_false, false_or] <;>
    omega

/-- An address names a place that exists and has this address, or it is reserved or unassigned. -/
theorem hostTarget_cases (a : HostAddr) :
    (∃ t, hostTarget a = t ∧ t.Placed ∧ a.toNat = t.address)
      ∨ (hostTarget a = .none ∧ ReservedAddress a.toNat) := by
  by_cases hbuf : a.toNat < 0x10000
  · exact .inl ⟨_, hostTarget_buf hbuf, hbuf, rfl⟩
  obtain ⟨n, hn⟩ : ∃ n, a.toNat = 0x10000 + n := ⟨a.toNat - 0x10000, by omega⟩
  by_cases hcmd : n < 0x10000
  · exact .inl ⟨_, hostTarget_cmd hcmd hn, hcmd, hn⟩
  obtain ⟨o, ho⟩ : ∃ o, a.toNat = 0x20000 + o := ⟨n - 0x10000, by omega⟩
  by_cases hreg : o < 0x100
  · obtain ⟨hplaced, haddr⟩ | ⟨hnone, hreserved⟩ := regTarget_cases o
    · exact .inl ⟨_, hostTarget_reg hreg ho, hplaced, ho.trans haddr.symm⟩
    · exact .inr ⟨(hostTarget_reg hreg ho).trans hnone, ho ▸ hreserved⟩
  · exact .inr ⟨hostTarget_unassigned (by omega), .inr (.inr (.inr (by omega)))⟩

/-- The map reaches every place at its address. -/
theorem hostTarget_of_address {a : HostAddr} {t : HostTarget} (hplaced : t.Placed) (ha : a.toNat = t.address) :
    hostTarget a = t := by
  cases t with
  | bufWord n =>
    rw [hostTarget_buf (ha.trans_lt hplaced), ha]
    rfl
  | cmdWord i => exact hostTarget_cmd hplaced ha
  | ctrl => exact hostTarget_reg (o := 0x00) (by decide) ha
  | status => exact hostTarget_reg (o := 0x01) (by decide) ha
  | cause => exact hostTarget_reg (o := 0x02) (by decide) ha
  | pc => exact hostTarget_reg (o := 0x03) (by decide) ha
  | finfo => exact hostTarget_reg (o := 0x04) (by decide) ha
  | desc b i =>
    simp only [HostTarget.Placed] at hplaced
    cases b with
    | b0 => exact (hostTarget_reg (by omega) (ha.trans (Nat.add_assoc 0x20000 0x10 i))).trans (regTarget_desc0 hplaced)
    | b1 => exact (hostTarget_reg (by omega) (ha.trans (Nat.add_assoc 0x20000 0x30 i))).trans (regTarget_desc1 hplaced)
  | curve i =>
    simp only [HostTarget.Placed] at hplaced
    exact (hostTarget_reg (by omega) (ha.trans (Nat.add_assoc 0x20000 0x50 i))).trans (regTarget_curve hplaced)
  | none => exact hplaced.elim

/-- No place stands at a reserved address. -/
theorem HostTarget.Placed.not_reserved {t : HostTarget} (h : t.Placed) : ¬ ReservedAddress t.address := by
  cases t with
  | desc b i => cases b <;> simp only [HostTarget.Placed, HostTarget.address, ReservedAddress] at h ⊢ <;> omega
  | none => exact h.elim
  | _ => simp only [HostTarget.Placed, HostTarget.address, ReservedAddress] at h ⊢; omega

theorem HostTarget.Placed.ne_none {t : HostTarget} (h : t.Placed) : t ≠ .none := by
  rintro rfl
  exact h

theorem hostTarget_eq_iff {a : HostAddr} {t : HostTarget} (hplaced : t.Placed) :
    hostTarget a = t ↔ a.toNat = t.address := by
  refine ⟨fun h => ?_, hostTarget_of_address hplaced⟩
  obtain ⟨u, hu, -, ha⟩ | ⟨hnone, -⟩ := hostTarget_cases a
  · rwa [hu.symm.trans h] at ha
  · exact absurd (h.symm.trans hnone) hplaced.ne_none

theorem hostTarget_eq_none_iff {a : HostAddr} : hostTarget a = .none ↔ ReservedAddress a.toNat := by
  obtain ⟨t, ht, hplaced, ha⟩ | ⟨hnone, hreserved⟩ := hostTarget_cases a
  · rw [ht, ha]
    exact iff_of_false hplaced.ne_none hplaced.not_reserved
  · exact iff_of_true hnone hreserved

theorem hostTarget_eq_ctrl_iff {a : HostAddr} : hostTarget a = .ctrl ↔ a = 0x20000#18 := by
  rw [hostTarget_eq_iff (t := .ctrl) trivial, ← BitVec.toNat_inj]
  rfl

/-- Two addresses name the same place only if they are equal, or name none. -/
theorem hostTarget_injective {a b : HostAddr} {t : HostTarget} (hplaced : t.Placed) (ha : hostTarget a = t)
    (hb : hostTarget b = t) : a = b := by
  rw [hostTarget_eq_iff hplaced] at ha hb
  exact BitVec.eq_of_toNat_eq (ha.trans hb.symm)

/-! ### The words of the tables (R24, R26) -/

theorem descWord_eq_getD (F : Desc) {i : Nat} (h : i < 21) : descWord F i = (descWords F).getD i 0#64 := by
  interval_cases i <;> rfl

theorem descWords_descSetWord (F : Desc) {i : Nat} (v : Word) (h : i < 21) :
    descWords (descSetWord F i v) = (descWords F).set i v := by
  interval_cases i <;> rfl

theorem curveWord_eq_getD (T : CurveTable) {i : Nat} (h : i < 24) : curveWord T i = (curveWords T).getD i 0#64 := by
  interval_cases i <;> rfl

theorem curveWords_curveSetWord (T : CurveTable) {i : Nat} (v : Word) (h : i < 24) :
    curveWords (curveSetWord T i v) = (curveWords T).set i v := by
  interval_cases i <;> rfl

theorem descWord_descSetWord_same (F : Desc) {i : Nat} (v : Word) (hi : i < 21) :
    descWord (descSetWord F i v) i = v := by
  rw [descWord_eq_getD _ hi, descWords_descSetWord F v hi, List.getD_eq_getElem?_getD, List.getElem?_set_self hi,
    Option.getD_some]

theorem descWord_descSetWord_other (F : Desc) {i j : Nat} (v : Word) (hi : i < 21) (hj : j < 21) (hne : j ≠ i) :
    descWord (descSetWord F i v) j = descWord F j := by
  rw [descWord_eq_getD _ hj, descWord_eq_getD _ hj, descWords_descSetWord F v hi, List.getD_eq_getElem?_getD,
    List.getElem?_set_ne hne.symm, List.getD_eq_getElem?_getD]

theorem curveWord_curveSetWord_same (T : CurveTable) {i : Nat} (v : Word) (hi : i < 24) :
    curveWord (curveSetWord T i v) i = v := by
  rw [curveWord_eq_getD _ hi, curveWords_curveSetWord T v hi, List.getD_eq_getElem?_getD, List.getElem?_set_self hi,
    Option.getD_some]

theorem curveWord_curveSetWord_other (T : CurveTable) {i j : Nat} (v : Word) (hi : i < 24) (hj : j < 24) (hne : j ≠ i) :
    curveWord (curveSetWord T i v) j = curveWord T j := by
  rw [curveWord_eq_getD _ hj, curveWord_eq_getD _ hj, curveWords_curveSetWord T v hi, List.getD_eq_getElem?_getD,
    List.getElem?_set_ne hne.symm, List.getD_eq_getElem?_getD]

@[simp] theorem State.bank_setBank_same (s : State) (b : Bank) (F : Desc) : (s.setBank b F).bank b = F := by
  cases b <;> rfl

theorem State.bank_setBank_other (s : State) {b c : Bank} (F : Desc) (h : c ≠ b) : (s.setBank b F).bank c = s.bank c := by
  cases b with
  | b0 =>
    cases c with
    | b0 => exact absurd rfl h
    | b1 => rfl
  | b1 =>
    cases c with
    | b0 => rfl
    | b1 => exact absurd rfl h

/-! ### What a host write stores and what a host read finds -/

/-- The host's store of one word at a place of an idle unit; `hostWrite_idle` says that it is what a host write other than to
CTRL does. -/
def State.storeWord (s : State) (t : HostTarget) (v : Word) : State :=
  match t with
  | .bufWord a => { s with buf := s.buf.write a v }
  | .cmdWord i => { s with cmd := s.cmd.write i v }
  | .pc => { s with pc := v.extractLsb' 0 16 }
  | .desc b i => s.setBank b (descSetWord (s.bank b) i v)
  | .curve i => { s with cv := curveSetWord s.cv i v }
  | .ctrl | .status | .cause | .finfo | .none => s

/-- The places that keep the whole word that the host writes. -/
def HostTarget.KeepsWord : HostTarget → Prop
  | .bufWord _ | .cmdWord _ | .desc .. | .curve _ => True
  | .ctrl | .status | .cause | .pc | .finfo | .none => False

/-- The addresses of these places (R28): BUF, CMD, FD[0], FD[1] and CV. -/
def WholeWordAddress (n : Nat) : Prop :=
  n < 0x20000 ∨ (0x20010 ≤ n ∧ n ≤ 0x20024) ∨ (0x20030 ≤ n ∧ n ≤ 0x20044) ∨ (0x20050 ≤ n ∧ n ≤ 0x20067)

theorem HostTarget.keepsWord_of_address {t : HostTarget} (hplaced : t.Placed) (h : WholeWordAddress t.address) :
    t.KeepsWord := by
  cases t with
  | bufWord | cmdWord | desc | curve => trivial
  | ctrl | status | cause | pc | finfo => simp [WholeWordAddress, HostTarget.address] at h
  | none => exact hplaced.elim

theorem State.storeWord_run (s : State) (t : HostTarget) (v : Word) : (s.storeWord t v).run = s.run := by
  cases t with
  | desc b i => cases b <;> rfl
  | _ => rfl

/-- A place that keeps the whole word reads it back. -/
theorem State.hostWord_storeWord_same (s : State) {t : HostTarget} (v : Word) (hplaced : t.Placed) (hkeeps : t.KeepsWord) :
    (s.storeWord t v).hostWord t = v := by
  cases t with
  | bufWord a => simp [State.storeWord, State.hostWord, State.bufWord]
  | cmdWord i => simp [State.storeWord, State.hostWord, State.cmdWord]
  | desc b i => simp [State.storeWord, State.hostWord, descWord_descSetWord_same _ _ hplaced]
  | curve i => exact curveWord_curveSetWord_same s.cv v hplaced
  | _ => exact hkeeps.elim

theorem State.hostWord_storeWord_none (s : State) (t : HostTarget) (v : Word) :
    (s.storeWord t v).hostWord .none = s.hostWord .none := rfl

/-- A store changes what is found at no other place. -/
theorem State.hostWord_storeWord_other (s : State) {t u : HostTarget} (v : Word) (ht : t.Placed) (hu : u.Placed)
    (hne : u ≠ t) : (s.storeWord t v).hostWord u = s.hostWord u := by
  cases t with
  | bufWord a =>
    cases u with
    | bufWord b =>
      have hba : b ≠ a := fun h => hne (h ▸ rfl)
      simp [State.storeWord, State.hostWord, State.bufWord, Memory.read_write_other _ _ hba]
    | _ => rfl
  | cmdWord i =>
    cases u with
    | cmdWord j =>
      have hji : j ≠ i := fun h => hne (h ▸ rfl)
      simp [State.storeWord, State.hostWord, State.cmdWord, Memory.read_write_other _ _ hji]
    | _ => rfl
  | pc =>
    cases u with
    | pc => exact absurd rfl hne
    | _ => rfl
  | desc b i =>
    cases u with
    | desc c j =>
      by_cases hcb : c = b
      · subst hcb
        have hji : j ≠ i := fun h => hne (h ▸ rfl)
        simp [State.storeWord, State.hostWord, descWord_descSetWord_other _ _ ht hu hji]
      · simp [State.storeWord, State.hostWord, State.bank_setBank_other _ _ hcb]
    | _ => cases b <;> rfl
  | curve i =>
    cases u with
    | curve j => exact curveWord_curveSetWord_other s.cv v ht hu fun h => hne (h ▸ rfl)
    | _ => rfl
  | ctrl | status | cause | finfo | none => rfl

theorem State.pc_storeWord_pc (s : State) (v : Word) : ((s.storeWord .pc v).hostWord .pc).toNat = v.toNat % 65536 := by
  have hlt : v.toNat % 65536 < 2 ^ 64 := (Nat.mod_lt _ (by decide)).trans (by decide)
  simpa [State.storeWord, State.hostWord] using hlt

/-! ### Writes to CTRL (R23) -/

theorem State.writeCtrl_reset (s : State) {v : Word} (hreset : v.getLsbD 1 = true) : s.writeCtrl v = s.srst :=
  if_pos hreset

theorem State.writeCtrl_launch {s : State} {v : Word} (hreset : v.getLsbD 1 = false) (hstart : v.getLsbD 0 = true)
    (hrun : s.run = false) : s.writeCtrl v = s.launch := by
  rw [State.writeCtrl, hreset, hstart, hrun]
  rfl

theorem State.writeCtrl_running {s : State} {v : Word} (hreset : v.getLsbD 1 = false) (hrun : s.run = true) :
    s.writeCtrl v = s := by
  rw [State.writeCtrl, hreset, hrun, Bool.not_true, Bool.and_false]
  rfl

theorem State.writeCtrl_no_start (s : State) {v : Word} (hreset : v.getLsbD 1 = false) (hstart : v.getLsbD 0 = false) :
    s.writeCtrl v = s := by
  rw [State.writeCtrl, hreset, hstart]
  rfl

/-- Everything a write to CTRL can do. -/
theorem State.writeCtrl_cases (s : State) (v : Word) :
    s.writeCtrl v = s.srst ∨ s.writeCtrl v = s.launch ∨ s.writeCtrl v = s := by
  unfold State.writeCtrl
  split_ifs
  · exact .inl rfl
  · exact .inr (.inl rfl)
  · exact .inr (.inr rfl)

/-! ### Host accesses (R23, R29) -/

theorem hostWrite_ctrl {a : HostAddr} (v : Word) (s : State) (h : hostTarget a = .ctrl) :
    hostWrite a v s = s.writeCtrl v := by
  rw [hostWrite, h]

theorem hostWrite_running {a : HostAddr} (v : Word) {s : State} (h : hostTarget a ≠ .ctrl) (hrun : s.run = true) :
    hostWrite a v s = s := by
  unfold hostWrite
  split
  · contradiction
  · exact if_pos hrun

theorem hostWrite_idle {a : HostAddr} (v : Word) {s : State} (h : hostTarget a ≠ .ctrl) (hrun : s.run = false) :
    hostWrite a v s = s.storeWord (hostTarget a) v := by
  unfold hostWrite
  split
  · contradiction
  · rw [if_neg (by simp [hrun])]
    rfl

/-- Everything a host write can do (R23, R29). -/
theorem hostWrite_cases (a : HostAddr) (v : Word) (s : State) :
    hostWrite a v s = s.writeCtrl v ∨ hostWrite a v s = s ∨ hostWrite a v s = s.storeWord (hostTarget a) v := by
  by_cases h : hostTarget a = .ctrl
  · exact .inl (hostWrite_ctrl v s h)
  · cases hrun : s.run with
    | true => exact .inr (.inl (hostWrite_running v h hrun))
    | false => exact .inr (.inr (hostWrite_idle v h hrun))

theorem hostRead_idle (a : HostAddr) {s : State} (hrun : s.run = false) :
    hostRead a s = (s.hostWord (hostTarget a), s) := by
  simp [hostRead, hrun]

theorem hostRead_status (s : State) {a : HostAddr} (h : hostTarget a = .status) : hostRead a s = (s.status, s) := by
  simp [hostRead, h, State.hostWord]

/-- A host read changes nothing but the count of the free values drawn (R29; log 6). -/
theorem hostRead_state_cases (a : HostAddr) (s : State) : (hostRead a s).2 = s ∨ (hostRead a s).2 = s.draw := by
  unfold hostRead
  split
  · exact .inr rfl
  · exact .inl rfl

/-- What an idle unit answers at one address after a write to another. -/
theorem hostRead_hostWrite {a : HostAddr} (b : HostAddr) (v : Word) {s : State} (h : hostTarget a ≠ .ctrl)
    (hrun : s.run = false) :
    (hostRead b (hostWrite a v s)).1 = (s.storeWord (hostTarget a) v).hostWord (hostTarget b) := by
  rw [hostWrite_idle v h hrun, hostRead_idle b ((s.storeWord_run _ v).trans hrun)]

/-- An idle unit reads back the word written to a place that keeps it whole. -/
theorem hostRead_hostWrite_same {a : HostAddr} (v : Word) {s : State} (h : WholeWordAddress a.toNat)
    (hrun : s.run = false) : (hostRead a (hostWrite a v s)).1 = v := by
  obtain ⟨t, ht, hplaced, haddr⟩ | ⟨-, hreserved⟩ := hostTarget_cases a
  · have hkeeps := HostTarget.keepsWord_of_address hplaced (haddr ▸ h)
    have hctrl : hostTarget a ≠ .ctrl := fun hc => (ht.symm.trans hc ▸ hkeeps : HostTarget.KeepsWord .ctrl)
    rw [hostRead_hostWrite a v hctrl hrun, ht, s.hostWord_storeWord_same v hplaced hkeeps]
  · unfold WholeWordAddress at h
    unfold ReservedAddress at hreserved
    omega

theorem hostWrite_readOnly {a : HostAddr} (v : Word) {s : State}
    (h : hostTarget a = .status ∨ hostTarget a = .cause ∨ hostTarget a = .finfo) (hrun : s.run = false) :
    hostWrite a v s = s := by
  obtain h | h | h := h <;>
  · rw [hostWrite_idle v (by simp [h]) hrun, h]
    rfl

/-- An idle unit answers at every address but the written one what it answered before. -/
theorem hostRead_hostWrite_other {a b : HostAddr} (v : Word) {s : State} (hne : b ≠ a) (hctrl : hostTarget a ≠ .ctrl)
    (hrun : s.run = false) : (hostRead b (hostWrite a v s)).1 = (hostRead b s).1 := by
  rw [hostRead_hostWrite b v hctrl hrun, hostRead_idle b hrun]
  obtain ⟨t, ht, htplaced, -⟩ | ⟨ha, -⟩ := hostTarget_cases a
  · obtain ⟨u, hu, huplaced, -⟩ | ⟨hb, -⟩ := hostTarget_cases b
    · rw [ht, hu]
      refine s.hostWord_storeWord_other v htplaced huplaced fun hut => ?_
      exact hne (hostTarget_injective htplaced (hu.trans hut) ht)
    · rw [hb]
      exact s.hostWord_storeWord_none _ v
  · rw [ha]
    rfl

theorem HostTarget.Placed.address_lt {t : HostTarget} (h : t.Placed) : t.address < 2 ^ 18 := by
  cases t with
  | desc b i => cases b <;> simp only [HostTarget.Placed, HostTarget.address] at h ⊢ <;> omega
  | none => exact h.elim
  | _ => simp only [HostTarget.Placed, HostTarget.address] at h ⊢; omega

/-- What an idle unit answers at the address of a place. -/
theorem hostRead_address {t : HostTarget} {s : State} (hrun : s.run = false) (hplaced : t.Placed) :
    (hostRead (BitVec.ofNat 18 t.address) s).1 = s.hostWord t := by
  have haddr : (BitVec.ofNat 18 t.address).toNat = t.address := Nat.mod_eq_of_lt hplaced.address_lt
  rw [hostRead_idle _ hrun, hostTarget_of_address hplaced haddr]

/-! ### The obligations of the host port -/

/-- Settles O19, by the cases of a write to CTRL. -/
theorem ctrlWritesLaunchOrReset : Obligations.CtrlWritesLaunchOrReset := by
  intro s v
  have hctrl : hostTarget 0x20000#18 = .ctrl := hostTarget_eq_ctrl_iff.mpr rfl
  rw [hostWrite_ctrl v s hctrl]
  exact ⟨s.writeCtrl_reset, State.writeCtrl_launch, State.writeCtrl_running, s.writeCtrl_no_start, fun hrun => by
    rw [hostRead_idle _ hrun, hctrl]; rfl⟩

/-- Settles O20: the gating of R29, place by place. -/
theorem runningUnitIgnoresHostAccesses : Obligations.RunningUnitIgnoresHostAccesses := by
  intro s a v hrun
  refine ⟨fun ha => hostWrite_running v (mt hostTarget_eq_ctrl_iff.mp ha) hrun,
    hostRead_status s (hostTarget_of_address trivial rfl), ?_⟩
  obtain h | h := hostRead_state_cases a s <;> rw [h]
  rfl

/-- The four status flags as a number, bit by bit. -/
theorem statusBits (run done faulted t : Bool) :
    let w := BitVec.ofNat 64 (run.toNat + done.toNat * 2 + faulted.toNat * 4 + t.toNat * 8)
    w.getLsbD 0 = run ∧ w.getLsbD 1 = done ∧ w.getLsbD 2 = faulted ∧ w.getLsbD 3 = t ∧ w.toNat < 16 := by
  decide +revert

/-- Settles O22, from the bits of the STATUS word. -/
theorem statusWordAndIrq : Obligations.StatusWordAndIrq := by
  intro s
  obtain ⟨hrun, hdone, hfaulted, ht, hlt⟩ := statusBits s.run s.done s.faulted s.t
  exact ⟨hrun, hdone, hfaulted, ht, hlt, Bool.or_eq_true_iff⟩

/-- Settles O21, place by place of the address map. -/
theorem idleHostReadsBackWhatItWrote : Obligations.IdleHostReadsBackWhatItWrote := by
  intro s a v hrun
  refine ⟨fun hrange => ?_, ?_, fun b hne hctrl => ?_, fun hreserved => ?_, fun hreadOnly => ?_, fun i hi => ⟨?_, ?_⟩,
    ⟨?_, ?_, ?_, ?_⟩, fun i hi => ⟨?_, ?_⟩, fun i hi => ?_⟩
  · exact hostRead_hostWrite_same v hrange hrun
  · have hpc : hostTarget 0x20003#18 = .pc := hostTarget_of_address trivial rfl
    rw [hostRead_hostWrite _ v (by simp [hpc]) hrun, hpc, s.pc_storeWord_pc v]
  · exact hostRead_hostWrite_other v hne (mt hostTarget_eq_ctrl_iff.mp hctrl) hrun
  · have hnone : hostTarget a = .none := hostTarget_eq_none_iff.mpr hreserved
    rw [hostWrite_idle v (by simp [hnone]) hrun, hostRead_idle a hrun, hnone]
    exact ⟨rfl, rfl⟩
  · obtain rfl | rfl | rfl := hreadOnly
    · exact hostWrite_readOnly v (.inl (hostTarget_of_address trivial rfl)) hrun
    · exact hostWrite_readOnly v (.inr (.inl (hostTarget_of_address trivial rfl))) hrun
    · exact hostWrite_readOnly v (.inr (.inr (hostTarget_of_address trivial rfl))) hrun
  · exact hostRead_address (t := .bufWord i) hrun hi
  · exact hostRead_address (t := .cmdWord i) hrun hi
  · exact hostRead_address (t := .status) hrun trivial
  · exact (congrArg BitVec.toNat (hostRead_address (t := .cause) hrun trivial)).trans
      (BitVec.toNat_setWidth_of_le (by decide))
  · exact (congrArg BitVec.toNat (hostRead_address (t := .pc) hrun trivial)).trans
      (BitVec.toNat_setWidth_of_le (by decide))
  · exact hostRead_address (t := .finfo) hrun trivial
  · exact (hostRead_address (t := .desc .b0 i) hrun hi).trans (descWord_eq_getD s.fd0 hi)
  · exact (hostRead_address (t := .desc .b1 i) hrun hi).trans (descWord_eq_getD s.fd1 hi)
  · exact (hostRead_address (t := .curve i) hrun hi).trans (curveWord_eq_getD s.cv hi)

end Sys2Proof.Machine
end

section
/-! The invariant of the machine (R20 to R22, R31): the reset state meets it, and every step and every host access keeps it.  A
command keeps it because its effect stays in the frame of R35 and its destination, checked by R55, lies inside BUF. -/

namespace Sys2Proof.Machine

/-! ### The changes of the control state -/

theorem ArchFault.code_ne_zero (x : ArchFault) : x.code ≠ 0#4 := by
  cases x <;> decide

theorem ArchFault.code_le (x : ArchFault) : x.code.toNat ≤ 3 := by
  cases x <;> decide

/-- A running unit has neither ended its last run nor faulted. -/
theorem State.Inv.not_done_of_run {s : State} (h : s.Inv) (hrun : s.run = true) : s.done = false := by
  simpa [hrun] using h.one_status.1

theorem State.Inv.not_faulted_of_run {s : State} (h : s.Inv) (hrun : s.run = true) : s.faulted = false := by
  simpa [hrun] using h.one_status.2.1

/-- A fault entry (R131) records a cause and ends the run, which had not ended before. -/
theorem State.Inv.raise {s : State} (h : s.Inv) (hrun : s.run = true) (x : ArchFault) (w : Word) : (s.raise x w).Inv where
  buf := h.buf
  cmd := h.cmd
  one_status := by simp [h.not_done_of_run hrun]
  cause_le := x.code_le
  cause_faulted := iff_of_true rfl x.code_ne_zero
  finfo := fun hf => absurd hf (by simp)

theorem State.Inv.halt {s : State} (h : s.Inv) (hrun : s.run = true) : State.Inv { s with run := false, done := true } :=
  { h with one_status := by simp [h.not_faulted_of_run hrun] }

theorem State.Inv.launch {s : State} (h : s.Inv) : s.launch.Inv :=
  ⟨h.buf, h.cmd, by simp, by simp, by simp, fun _ => rfl⟩

theorem State.Inv.resetControl {s : State} (h : s.Inv) : s.resetControl.Inv :=
  ⟨h.buf, h.cmd, by simp, by simp, by simp, fun _ => rfl⟩

/-! ### The effect of a command -/

/-- Everything a command can do (R55, R57): the halt, a fault entry, or its effect and then pc + 1. -/
theorem exec_cases {i : Instr} {s t : State} (ht : exec i s = .next t) :
    (i = .halt ∧ t = { s with run := false, done := true })
      ∨ (∃ x, framingFault i s = some x ∧ t = s.raise x (encode i))
      ∨ (∃ e, framingFault i s = none ∧ EffectOf i s (PreChecked i s) e ∧ t = e.advance) := by
  by_cases hi : i = .halt
  · subst hi
    cases ht
    exact .inl ⟨rfl, rfl⟩
  · obtain ⟨e, hexec, heffect⟩ := exec_effect i s hi
    obtain ⟨x, hfault, hissue⟩ | ⟨hfault, hissue⟩ := issue_cases i s e <;>
      cases hissue.symm.trans (hexec.symm.trans ht)
    · exact .inr (.inl ⟨x, hfault, rfl⟩)
    · exact .inr (.inr ⟨e, hfault, heffect, rfl⟩)

/-- The range check of R55 passes only destinations inside BUF (R36). -/
theorem dest_fits {i : Instr} {s : State} {rd : Addr} {k : Nat} (hfault : framingFault i s = none)
    (hdest : destOf i = some (rd, k)) : rd.toNat + k ≤ Config.bufWords := by
  obtain ⟨hpc, -⟩ | ⟨hrange, -⟩ | ⟨-, -, hall⟩ := framingFault_cases i s
  · simp [hfault] at hpc
  · simp [hfault] at hrange
  · have hfit : operandFits (rd, k) = true := List.all_eq_true.mp hall _ (by simp [operandsOf, hdest])
    have hrd : rd.toNat < Config.bufWords := rd.isLt
    simp only [operandFits, Bool.or_eq_true, decide_eq_true_eq] at hfit
    omega

theorem EffectOf.buf_wf {i : Instr} {s e : State} {fixed : Prop} (h : EffectOf i s fixed e)
    (hfault : framingFault i s = none) (hwf : s.buf.wf Config.bufWords = true) : e.buf.wf Config.bufWords = true := by
  cases h with
  | @words rd k v hdest _ _ =>
    obtain ⟨x, -, he⟩ | ⟨-, he⟩ := s.writeResult_cases rd k v <;> rw [he] <;>
      exact Memory.wf_writeWords _ _ _ hwf (dest_fits hfault hdest)
  | @flag b _ _ _ => obtain ⟨x, -, he⟩ | ⟨-, he⟩ := s.flagResult_cases b <;> rw [he] <;> exact hwf
  | both hdest _ _ => exact Memory.wf_writeWords _ _ _ hwf (dest_fits hfault hdest)

/-- The invariant speaks of BUF and of fields that the frame of a command keeps. -/
theorem State.Inv.of_frameKept {i : Instr} {s t : State} (h : s.Inv) (hframe : FrameKept i s t)
    (hbuf : t.buf.wf Config.bufWords = true) : t.Inv where
  buf := hbuf
  cmd := hframe.cmd ▸ h.cmd
  one_status := by simpa [hframe.run, hframe.done, hframe.faulted] using h.one_status
  cause_le := hframe.cause ▸ h.cause_le
  cause_faulted := by simpa [hframe.faulted, hframe.cause] using h.cause_faulted
  finfo := by simpa [hframe.faulted, hframe.finfo] using h.finfo

theorem State.Inv.exec {i : Instr} {s t : State} (h : s.Inv) (hrun : s.run = true) (ht : exec i s = .next t) : t.Inv := by
  obtain ⟨-, rfl⟩ | ⟨x, -, rfl⟩ | ⟨e, hfault, heffect, rfl⟩ := exec_cases ht
  · exact h.halt hrun
  · exact h.raise hrun x _
  · exact h.of_frameKept heffect.frameKept (heffect.buf_wf hfault h.buf)

/-! ### Host accesses -/

/-- An SRST writes free values to the destination of the command in progress, or nothing (R136; log 17). -/
theorem State.abort_cases (s : State) :
    s.abort = s ∨ ∃ i rd k, decode s.fetch = .ok i ∧ framingFault i s = none ∧ destOf i = some (rd, k)
      ∧ s.abort = s.writeResult rd k none := by
  unfold State.abort
  split_ifs
  · split
    · exact .inl rfl
    · rename_i i hdecode
      split
      · rename_i rd k hfault hdest
        exact .inr ⟨i, rd, k, hdecode, hfault, hdest, rfl⟩
      · exact .inl rfl
  · exact .inl rfl

theorem State.Inv.srst {s : State} (h : s.Inv) : s.srst.Inv := by
  refine State.Inv.resetControl ?_
  obtain habort | ⟨i, rd, k, -, hfault, hdest, habort⟩ := s.abort_cases <;> rw [habort]
  · exact h
  · exact { h with buf := Memory.wf_writeWords _ _ _ h.buf (dest_fits hfault hdest) }

theorem State.Inv.storeWord {s : State} (h : s.Inv) {t : HostTarget} (v : Word) (hplaced : t.Placed) :
    (s.storeWord t v).Inv := by
  cases t with
  | bufWord a => exact { h with buf := Memory.wf_write v h.buf hplaced }
  | cmdWord i => exact { h with cmd := Memory.wf_write v h.cmd hplaced }
  | pc | curve => exact { h with }
  | desc b i => cases b <;> exact { h with }
  | ctrl | status | cause | finfo | none => exact h

theorem State.Inv.hostWrite {s : State} (h : s.Inv) (a : HostAddr) (v : Word) : (hostWrite a v s).Inv := by
  obtain hwrite | hwrite | hwrite := hostWrite_cases a v s <;> rw [hwrite]
  · obtain hctrl | hctrl | hctrl := s.writeCtrl_cases v <;> rw [hctrl]
    · exact h.srst
    · exact h.launch
    · exact h
  · exact h
  · obtain ⟨t, ht, hplaced, -⟩ | ⟨hnone, -⟩ := hostTarget_cases a
    · rw [ht]
      exact h.storeWord v hplaced
    · rw [hnone]
      exact h

theorem State.Inv.hostRead {s : State} (h : s.Inv) (a : HostAddr) : (hostRead a s).2.Inv := by
  obtain hread | hread := hostRead_state_cases a s <;> rw [hread]
  · exact h
  · exact { h with }

/-! ### The obligations -/

/-- Settles O16: no memory word is listed, and every status field is 0. -/
theorem resetMeetsTheInvariant : Obligations.ResetMeetsTheInvariant where
  buf := Memory.wf_empty _
  cmd := Memory.wf_empty _
  one_status := by decide
  cause_le := by decide
  cause_faulted := by decide
  finfo := fun _ => rfl

/-- Settles O17, by the cases of the step. -/
theorem everyStepKeepsTheInvariant : Obligations.EveryStepKeepsTheInvariant := by
  intro s t h ht
  obtain ⟨-, hstep⟩ | ⟨hrun, -, hstep⟩ | ⟨hrun, i, -, hstep⟩ := step_cases s
  · cases hstep.symm.trans ht
    exact h
  · cases hstep.symm.trans ht
    exact h.raise hrun _ _
  · exact h.exec hrun (hstep.symm.trans ht)

/-- Settles O18: CTRL launches or resets, any other write stores at most one word, and a read stores nothing. -/
theorem everyHostAccessKeepsTheInvariant : Obligations.EveryHostAccessKeepsTheInvariant :=
  fun _ a v h => ⟨h.hostWrite a v, h.hostRead a⟩

end Sys2Proof.Machine
end

section
/-! The flag T (R17): the commands that write it are those of the column "writes T" of R35, and STT alone reads it, since every
operand, table and check of any other command is the same whatever T holds. -/

namespace Sys2Proof.Machine

/-! ### Nothing a command reads depends on T -/

@[simp] theorem State.bank_setT (s : State) (b : Bool) (f : Bank) : (s.setT b).bank f = s.bank f := by
  cases f <;> rfl

@[simp] theorem State.curve_setT (s : State) (b : Bool) : (s.setT b).curve = s.curve := rfl

@[simp] theorem State.wfcCheck_setT (s : State) (b : Bool) : (s.setT b).wfcCheck = s.wfcCheck := rfl

@[simp] theorem State.readPt_setT (s : State) (b : Bool) (a : Addr) : (s.setT b).readPt a = s.readPt a := by
  simp [State.readPt]

@[simp] theorem State.readTriple_setT (s : State) (b : Bool) (a : Addr) : (s.setT b).readTriple a = s.readTriple a := by
  simp [State.readTriple]

/-! ### What a command writes is the same beside T -/

@[simp] theorem State.setT_setT (s : State) (b c : Bool) : (s.setT b).setT c = s.setT c := rfl

theorem State.memWrite_setT (s : State) (b : Bool) (rd : Addr) (k v : Nat) :
    (s.setT b).memWrite rd k v = (s.memWrite rd k v).setT b := rfl

theorem State.writeResult_setT (s : State) (b : Bool) (rd : Addr) (k : Nat) (v : Option Nat) :
    (s.setT b).writeResult rd k v = (s.writeResult rd k v).setT b := by
  cases v <;> rfl

theorem State.flagResult_setT (s : State) (b : Bool) (v : Option Bool) : (s.setT b).flagResult v = s.flagResult v := by
  cases v <;> rfl

/-- Every command but HALT and STT has the same effect whatever T holds: a command that writes T gives it the same value, and
any other leaves T as it found it. -/
theorem exec_setT (i : Instr) (s : State) (b : Bool) (hi : i ≠ .halt) (hstt : ∀ rd, i ≠ .stt rd) :
    ∃ e, exec i s = issue i s e ∧ exec i (s.setT b) = issue i (s.setT b) (if writesT i then e else e.setT b) := by
  cases i with
  | halt => exact absurd rfl hi
  | stt rd => exact absurd rfl (hstt rd)
  | imul | isqr | icopy | iclr | fsetone =>
    exact ⟨_, rfl, by
      simp [exec, execImul, execIsqr, execIcopy, execIclr, execFsetone, writesT, State.memWrite_setT]⟩
  | iadd | isub | isubr =>
    exact ⟨_, rfl, by
      simp [exec, execIadd, execIsub, execIsubr, writesT, State.memWrite_setT]⟩
  | itstz | ieq | fisone | aisinf | pisinf =>
    exact ⟨_, rfl, by
      simp [exec, execItstz, execIeq, execFisone, execAisinf, execPisinf, writesT]⟩
  | aoncrv =>
    exact ⟨_, rfl, by
      simp only [exec, execAoncrv, State.readPt_setT, State.curve_setT, State.flagResult_setT, writesT, if_true]⟩
  | ainsub =>
    exact ⟨_, rfl, by
      simp [exec, execAinsub, writesT, State.flagResult_setT]⟩
  | fadd | fsub | fneg | fmul | fsqr | fredc | fpow64 | fpowb | finv | fdiv | ftostd | ffromstd =>
    exact ⟨_, rfl, by
      simp [exec, execFadd, execFsub, execFneg, execFmul, execFsqr, execFredc, execFpow64, execFpowb, execFinv, execFdiv,
        execFtostd, execFfromstd, writesT, State.writeResult_setT]⟩
  | aneg | adbl | aadd | asmul64 | asmulb | asmulf =>
    exact ⟨_, rfl, by
      simp [exec, execAneg, execAdbl, execAadd, execAsmul64, execAsmulb, execAsmulf, writesT, State.writeResult_setT]⟩
  | pfroma | ptoa | pdbl | padd | psmul64 | psmulb | psmulf =>
    exact ⟨_, rfl, by
      simp [exec, execPfroma, execPtoa, execPdbl, execPadd, execPsmul64, execPsmulb, execPsmulf, writesT,
        State.writeResult_setT]⟩

/-! ### The obligations -/

theorem writesT_iff (i : Instr) : writesT i = true ↔
    i.mnemonic ∈ ["IADD", "ISUB", "ISUBR", "ITSTZ", "IEQ", "FISONE", "AISINF", "AONCRV", "AINSUB", "PISINF"] := by
  cases i with
  | iadd | isub | isubr | itstz | ieq | fisone | aisinf | aoncrv | ainsub | pisinf =>
    exact iff_of_true rfl (by simp [Instr.mnemonic])
  | _ => exact iff_of_false (by simp [writesT]) (by simp [Instr.mnemonic])

/-- A command outside the column "writes T" keeps T, also where it ends in a fault. -/
theorem exec_keeps_t {i : Instr} {s t : State} (hflag : writesT i = false) (ht : exec i s = .next t) : t.t = s.t := by
  obtain ⟨-, rfl⟩ | ⟨x, -, rfl⟩ | ⟨e, -, heffect, rfl⟩ := exec_cases ht
  · rfl
  · rfl
  · exact heffect.frameKept.flag hflag

theorem step_of_decode {i : Instr} {s : State} (hrun : s.run = true) (hdecode : decode s.fetch = .ok i) :
    step s = exec i s := by
  simp [step, hrun, hdecode]

/-- Settles O13: a step of a running unit that decodes its word is that command. -/
theorem onlyTheListedCommandsWriteT : Obligations.OnlyTheListedCommandsWriteT := by
  refine ⟨writesT_iff, fun s t i hrun hdecode hstep hchanged => ?_⟩
  by_contra hflag
  exact hchanged (exec_keeps_t (Bool.eq_false_iff.mpr hflag) ((step_of_decode hrun hdecode).symm.trans hstep))

/-- Settles O14: the checks do not read T, and the effect of the command is the same beside it. -/
theorem onlySttReadsT : Obligations.OnlySttReadsT := by
  intro i s t b hstt ht
  by_cases hi : i = .halt
  · subst hi
    cases ht
    exact ⟨_, rfl, rfl, fun hflag => absurd hflag (by decide)⟩
  obtain ⟨e, hexec, hexec'⟩ := exec_setT i s b hi hstt
  rw [hexec] at ht
  have hframing : framingFault i (s.setT b) = framingFault i s := framingFault_congr i rfl
  obtain ⟨x, hfault, hissue⟩ | ⟨hfault, hissue⟩ := issue_cases i s e
  · cases hissue.symm.trans ht
    refine ⟨(s.setT b).raise x (encode i), hexec'.trans ?_, rfl, fun _ hready => ?_⟩
    · rw [issue, hframing, hfault]
    · rw [framingFault_of_ready hready] at hfault
      cases hfault
  · cases hissue.symm.trans ht
    refine ⟨State.advance (if writesT i then e else e.setT b), hexec'.trans ?_, ?_, fun hflag _ => by rw [if_pos hflag]⟩
    · rw [issue, hframing, hfault]
    · cases writesT i <;> rfl

end Sys2Proof.Machine
end

section
/-! PROOF of O12: a step keeps CMD, both field descriptors, CV and the choice of ProjImpl, because the commands' frame, HALT and
fault entry do. -/

namespace Sys2Proof.Machine

/-- CMD, FD[0], FD[1], CV and the choice of ProjImpl are the same in `t` as in `s`: what only the host writes (R19, R24, R26)
and what nobody does (R114). -/
def CommandsAndTablesKept (s t : State) : Prop :=
  t.cmd = s.cmd ∧ t.fd0 = s.fd0 ∧ t.fd1 = s.fd1 ∧ t.cv = s.cv ∧ t.projImpl = s.projImpl

theorem CommandsAndTablesKept.refl (s : State) : CommandsAndTablesKept s s := ⟨rfl, rfl, rfl, rfl, rfl⟩

theorem FrameKept.commandsAndTablesKept {i : Instr} {s t : State} (h : FrameKept i s t) : CommandsAndTablesKept s t :=
  ⟨h.cmd, h.fd0, h.fd1, h.cv, h.projImpl⟩

theorem State.raise_commandsAndTablesKept (s : State) (x : ArchFault) (w : Word) : CommandsAndTablesKept s (s.raise x w) :=
  ⟨rfl, rfl, rfl, rfl, rfl⟩

/-- No command writes CMD or a table, whether it completes, halts or faults. -/
theorem exec_commandsAndTablesKept {i : Instr} {s t : State} (ht : exec i s = .next t) : CommandsAndTablesKept s t := by
  obtain ⟨-, rfl⟩ | ⟨x, -, rfl⟩ | ⟨e, -, heffect, rfl⟩ := exec_cases ht
  · exact ⟨rfl, rfl, rfl, rfl, rfl⟩
  · exact s.raise_commandsAndTablesKept x (encode i)
  · exact heffect.frameKept.commandsAndTablesKept

/-- Settles O12: an idle step changes nothing, an illegal word enters its fault, and any other step is a command. -/
theorem stepsKeepCommandsAndTables : Obligations.StepsKeepCommandsAndTables := by
  intro s t ht
  obtain ⟨-, hstep⟩ | ⟨-, -, hstep⟩ | ⟨-, i, -, hstep⟩ := step_cases s
  · cases hstep.symm.trans ht
    exact CommandsAndTablesKept.refl s
  · cases hstep.symm.trans ht
    exact s.raise_commandsAndTablesKept .illegalCommand s.fetch
  · exact exec_commandsAndTablesKept (hstep.symm.trans ht)

end Sys2Proof.Machine
end

section
/-! The decoder and the encoder (R45 to R51).  R49 is put once as a list of rows: an opcode, the fields it uses and its command.
`decodeFields` looks its opcode up there and `opcodeRows` is the same list as masks, so what holds of the decoder is proved for a
row: a word matches the row's mask exactly when it has the row's opcode and its unused fields are zero. -/

namespace Sys2Proof

/-! ### Fields and words (R45, R51) -/

/-- The sum of R51 does not overflow the word. -/
theorem packFields_toNat_sum (f : Fields) :
    (packFields f).toNat = f.op.toNat + f.fs.toNat * 2 ^ 8 + f.len.toNat * 2 ^ 9 + f.rd.toNat * 2 ^ 16
      + f.ra.toNat * 2 ^ 32 + f.rb.toNat * 2 ^ 48 := by
  rw [packFields_toNat]
  ring

/-- The bit positions of R45, as quotients and remainders. -/
theorem fieldsOf_toNat (w : Word) :
    (fieldsOf w).op.toNat = w.toNat % 2 ^ 8 ∧ (fieldsOf w).fs.toNat = w.toNat / 2 ^ 8 % 2
      ∧ (fieldsOf w).len.toNat = w.toNat / 2 ^ 9 % 2 ^ 7 ∧ (fieldsOf w).rd.toNat = w.toNat / 2 ^ 16 % 2 ^ 16
      ∧ (fieldsOf w).ra.toNat = w.toNat / 2 ^ 32 % 2 ^ 16 ∧ (fieldsOf w).rb.toNat = w.toNat / 2 ^ 48 := by
  have hrb : w.toNat / 2 ^ 48 < 2 ^ 16 := by
    have := w.isLt
    omega
  simp only [fieldsOf, BitVec.extractLsb'_toNat, Nat.shiftRight_eq_div_pow, Nat.pow_zero, Nat.div_one, Nat.pow_one,
    Nat.mod_eq_of_lt hrb, and_self]

/-- The fields of a bitwise conjunction, one by one. -/
theorem fieldsOf_and (v w : Word) :
    fieldsOf (v &&& w) = ⟨(fieldsOf v).op &&& (fieldsOf w).op, (fieldsOf v).fs &&& (fieldsOf w).fs,
      (fieldsOf v).len &&& (fieldsOf w).len, (fieldsOf v).rd &&& (fieldsOf w).rd, (fieldsOf v).ra &&& (fieldsOf w).ra,
      (fieldsOf v).rb &&& (fieldsOf w).rb⟩ := by
  simp only [fieldsOf, BitVec.extractLsb'_and]

/-! ### The mask of a row (R46) -/

/-- The mask of a field: no bit where the opcode uses the field, every bit where it does not. -/
def fieldMask (n : Nat) (used : Bool) : BitVec n := if used then 0#n else BitVec.allOnes n

/-- A field passes its mask without a bit exactly when it is used or zero. -/
theorem and_fieldMask_eq_zero {n : Nat} (x : BitVec n) (used : Bool) :
    x &&& fieldMask n used = 0#n ↔ (used || x == 0#n) = true := by
  cases used <;> simp [fieldMask]

/-- The mask of an opcode with these uses: the bits of `op` and of every unused field. -/
def Uses.mask (u : Uses) : Word :=
  packFields ⟨BitVec.allOnes 8, fieldMask 1 u.fs, fieldMask 7 u.len, fieldMask 16 u.rd, fieldMask 16 u.ra, fieldMask 16 u.rb⟩

/-- A word matches an opcode under its mask exactly when it has the opcode and every unused field is zero. -/
theorem and_mask_eq_iff (w : Word) (u : Uses) (op : BitVec 8) :
    w &&& u.mask = packFields { op := op } ↔ (fieldsOf w).op = op ∧ (fieldsOf w).within u = true := by
  have hfields : w &&& u.mask = packFields { op := op } ↔ fieldsOf (w &&& u.mask) = { op := op } :=
    ⟨fun h => by rw [h, fieldsOf_packFields], fun h => by rw [← h, packFields_fieldsOf]⟩
  rw [hfields, fieldsOf_and, Uses.mask, fieldsOf_packFields]
  simp only [Fields.mk.injEq, and_fieldMask_eq_zero, BitVec.and_allOnes, Fields.within, Bool.and_eq_true]
  constructor
  · rintro ⟨hop, hfs, hlen, hrd, hra, hrb⟩
    exact ⟨hop, ⟨⟨⟨⟨hrd, hra⟩, hrb⟩, hfs⟩, hlen⟩⟩
  · rintro ⟨hop, ⟨⟨⟨⟨hrd, hra⟩, hrb⟩, hfs⟩, hlen⟩⟩
    exact ⟨hop, hfs, hlen, hrd, hra, hrb⟩

/-! ### The opcode map (R49) -/

/-- A row of R49: the opcode, the fields it uses, and the command of given fields. -/
structure OpcodeEntry where
  op : BitVec 8
  uses : Uses
  command : Fields → Instr

/-- The rows of R49 (`decodeFields_of_mem`, `decodeFields_unassigned`). -/
def opcodeMap : List OpcodeEntry :=
  [⟨0x00#8, { }, fun _ => .halt⟩,
   ⟨0x01#8, { rd := true }, fun f => .stt f.rd⟩,
   ⟨0x10#8, { rd := true, ra := true, rb := true }, fun f => .iadd f.rd f.ra f.rb⟩,
   ⟨0x11#8, { rd := true, ra := true, rb := true }, fun f => .isub f.rd f.ra f.rb⟩,
   ⟨0x12#8, { rd := true, ra := true, rb := true }, fun f => .isubr f.rd f.ra f.rb⟩,
   ⟨0x13#8, { rd := true, ra := true, rb := true }, fun f => .imul f.rd f.ra f.rb⟩,
   ⟨0x14#8, { rd := true, ra := true }, fun f => .isqr f.rd f.ra⟩,
   ⟨0x15#8, { ra := true }, fun f => .itstz f.ra⟩,
   ⟨0x16#8, { ra := true, rb := true }, fun f => .ieq f.ra f.rb⟩,
   ⟨0x17#8, { rd := true, ra := true }, fun f => .icopy f.rd f.ra⟩,
   ⟨0x18#8, { rd := true }, fun f => .iclr f.rd⟩,
   ⟨0x20#8, { rd := true, ra := true, rb := true, fs := true }, fun f => .fadd (bankOf f.fs) f.rd f.ra f.rb⟩,
   ⟨0x21#8, { rd := true, ra := true, rb := true, fs := true }, fun f => .fsub (bankOf f.fs) f.rd f.ra f.rb⟩,
   ⟨0x22#8, { rd := true, ra := true, fs := true }, fun f => .fneg (bankOf f.fs) f.rd f.ra⟩,
   ⟨0x23#8, { rd := true, ra := true, rb := true, fs := true }, fun f => .fmul (bankOf f.fs) f.rd f.ra f.rb⟩,
   ⟨0x24#8, { rd := true, ra := true, fs := true }, fun f => .fsqr (bankOf f.fs) f.rd f.ra⟩,
   ⟨0x25#8, { rd := true, ra := true, fs := true }, fun f => .fredc (bankOf f.fs) f.rd f.ra⟩,
   ⟨0x26#8, { rd := true, ra := true, rb := true, fs := true }, fun f => .fpow64 (bankOf f.fs) f.rd f.ra f.rb⟩,
   ⟨0x27#8, { rd := true, ra := true, rb := true, fs := true, len := true },
     fun f => .fpowb (bankOf f.fs) f.rd f.ra f.rb f.len.toNat⟩,
   ⟨0x28#8, { rd := true, ra := true, fs := true }, fun f => .finv (bankOf f.fs) f.rd f.ra⟩,
   ⟨0x29#8, { rd := true, ra := true, rb := true, fs := true }, fun f => .fdiv (bankOf f.fs) f.rd f.ra f.rb⟩,
   ⟨0x2A#8, { ra := true, fs := true }, fun f => .fisone (bankOf f.fs) f.ra⟩,
   ⟨0x2B#8, { rd := true, fs := true }, fun f => .fsetone (bankOf f.fs) f.rd⟩,
   ⟨0x2C#8, { rd := true, ra := true, fs := true }, fun f => .ftostd (bankOf f.fs) f.rd f.ra⟩,
   ⟨0x2D#8, { rd := true, ra := true, fs := true }, fun f => .ffromstd (bankOf f.fs) f.rd f.ra⟩,
   ⟨0x30#8, { ra := true }, fun f => .aisinf f.ra⟩,
   ⟨0x31#8, { ra := true }, fun f => .aoncrv f.ra⟩,
   ⟨0x32#8, { ra := true }, fun f => .ainsub f.ra⟩,
   ⟨0x33#8, { rd := true, ra := true }, fun f => .aneg f.rd f.ra⟩,
   ⟨0x34#8, { rd := true, ra := true }, fun f => .adbl f.rd f.ra⟩,
   ⟨0x35#8, { rd := true, ra := true, rb := true }, fun f => .aadd f.rd f.ra f.rb⟩,
   ⟨0x36#8, { rd := true, ra := true, rb := true }, fun f => .asmul64 f.rd f.ra f.rb⟩,
   ⟨0x37#8, { rd := true, ra := true, rb := true, len := true }, fun f => .asmulb f.rd f.ra f.rb f.len.toNat⟩,
   ⟨0x38#8, { rd := true, ra := true, rb := true, fs := true }, fun f => .asmulf (bankOf f.fs) f.rd f.ra f.rb⟩,
   ⟨0x40#8, { rd := true, ra := true }, fun f => .pfroma f.rd f.ra⟩,
   ⟨0x41#8, { rd := true, ra := true }, fun f => .ptoa f.rd f.ra⟩,
   ⟨0x42#8, { ra := true }, fun f => .pisinf f.ra⟩,
   ⟨0x43#8, { rd := true, ra := true }, fun f => .pdbl f.rd f.ra⟩,
   ⟨0x44#8, { rd := true, ra := true, rb := true }, fun f => .padd f.rd f.ra f.rb⟩,
   ⟨0x45#8, { rd := true, ra := true, rb := true }, fun f => .psmul64 f.rd f.ra f.rb⟩,
   ⟨0x46#8, { rd := true, ra := true, rb := true, len := true }, fun f => .psmulb f.rd f.ra f.rb f.len.toNat⟩,
   ⟨0x47#8, { rd := true, ra := true, rb := true, fs := true }, fun f => .psmulf (bankOf f.fs) f.rd f.ra f.rb⟩]

/-- The row as the machine-readable table has it: mnemonic, mask and match word. -/
def OpcodeEntry.row (e : OpcodeEntry) : OpcodeRow := ⟨(e.command { }).mnemonic, e.uses.mask, packFields { op := e.op }⟩

/-- The spec's machine-readable table is the opcode map. -/
theorem opcodeRows_eq : opcodeRows = opcodeMap.map OpcodeEntry.row := by decide

/-- No two rows have the same mnemonic. -/
theorem opcodeMap_mnemonics_nodup : (opcodeMap.map fun e => e.row.mnemonic).Nodup := by decide

/-- Fields with the opcode of a row stand for the row's command, if the row allows them. -/
theorem decodeFields_of_mem {e : OpcodeEntry} (he : e ∈ opcodeMap) {f : Fields} (hop : f.op = e.op) :
    decodeFields f = legal f e.uses (e.command f) := by
  obtain ⟨op, fs, len, rd, ra, rb⟩ := f
  subst hop
  fin_cases he <;> rfl

/-- The ranges of R50 are what the rows leave free. -/
theorem unassigned_iff (op : BitVec 8) : (∀ e ∈ opcodeMap, op ≠ e.op) ↔
    (0x02 ≤ op.toNat ∧ op.toNat ≤ 0x0F) ∨ (0x19 ≤ op.toNat ∧ op.toNat ≤ 0x1F) ∨ (0x2E ≤ op.toNat ∧ op.toNat ≤ 0x2F)
      ∨ (0x39 ≤ op.toNat ∧ op.toNat ≤ 0x3F) ∨ 0x48 ≤ op.toNat := by
  decide +revert

/-- Fields with no row's opcode stand for no command. -/
theorem decodeFields_unassigned {f : Fields} (h : ∀ e ∈ opcodeMap, f.op ≠ e.op) :
    decodeFields f = .error (.unassignedOpcode f.op) := by
  have hranges := (unassigned_iff f.op).mp h
  unfold decodeFields
  split
  case h_43 => rfl
  all_goals omega

/-- The fields of a row's command are the fields it was made of, when the row allows them. -/
theorem command_fields {e : OpcodeEntry} (he : e ∈ opcodeMap) {f : Fields} (hop : f.op = e.op)
    (hwithin : f.within e.uses = true) : (e.command f).fields = f := by
  obtain ⟨op, fs, len, rd, ra, rb⟩ := f
  subst hop
  fin_cases he <;> simp_all [Fields.within, Instr.fields]

/-- The word count of a row's command comes from a 7-bit field. -/
theorem command_wellFormed {e : OpcodeEntry} (he : e ∈ opcodeMap) (f : Fields) :
    (e.command f).wellFormed = true := by
  have hlen : lenFits f.len.toNat = true := decide_eq_true (Nat.le_of_lt_succ f.len.isLt)
  fin_cases he <;> simp [Instr.wellFormed, hlen]

/-- The mnemonic of a row's command is the row's. -/
theorem command_mnemonic {e : OpcodeEntry} (he : e ∈ opcodeMap) (f : Fields) :
    (e.command f).mnemonic = e.row.mnemonic := by
  fin_cases he <;> rfl

/-! ### Decoding by rows (R46, R50) -/

/-- Everything a command word can be: the word of one row's command, a word of a row's opcode with an unused field that is not
zero, or a word of no row's opcode. -/
theorem decode_cases (w : Word) :
    (∃ e ∈ opcodeMap, (fieldsOf w).op = e.op ∧ (fieldsOf w).within e.uses = true ∧ decode w = .ok (e.command (fieldsOf w)))
      ∨ (∃ e ∈ opcodeMap, (fieldsOf w).op = e.op ∧ (fieldsOf w).within e.uses = false
        ∧ decode w = .error (.unusedFieldNonzero (fieldsOf w).op))
      ∨ ((∀ e ∈ opcodeMap, (fieldsOf w).op ≠ e.op) ∧ decode w = .error (.unassignedOpcode (fieldsOf w).op)) := by
  by_cases hop : ∃ e ∈ opcodeMap, (fieldsOf w).op = e.op
  · obtain ⟨e, he, hop⟩ := hop
    have hdecode : decode w = legal (fieldsOf w) e.uses (e.command (fieldsOf w)) := decodeFields_of_mem he hop
    cases hwithin : (fieldsOf w).within e.uses with
    | true => exact .inl ⟨e, he, hop, hwithin, by rw [hdecode, legal, if_pos hwithin]⟩
    | false => exact .inr (.inl ⟨e, he, hop, hwithin, by simp [hdecode, legal, hwithin]⟩)
  · push Not at hop
    exact .inr (.inr ⟨hop, decodeFields_unassigned hop⟩)

/-- A word decodes to a command exactly when some row allows it and the command is the row's. -/
theorem decode_eq_ok_iff {w : Word} {i : Instr} : decode w = .ok i ↔
    ∃ e ∈ opcodeMap, (fieldsOf w).op = e.op ∧ (fieldsOf w).within e.uses = true ∧ i = e.command (fieldsOf w) := by
  constructor
  · intro h
    obtain ⟨e, he, hop, hwithin, hdecode⟩ | ⟨e, -, -, -, hdecode⟩ | ⟨-, hdecode⟩ := decode_cases w <;>
      cases h.symm.trans hdecode
    exact ⟨e, he, hop, hwithin, rfl⟩
  · rintro ⟨e, he, hop, hwithin, rfl⟩
    exact (decodeFields_of_mem he hop).trans (if_pos hwithin)

theorem decode_eq_unassigned_iff {w : Word} :
    decode w = .error (.unassignedOpcode (fieldsOf w).op) ↔ ∀ e ∈ opcodeMap, (fieldsOf w).op ≠ e.op := by
  refine ⟨fun h => ?_, decodeFields_unassigned⟩
  obtain ⟨e, -, -, -, hdecode⟩ | ⟨e, -, -, -, hdecode⟩ | ⟨hop, -⟩ := decode_cases w
  · cases h.symm.trans hdecode
  · cases h.symm.trans hdecode
  · exact hop

/-- A row's mask and match word pick out the words whose opcode is the row's and whose unused fields are zero. -/
theorem and_row_mask_iff (w : Word) (e : OpcodeEntry) :
    w &&& e.row.mask = e.row.bits ↔ (fieldsOf w).op = e.op ∧ (fieldsOf w).within e.uses = true :=
  and_mask_eq_iff w e.uses e.op

theorem mem_opcodeRows_iff {r : OpcodeRow} : r ∈ opcodeRows ↔ ∃ e ∈ opcodeMap, e.row = r := by
  rw [opcodeRows_eq, List.mem_map]

/-- The mnemonic determines the row. -/
theorem eq_of_mnemonic_eq {d e : OpcodeEntry} (hd : d ∈ opcodeMap) (he : e ∈ opcodeMap)
    (h : d.row.mnemonic = e.row.mnemonic) : d = e :=
  List.inj_on_of_nodup_map opcodeMap_mnemonics_nodup hd he h

/-! ### The round trip (R51) -/

/-- The fields of every well-formed command stand for it, command by command. -/
theorem fieldsDecode : ∀ i : Instr, Laws.FieldsDecode.Statement i
  | .halt => Laws.FieldsDecode.halt
  | .stt rd => Laws.FieldsDecode.stt rd
  | .iadd rd ra rb => Laws.FieldsDecode.iadd rd ra rb
  | .isub rd ra rb => Laws.FieldsDecode.isub rd ra rb
  | .isubr rd ra rb => Laws.FieldsDecode.isubr rd ra rb
  | .imul rd ra rb => Laws.FieldsDecode.imul rd ra rb
  | .isqr rd ra => Laws.FieldsDecode.isqr rd ra
  | .itstz ra => Laws.FieldsDecode.itstz ra
  | .ieq ra rb => Laws.FieldsDecode.ieq ra rb
  | .icopy rd ra => Laws.FieldsDecode.icopy rd ra
  | .iclr rd => Laws.FieldsDecode.iclr rd
  | .fadd fs rd ra rb => Laws.FieldsDecode.fadd fs rd ra rb
  | .fsub fs rd ra rb => Laws.FieldsDecode.fsub fs rd ra rb
  | .fneg fs rd ra => Laws.FieldsDecode.fneg fs rd ra
  | .fmul fs rd ra rb => Laws.FieldsDecode.fmul fs rd ra rb
  | .fsqr fs rd ra => Laws.FieldsDecode.fsqr fs rd ra
  | .fredc fs rd ra => Laws.FieldsDecode.fredc fs rd ra
  | .fpow64 fs rd ra rb => Laws.FieldsDecode.fpow64 fs rd ra rb
  | .fpowb fs rd ra rb len => Laws.FieldsDecode.fpowb fs rd ra rb len
  | .finv fs rd ra => Laws.FieldsDecode.finv fs rd ra
  | .fdiv fs rd ra rb => Laws.FieldsDecode.fdiv fs rd ra rb
  | .fisone fs ra => Laws.FieldsDecode.fisone fs ra
  | .fsetone fs rd => Laws.FieldsDecode.fsetone fs rd
  | .ftostd fs rd ra => Laws.FieldsDecode.ftostd fs rd ra
  | .ffromstd fs rd ra => Laws.FieldsDecode.ffromstd fs rd ra
  | .aisinf ra => Laws.FieldsDecode.aisinf ra
  | .aoncrv ra => Laws.FieldsDecode.aoncrv ra
  | .ainsub ra => Laws.FieldsDecode.ainsub ra
  | .aneg rd ra => Laws.FieldsDecode.aneg rd ra
  | .adbl rd ra => Laws.FieldsDecode.adbl rd ra
  | .aadd rd ra rb => Laws.FieldsDecode.aadd rd ra rb
  | .asmul64 rd ra rb => Laws.FieldsDecode.asmul64 rd ra rb
  | .asmulb rd ra rb len => Laws.FieldsDecode.asmulb rd ra rb len
  | .asmulf fs rd ra rb => Laws.FieldsDecode.asmulf fs rd ra rb
  | .pfroma rd ra => Laws.FieldsDecode.pfroma rd ra
  | .ptoa rd ra => Laws.FieldsDecode.ptoa rd ra
  | .pisinf ra => Laws.FieldsDecode.pisinf ra
  | .pdbl rd ra => Laws.FieldsDecode.pdbl rd ra
  | .padd rd ra rb => Laws.FieldsDecode.padd rd ra rb
  | .psmul64 rd ra rb => Laws.FieldsDecode.psmul64 rd ra rb
  | .psmulb rd ra rb len => Laws.FieldsDecode.psmulb rd ra rb len
  | .psmulf fs rd ra rb => Laws.FieldsDecode.psmulf fs rd ra rb

theorem decode_encode {i : Instr} (h : i.wellFormed = true) : decode (encode i) = .ok i := by
  rw [decode, fieldsOf_encode]
  exact fieldsDecode i h

/-- A legal word is the word of a well-formed command, the one it decodes to. -/
theorem wellFormed_and_encode_of_decode {w : Word} {i : Instr} (h : decode w = .ok i) :
    i.wellFormed = true ∧ encode i = w := by
  obtain ⟨e, he, hop, hwithin, rfl⟩ := decode_eq_ok_iff.mp h
  exact ⟨command_wellFormed he _, by rw [encode, command_fields he hop hwithin, packFields_fieldsOf]⟩

/-! ### The obligations -/

/-- Settles O1: each command's fields stand for it, each row's command has the fields it was made of, and the six fields tile
the word. -/
theorem decodeAndEncodeAreInverse : Obligations.DecodeAndEncodeAreInverse :=
  ⟨fun _ => decode_encode, fun _ _ => wellFormed_and_encode_of_decode, fun i => packFields_toNat_sum i.fields, fieldsOf_toNat,
    by decide⟩

/-- Settles O2: the mask picks out the words of the row, and the mnemonic of a decoded command names its row. -/
theorem opcodeTableRowsDecodeExactly : Obligations.OpcodeTableRowsDecodeExactly := by
  intro w r hr
  obtain ⟨e, he, rfl⟩ := mem_opcodeRows_iff.mp hr
  rw [and_row_mask_iff]
  constructor
  · rintro ⟨hop, hwithin⟩
    exact ⟨_, decode_eq_ok_iff.mpr ⟨e, he, hop, hwithin, rfl⟩, command_mnemonic he _⟩
  · rintro ⟨i, hdecode, hname⟩
    obtain ⟨d, hd, hop, hwithin, rfl⟩ := decode_eq_ok_iff.mp hdecode
    obtain rfl : d = e := eq_of_mnemonic_eq hd he ((command_mnemonic hd _).symm.trans hname)
    exact ⟨hop, hwithin⟩

/-- A word is illegal exactly when it matches no row (R50). -/
theorem decode_error_iff (w : Word) : (∃ x, decode w = .error x) ↔ ∀ r ∈ opcodeRows, w &&& r.mask ≠ r.bits := by
  constructor
  · rintro ⟨x, hx⟩ r hr hmatch
    obtain ⟨i, hi, -⟩ := (opcodeTableRowsDecodeExactly w r hr).mp hmatch
    cases hx.symm.trans hi
  · intro hnone
    cases hdecode : decode w with
    | error x => exact ⟨x, rfl⟩
    | ok i =>
      obtain ⟨e, he, hop, hwithin, -⟩ := decode_eq_ok_iff.mp hdecode
      exact absurd ((and_row_mask_iff w e).mpr ⟨hop, hwithin⟩) (hnone e.row (mem_opcodeRows_iff.mpr ⟨e, he, rfl⟩))

/-- Settles O3: a legal word matches its row, the unassigned ranges are what the rows leave, and the step raises. -/
theorem illegalWordsAreThoseOutsideTheTable : Obligations.IllegalWordsAreThoseOutsideTheTable := by
  refine ⟨decode_error_iff, fun w => decode_eq_unassigned_iff.trans (unassigned_iff _), fun s x hrun hillegal => ?_⟩
  simp [Machine.step, hrun, hillegal, Machine.State.raise, Machine.faultEntered, Machine.ArchFault.code]

/-- Settles O4: each word is evaluated. -/
theorem specWordsDecodeToTheirCommands : Obligations.SpecWordsDecodeToTheirCommands :=
  ⟨by decide, by decide, by decide, by decide, by decide, by decide, by decide⟩

end Sys2Proof
end

section
/-! PROOF of O31 (R53): ICOPY of the low half of a point writes no word of the source's high half, and ICOPY of the high half no
word of the copied low half. -/

namespace Sys2Proof.Machine

/-- A read of `j + k` words is the read of the low `j` words and, above it, that of the `k` words that follow (R8). -/
theorem State.readAt_add (s : State) (a j k : Nat) :
    s.readAt a (j + k) = s.readAt a j + 2 ^ (64 * j) * s.readAt (a + j) k := by
  induction j generalizing a with
  | zero => simp [State.readAt]
  | succ j ih =>
    rw [Nat.add_right_comm, State.readAt, ih, State.readAt, Nat.add_assoc, Nat.add_comm 1 j, Nat.mul_succ, Nat.pow_add]
    ring

/-- Two 8-word reads agree when their low and their high four words do. -/
theorem State.readAt_eight_of_halves {s u : State} {a b : Nat} (hlow : u.readAt a 4 = s.readAt b 4)
    (hhigh : u.readAt (a + 4) 4 = s.readAt (b + 4) 4) : u.readAt a 8 = s.readAt b 8 := by
  rw [u.readAt_add a 4 4, s.readAt_add b 4 4, hlow, hhigh]

/-- A write leaves what is read at words disjoint from it. -/
theorem State.readAt_memWrite_disjoint (s : State) (rd : Addr) (n v : Nat) {a k : Nat}
    (h : a + k ≤ rd.toNat ∨ rd.toNat + n ≤ a) : (s.memWrite rd n v).readAt a k = s.readAt a k :=
  State.readAt_congr fun i hi => State.bufWord_of_read (s.read_memWrite_outside rd n v (a + i) (by omega))

/-- ICOPY (R68) that passes the checks of R55. -/
theorem exec_icopy_ready {rd ra : Addr} {s : State} (hpc : s.pc.toNat ≠ 0xFFFF) (hrd : rd.toNat + 4 ≤ 65536)
    (hra : ra.toNat + 4 ≤ 65536) : exec (.icopy rd ra) s = .next (s.memWrite rd 4 (s.memRead ra 4)).advance := by
  have hready : Ready (.icopy rd ra) s := by
    refine ⟨fun h => hpc (congrArg BitVec.toNat h), fun o ho => .inr ?_⟩
    obtain rfl | rfl : o = (rd, 4) ∨ o = (ra, 4) := by simpa [operandsOf, destOf, sourcesOf] using ho
    · exact hrd
    · exact hra
  show issue (.icopy rd ra) s (s.memWrite rd 4 (s.memRead ra 4)) = _
  rw [issue, framingFault_of_ready hready]

/-- What ICOPY has written reads as what it copied. -/
theorem State.readAt_copy (s : State) (rd ra : Addr) :
    (s.memWrite rd 4 (s.memRead ra 4)).readAt rd.toNat 4 = s.readAt ra.toNat 4 :=
  (s.memRead_memWrite_same rd 4 _).trans (Nat.mod_eq_of_lt (s.memRead_lt ra 4))

/-- Settles O31: the second copy reads the source's high half as it was, and keeps the low half that the first has written. -/
theorem acopyCopiesAPoint : Obligations.AcopyCopiesAPoint := by
  intro rd ra s hrd hra hbuffers hpc
  have hrd4 : (rd + 4#16).toNat = rd.toNat + 4 := by bv_omega
  have hra4 : (ra + 4#16).toNat = ra.toNat + 4 := by bv_omega
  have hpc1 : (s.pc + 1#16).toNat = s.pc.toNat + 1 := by bv_omega
  have hhalves : ra.toNat + 4 + 4 ≤ rd.toNat ∨ rd.toNat + 4 ≤ ra.toNat + 4 := by
    obtain rfl | h | h := hbuffers <;> omega
  refine ⟨if_pos ⟨hrd, hra⟩, _, _, exec_icopy_ready (by omega) (by omega) (by omega),
    exec_icopy_ready (by rw [State.advance_pc, State.memWrite_pc]; omega) (by omega) (by omega), ?_⟩
  rw [State.memRead_advance]
  generalize ht : (s.memWrite rd 4 (s.memRead ra 4)).advance = t
  have hlow : t.readAt rd.toNat 4 = s.readAt ra.toNat 4 := by rw [← ht, State.readAt_advance, s.readAt_copy]
  have hhigh : t.readAt (ra.toNat + 4) 4 = s.readAt (ra.toNat + 4) 4 := by
    rw [← ht, State.readAt_advance, s.readAt_memWrite_disjoint rd 4 _ hhalves]
  apply State.readAt_eight_of_halves
  · rw [t.readAt_memWrite_disjoint (rd + 4#16) 4 _ (.inl (by omega)), hlow]
  · rw [← hrd4, t.readAt_copy, hra4, hhigh]

end Sys2Proof.Machine
end

section
/-! The sequencing of a run (R54 to R58): an idle unit stutters, a running one executes the command at CMD[pc], HALT and STT, and
every run of `step` ends.  A step either ends the run or advances pc by one and keeps the run going, and at the last slot of CMD it
cannot do the latter, so the distance from pc to the end of CMD bounds the run. -/

namespace Sys2Proof.Machine

/-! ### The step of an idle unit and of a placed word -/

theorem step_idle {s : State} (hrun : s.run = false) : step s = .next s := by
  simp [step, hrun]

@[simp] theorem State.withFetchWord_run (s : State) (nbits w : Nat) : (s.withFetchWord nbits w).run = true := rfl

@[simp] theorem State.withFetchWord_fetch (s : State) (nbits w : Nat) :
    (s.withFetchWord nbits w).fetch = BitVec.ofNat 64 (w % 2 ^ nbits) := by
  simp [State.withFetchWord, State.fetch, State.cmdWord]

theorem decodeTableWord_eq_some_iff {nbits w : Nat} {i : Instr} :
    decodeTableWord nbits w = some i ↔ decode (BitVec.ofNat 64 (w % 2 ^ nbits)) = .ok i := by
  unfold decodeTableWord
  cases decode (BitVec.ofNat 64 (w % 2 ^ nbits)) <;> simp

/-! ### Decoding and completing one command -/

/-- A row of the opcode map says what the words of its opcode are (R45, R46, R50). -/
theorem opcodeIs_of_mem {e : OpcodeEntry} (he : e ∈ opcodeMap) : OpcodeIs e.op e.uses e.command := by
  intro w hop
  have hdecode : decode w = legal (fieldsOf w) e.uses (e.command (fieldsOf w)) := decodeFields_of_mem he hop
  constructor
  · intro hwithin
    rw [hdecode, legal, if_pos hwithin]
  · intro hwithin
    exact ⟨.unusedFieldNonzero (fieldsOf w).op, by simp [hdecode, legal, hwithin]⟩

/-- A ready command whose effect is one MemWrite completes: the write, and then pc + 1. -/
theorem completes_of_memWrite {i : Instr} {s : State} {rd : Addr} {k v : Nat} {post : State → Prop} (hready : Ready i s)
    (hexec : exec i s = issue i s (s.memWrite rd k v)) (hdest : destOf i = some (rd, k))
    (hpost : post (s.memWrite rd k v).advance) : Completes i s post :=
  ⟨(s.memWrite rd k v).advance, by rw [hexec, issue, framingFault_of_ready hready], frameKept_memWrite v hdest, rfl, hpost⟩

/-- Every command but HALT raises PcOverflow in the last slot of CMD, before any other check (R129, R130). -/
theorem faults_at_last_slot {i : Instr} {s : State} (hi : i ≠ .halt) (hpc : s.pc = 0xFFFF#16) : Faults i s 3#4 := by
  have hfault : framingFault i s = some .pcOverflow := if_pos ⟨hi, hpc⟩
  obtain ⟨e, hexec, -⟩ := exec_effect i s hi
  rw [Faults, hexec, issue, hfault]
  rfl

/-- The only check that STT can fail is that of pc: one word fits at every address. -/
theorem ready_stt {rd : Addr} {s : State} (hpc : s.pc ≠ 0xFFFF#16) : Ready (.stt rd) s := by
  refine ⟨hpc, fun o ho => .inr ?_⟩
  obtain rfl : o = (rd, 1) := by simpa [operandsOf, destOf, sourcesOf] using ho
  exact rd.isLt

theorem zext64_mod (b : Bool) : zext64 b % 2 ^ 64 = if b then 1 else 0 := by
  cases b <;> rfl

/-! ### Every run ends -/

/-- The run is over, by HALT or by a fault and not by both (R56). -/
def State.RunEnded (t : State) : Prop :=
  t.run = false ∧ ((t.done = true ∧ t.faulted = false) ∨ (t.done = false ∧ t.faulted = true))

theorem State.Inv.runEnded_halt {s : State} (h : s.Inv) (hrun : s.run = true) :
    State.RunEnded { s with run := false, done := true } :=
  ⟨rfl, .inl ⟨rfl, h.not_faulted_of_run hrun⟩⟩

theorem State.Inv.runEnded_raise {s : State} (h : s.Inv) (hrun : s.run = true) (x : ArchFault) (w : Word) :
    (s.raise x w).RunEnded :=
  ⟨rfl, .inr ⟨h.not_done_of_run hrun, rfl⟩⟩

/-- HALT has no footprint, so it is not a command with an effect. -/
theorem EffectOf.ne_halt {i : Instr} {s e : State} {fixed : Prop} (h : EffectOf i s fixed e) : i ≠ .halt := by
  rintro rfl
  cases h with
  | words hdest _ _ => cases hdest
  | flag _ hflag _ => cases hflag
  | both hdest _ _ => cases hdest

/-- A command that passes the checks of R55 does not stand in the last slot of CMD, so that pc + 1 does not wrap. -/
theorem EffectOf.advance_pc_toNat {i : Instr} {s e : State} {fixed : Prop} (h : EffectOf i s fixed e)
    (hfault : framingFault i s = none) : e.advance.pc.toNat = s.pc.toNat + 1 := by
  have hpc : s.pc ≠ 0xFFFF#16 := by
    intro hlast
    have hraise : framingFault i s = some .pcOverflow := if_pos ⟨h.ne_halt, hlast⟩
    cases hfault.symm.trans hraise
  rw [h.frameKept.pc]
  bv_omega

/-- Every step of a run ends it, or goes on with the next slot of CMD. -/
theorem State.Inv.step_ends_or_advances {s : State} (h : s.Inv) (hrun : s.run = true) :
    ∃ t, step s = .next t ∧ (t.RunEnded ∨ (t.Inv ∧ t.run = true ∧ t.pc.toNat = s.pc.toNat + 1)) := by
  obtain ⟨t, ht⟩ := step_answers_next s
  refine ⟨t, ht, ?_⟩
  obtain ⟨hidle, -⟩ | ⟨-, -, hstep⟩ | ⟨-, i, -, hstep⟩ := step_cases s
  · cases hidle.symm.trans hrun
  · cases hstep.symm.trans ht
    exact .inl (h.runEnded_raise hrun _ _)
  · obtain ⟨-, rfl⟩ | ⟨x, -, rfl⟩ | ⟨e, hfault, heffect, rfl⟩ := exec_cases (hstep.symm.trans ht)
    · exact .inl (h.runEnded_halt hrun)
    · exact .inl (h.runEnded_raise hrun x _)
    · exact .inr ⟨everyStepKeepsTheInvariant s _ h ht, heffect.frameKept.run.trans hrun, heffect.advance_pc_toNat hfault⟩

theorem run_succ_of_step {s t : State} (n : Nat) (h : step s = .next t) :
    Host.Core.run Sys2Proof.core (n + 1) s = Host.Core.run Sys2Proof.core n t := by
  have hcore : Sys2Proof.core.step s = .next t := h
  simp only [Host.Core.run, hcore]

/-- A run ends within the slots of CMD that are left from pc on. -/
theorem State.Inv.run_ends {s : State} (h : s.Inv) (hrun : s.run = true) :
    ∃ (n : Nat) (t : State), n ≤ 65536 - s.pc.toNat ∧ Host.Core.run Sys2Proof.core n s = .next t ∧ t.RunEnded := by
  induction hslots : 65536 - s.pc.toNat generalizing s with
  | zero =>
    have hpc := s.pc.isLt
    omega
  | succ slots ih =>
    obtain ⟨t, ht, hended | ⟨hinv, hgoes, hpc⟩⟩ := h.step_ends_or_advances hrun
    · exact ⟨1, t, by omega, run_succ_of_step 0 ht, hended⟩
    · obtain ⟨n, u, hn, hrest, hended⟩ := ih hinv hgoes (by omega)
      exact ⟨n + 1, u, by omega, (run_succ_of_step n ht).trans hrest, hended⟩

/-! ### The obligations of sequencing -/

/-- Settles O7, from the step's own test of RUN. -/
theorem idleUnitDoesNothing : Obligations.IdleUnitDoesNothing :=
  fun _ hrun => step_idle hrun

/-- Settles O5: the fetch reads CMD[pc], where `withFetchWord` has just stored the word. -/
theorem stepRunsTheDecodedCommand : Obligations.StepRunsTheDecodedCommand := by
  refine ⟨fun s i hrun hdecode => step_of_decode hrun hdecode, fun s w i hword => ?_⟩
  apply step_of_decode (s.withFetchWord_run 64 w)
  rw [State.withFetchWord_fetch]
  exact decodeTableWord_eq_some_iff.mp hword

/-- Settles O24: a legal word of op 0x00 decodes to HALT, whose word is zero. -/
theorem haltEndsTheRun : Obligations.HaltEndsTheRun := by
  have hzero : encode .halt = 0x0000000000000000#64 := by decide
  refine ⟨fun _ => rfl, hzero, fun w hop hne => ?_⟩
  have hwords := opcodeIs_of_mem (e := ⟨0x00#8, { }, fun _ => .halt⟩) (by simp [opcodeMap]) w hop
  cases hwithin : (fieldsOf w).within { } with
  | true =>
    obtain ⟨-, hencode⟩ := wellFormed_and_encode_of_decode (hwords.1 hwithin)
    exact absurd (hencode.symm.trans hzero) hne
  | false => exact hwords.2 hwithin

/-- Settles O25: STT is one MemWrite of one word, which every address has room for. -/
theorem sttStoresTheFlag : Obligations.SttStoresTheFlag := by
  refine ⟨opcodeIs_of_mem (e := ⟨0x01#8, { rd := true }, fun f => .stt f.rd⟩) (by simp [opcodeMap]), ?_, ?_, by decide⟩
  · intro rd s hpc
    refine completes_of_memWrite (ready_stt hpc) rfl rfl ?_
    rw [State.memRead_advance, State.memRead_memWrite_same]
    exact zext64_mod s.t
  · intro rd s hpc
    exact faults_at_last_slot (by simp) hpc

/-- Settles O11, by induction on the slots of CMD left from pc on. -/
theorem everyRunEndsByTheLastSlot : Obligations.EveryRunEndsByTheLastSlot :=
  fun _ h hrun => h.run_ends hrun

end Sys2Proof.Machine
end

section
/-! The fixed-width integer core (R60 to R69).  Its commands have no precondition, so each is one MemWrite, one write of T, or both,
and then pc + 1: a command completes with the value and the flag that it writes, and what is left of each statement is that the
value fits in the destination words.  Everything is read before anything is written, so overlaps need no case. -/

namespace Sys2Proof.Machine

/-! ### The values of T (R61, R62, R66, R67) -/

@[simp] theorem carryOut_iff {a b : Nat} : carryOut a b = true ↔ 2 ^ 256 ≤ a + b := decide_eq_true_iff

@[simp] theorem borrowOut_iff {a b : Nat} : borrowOut a b = true ↔ a < b := decide_eq_true_iff

@[simp] theorem isZero_iff {a : Nat} : isZero a = true ↔ a = 0 := decide_eq_true_iff

@[simp] theorem isEqual_iff {a b : Nat} : isEqual a b = true ↔ a = b := decide_eq_true_iff

/-! ### Completing with a value and a flag -/

theorem Completes.mono {i : Instr} {s : State} {post post' : State → Prop} (h : Completes i s post)
    (himp : ∀ t, post t → post' t) : Completes i s post' := by
  obtain ⟨t, hexec, hframe, hfree, hpost⟩ := h
  exact ⟨t, hexec, hframe, hfree, himp t hpost⟩

/-- MemRead of words that a value has been written to, when the value fits in them. -/
theorem State.memRead_memWrite_of_lt (s : State) (rd : Addr) {k v : Nat} (hv : v < 2 ^ (64 * k)) :
    (s.memWrite rd k v).memRead rd k = v :=
  (s.memRead_memWrite_same rd k v).trans (Nat.mod_eq_of_lt hv)

section Shapes

variable {i : Instr} {s : State} {rd : Addr} {k v : Nat} {b : Bool}

/-- A ready command completes with its effect, and then pc + 1, where the effect keeps the frame and draws nothing. -/
theorem completes_of_issue {e : State} {post : State → Prop} (hready : Ready i s) (hexec : exec i s = issue i s e)
    (hframe : FrameKept i s e.advance) (hfree : e.freeCount = s.freeCount) (hpost : post e.advance) : Completes i s post :=
  ⟨e.advance, by rw [hexec, issue, framingFault_of_ready hready], hframe, hfree, hpost⟩

/-- A ready command that writes words. -/
theorem completes_value (hready : Ready i s) (hexec : exec i s = issue i s (s.memWrite rd k v))
    (hdest : destOf i = some (rd, k)) (hv : v < 2 ^ (64 * k)) : Completes i s fun t => t.memRead rd k = v := by
  refine completes_of_memWrite hready hexec hdest ?_
  rw [State.memRead_advance, s.memRead_memWrite_of_lt rd hv]

/-- A ready command that writes words and T. -/
theorem completes_value_flag (hready : Ready i s) (hexec : exec i s = issue i s ((s.memWrite rd k v).setT b))
    (hdest : destOf i = some (rd, k)) (hflag : writesT i = true) (hv : v < 2 ^ (64 * k)) :
    Completes i s fun t => t.memRead rd k = v ∧ t.t = b := by
  refine completes_of_issue hready hexec ((frameKept_memWrite v hdest).setT b hflag) rfl ⟨?_, rfl⟩
  rw [State.memRead_advance, State.memRead_setT, s.memRead_memWrite_of_lt rd hv]

/-- A ready command that writes T only. -/
theorem completes_flag (hready : Ready i s) (hexec : exec i s = issue i s (s.setT b)) (hflag : writesT i = true) :
    Completes i s fun t => t.t = b ∧ t.buf = s.buf :=
  completes_of_issue hready hexec ((frameKept_advance i s).setT b hflag) rfl ⟨rfl, rfl⟩

end Shapes

/-! ### Differences modulo 2^256 (R62, R63) -/

/-- Adding n − b without borrow is subtracting b modulo n. -/
theorem intCast_add_sub_mod {n b : Nat} (a : Nat) (hb : b ≤ n) :
    (((a + (n - b)) % n : Nat) : Int) = ((a : Int) - b) % n := by
  have hshift : (a : Int) + (n - b) = a - b + n := by ring
  push_cast [hb]
  rw [hshift, Int.add_emod_right]

/-- A ready command that writes the difference a − b modulo 2^256 and its borrow. -/
theorem completes_difference {i : Instr} {s : State} {rd : Addr} {a b : Nat} (hb : b < 2 ^ 256) (hready : Ready i s)
    (hexec : exec i s = issue i s ((s.memWrite rd 4 ((a + (2 ^ 256 - b)) % 2 ^ 256)).setT (borrowOut a b)))
    (hdest : destOf i = some (rd, 4)) (hflag : writesT i = true) :
    Completes i s fun t => (t.memRead rd 4 : Int) = ((a : Int) - b) % 2 ^ 256 ∧ (t.t = true ↔ a < b) := by
  refine (completes_value_flag hready hexec hdest hflag (Nat.mod_lt _ (by decide))).mono ?_
  rintro t ⟨hvalue, hborrow⟩
  rw [hvalue, hborrow, borrowOut_iff]
  exact ⟨mod_cast intCast_add_sub_mod a hb.le, Iff.rfl⟩

/-! ### Products and the range check (R64, R65, R128) -/

/-- The product of a j-word and a k-word value fits in j + k words. -/
theorem State.memRead_mul_lt (s : State) (ra rb : Addr) {j k n : Nat} (hn : j + k = n) :
    s.memRead ra j * s.memRead rb k < 2 ^ (64 * n) := by
  rw [← hn, Nat.mul_add, Nat.pow_add]
  exact Nat.mul_lt_mul'' (s.memRead_lt ra j) (s.memRead_lt rb k)

theorem operandFits_iff {o : Operand} : operandFits o = true ↔ o.2 = 0 ∨ o.1.toNat + o.2 ≤ 65536 := by
  rw [operandFits, Bool.or_eq_true, decide_eq_true_iff, decide_eq_true_iff]
  rfl

/-- A command that a check of R55 finds at fault enters that fault with its own word. -/
theorem faults_of_framingFault {i : Instr} {s : State} {x : ArchFault} (hi : i ≠ .halt)
    (hfault : framingFault i s = some x) : Faults i s x.code := by
  obtain ⟨e, hexec, -⟩ := exec_effect i s hi
  rw [Faults, hexec, issue, hfault]
  rfl

/-- An operand with words past the end of BUF is an AddressRange, where pc is not the last index (R36, R128, R130). -/
theorem faults_of_operand_past_end {i : Instr} {s : State} {o : Operand} (hi : i ≠ .halt) (hpc : s.pc ≠ 0xFFFF#16)
    (ho : o ∈ operandsOf i) (hwords : 0 < o.2) (hpast : 65536 < o.1.toNat + o.2) : Faults i s 2#4 := by
  obtain ⟨-, -, hlast⟩ | ⟨hfault, -⟩ | ⟨-, -, hall⟩ := framingFault_cases i s
  · exact absurd hlast hpc
  · exact faults_of_framingFault hi hfault
  · have hfits := operandFits_iff.mp (List.all_eq_true.mp hall o ho)
    omega

/-! ### The obligations of the integer core -/

/-- Settles O26: IADD writes the sum modulo 2^256, which fits in four words, and the carry. -/
theorem iaddAddsExactlyWithCarryOut : Obligations.IaddAddsExactlyWithCarryOut := by
  refine ⟨opcodeIs_of_mem (e := ⟨_, _, fun f => .iadd f.rd f.ra f.rb⟩) (by simp [opcodeMap]), fun rd ra rb s hready => ?_⟩
  refine (completes_value_flag hready rfl rfl rfl (Nat.mod_lt _ (by decide))).mono ?_
  rintro t ⟨hsum, hcarry⟩
  exact ⟨hsum, by rw [hcarry, carryOut_iff]⟩

/-- Settles O27: ISUB and ISUBR write one difference each, with the operands exchanged. -/
theorem isubAndIsubrSubtractWithBorrowOut : Obligations.IsubAndIsubrSubtractWithBorrowOut := by
  refine ⟨opcodeIs_of_mem (e := ⟨_, _, fun f => .isub f.rd f.ra f.rb⟩) (by simp [opcodeMap]),
    opcodeIs_of_mem (e := ⟨_, _, fun f => .isubr f.rd f.ra f.rb⟩) (by simp [opcodeMap]), ?_, ?_⟩
  · intro rd ra rb s hready
    exact completes_difference (s.memRead_lt rb 4) hready rfl rfl rfl
  · intro rd ra rb s hready
    exact completes_difference (s.memRead_lt ra 4) hready rfl rfl rfl

/-- Settles O28: the product needs no more than the eight words of the destination, which must fit in BUF. -/
theorem imulAndIsqrGiveTheFullProduct : Obligations.ImulAndIsqrGiveTheFullProduct := by
  refine ⟨opcodeIs_of_mem (e := ⟨_, _, fun f => .imul f.rd f.ra f.rb⟩) (by simp [opcodeMap]),
    opcodeIs_of_mem (e := ⟨_, _, fun f => .isqr f.rd f.ra⟩) (by simp [opcodeMap]), ?_, ?_, ?_⟩
  · intro rd ra rb s hready
    exact completes_value hready rfl rfl (s.memRead_mul_lt ra rb rfl)
  · intro rd ra s hready
    exact completes_value hready rfl rfl (s.memRead_mul_lt ra ra rfl)
  · intro rd ra rb s hpc hrd
    have hpast : 65536 < rd.toNat + 8 := by omega
    exact ⟨faults_of_operand_past_end (o := (rd, 8)) (by simp) hpc (by simp [operandsOf, destOf]) (by simp) hpast,
      faults_of_operand_past_end (o := (rd, 8)) (by simp) hpc (by simp [operandsOf, destOf]) (by simp) hpast⟩

/-- Settles O29: ITSTZ and IEQ have no destination, and T is their test. -/
theorem itstzAndIeqSetTheFlag : Obligations.ItstzAndIeqSetTheFlag := by
  refine ⟨opcodeIs_of_mem (e := ⟨_, _, fun f => .itstz f.ra⟩) (by simp [opcodeMap]),
    opcodeIs_of_mem (e := ⟨_, _, fun f => .ieq f.ra f.rb⟩) (by simp [opcodeMap]), ?_, ?_⟩
  · intro ra s hready
    refine (completes_flag hready rfl rfl).mono ?_
    rintro t ⟨hzero, hbuf⟩
    exact ⟨by rw [hzero, isZero_iff], hbuf⟩
  · intro ra rb s hready
    refine (completes_flag hready rfl rfl).mono ?_
    rintro t ⟨hequal, hbuf⟩
    exact ⟨by rw [hequal, isEqual_iff], hbuf⟩

/-- Settles O30: ICOPY writes the value that it has read before the write, and ICLR writes 0. -/
theorem icopyCopiesAndIclrClears : Obligations.IcopyCopiesAndIclrClears := by
  refine ⟨opcodeIs_of_mem (e := ⟨_, _, fun f => .icopy f.rd f.ra⟩) (by simp [opcodeMap]),
    opcodeIs_of_mem (e := ⟨_, _, fun f => .iclr f.rd⟩) (by simp [opcodeMap]), ?_, ?_⟩
  · intro rd ra s hready
    exact completes_value hready rfl rfl (s.memRead_lt ra 4)
  · intro rd s hready
    exact completes_value hready rfl rfl (by decide)

end Sys2Proof.Machine
end

section
/-! The Montgomery field functions (R70 to R81).  A reduced element `a` represents the element `a·R⁻¹` of the field of p elements
(R73), `F.value a`.  REDC divides by R (R72), so each function of the field engine is an operation of that field on represented
values, and two reduced elements that represent the same value are equal. -/

namespace Sys2Proof.Machine

/-! ### Montgomery reduction (R71, R72) -/

/-- What `i` steps of R71 have made of `t`: a multiple of 2^(64 i), congruent to `t` modulo p, to which less than 2^(64 i)·p has
been added. -/
structure RedcState (F : Desc) (t i u : Nat) : Prop where
  dvd : 2 ^ (64 * i) ∣ u
  modEq : u ≡ t [MOD F.p]
  lt : u < t + 2 ^ (64 * i) * F.p

theorem RedcState.start {F : Desc} (h : F.WF) (t : Nat) : RedcState F t 0 t where
  dvd := one_dvd t
  modEq := rfl
  lt := by
    have := h.ge_three
    omega

/-- The multiplier −p⁻¹ makes p times it cancel a word modulo 2^64 (R25). -/
theorem Desc.WF.word_dvd {F : Desc} (h : F.WF) (q : Nat) : 2 ^ 64 ∣ q + q % 2 ^ 64 * F.NINV.toNat % 2 ^ 64 * F.p := by
  have hninv : F.NINV.toNat * F.p + 1 ≡ 0 [MOD 2 ^ 64] := by
    have := h.ninv
    unfold Nat.ModEq
    omega
  have hm : q % 2 ^ 64 * F.NINV.toNat % 2 ^ 64 ≡ q * F.NINV.toNat [MOD 2 ^ 64] :=
    (Nat.mod_modEq _ _).trans ((Nat.mod_modEq _ _).mul_right _)
  refine (Nat.modEq_zero_iff_dvd).mp ?_
  calc q + q % 2 ^ 64 * F.NINV.toNat % 2 ^ 64 * F.p
      ≡ q + q * F.NINV.toNat * F.p [MOD 2 ^ 64] := (hm.mul_right _).add_left _
    _ = q * (F.NINV.toNat * F.p + 1) := by ring
    _ ≡ q * 0 [MOD 2 ^ 64] := hninv.mul_left _
    _ = 0 := mul_zero q

/-- Step `i` of R71 clears word `i`. -/
theorem RedcState.step {F : Desc} {t i u : Nat} (h : F.WF) (hu : RedcState F t i u) :
    RedcState F t (i + 1) (redcStep F i u) := by
  obtain ⟨⟨q, rfl⟩, hmod, hlt⟩ := hu
  have hlimb : limb (2 ^ (64 * i) * q) i = q % 2 ^ 64 := by
    rw [limb, Nat.mul_div_cancel_left q (by positivity)]
  have hpow : 2 ^ (64 * (i + 1)) = 2 ^ (64 * i) * 2 ^ 64 := pow_add 2 (64 * i) 64
  have hm : q % 2 ^ 64 * F.NINV.toNat % 2 ^ 64 < 2 ^ 64 := Nat.mod_lt _ (by decide)
  rw [redcStep, hlimb]
  have hdvd := h.word_dvd q
  generalize q % 2 ^ 64 * F.NINV.toNat % 2 ^ 64 = m at hm hdvd ⊢
  refine ⟨?_, ?_, ?_⟩
  · rw [hpow, show 2 ^ (64 * i) * q + m * F.p * 2 ^ (64 * i) = 2 ^ (64 * i) * (q + m * F.p) by ring]
    exact mul_dvd_mul_left _ hdvd
  · rw [mul_right_comm]
    exact (Nat.add_mul_mod_self_right ..).trans hmod
  · have hstep : (m + 1) * (F.p * 2 ^ (64 * i)) ≤ 2 ^ 64 * (F.p * 2 ^ (64 * i)) := Nat.mul_le_mul_right _ hm
    rw [hpow]
    linarith

/-- R72: on its domain the algorithm of R71 answers the reduced quotient of `t` by R modulo p. -/
theorem Desc.WF.redc_lt_and_modEq {F : Desc} {t : Nat} (h : F.WF) (ht : t < 2 ^ 256 * F.p) :
    redc F t < F.p ∧ redc F t * 2 ^ 256 ≡ t [MOD F.p] := by
  obtain ⟨⟨v, hv⟩, hmod, hlt⟩ := ((((RedcState.start h t).step h).step h).step h).step h
  rw [show 64 * (0 + 1 + 1 + 1 + 1) = 256 from rfl] at hv hlt
  have hquot : redcStep F 3 (redcStep F 2 (redcStep F 1 (redcStep F 0 t))) / 2 ^ 256 = v := by
    rw [hv, Nat.mul_div_cancel_left v (by positivity)]
  rw [hv] at hmod hlt
  have hbound : v < 2 * F.p := by omega
  have hredc : redc F t = if F.p ≤ v then v - F.p else v := by rw [redc, hquot]
  rw [mul_comm] at hmod
  rw [hredc]
  split
  next hle =>
    refine ⟨by omega, ?_⟩
    have hsub : v - F.p ≡ v [MOD F.p] := (Nat.modEq_iff_dvd' (by omega)).mpr ⟨1, by omega⟩
    exact (hsub.mul_right _).trans hmod
  next hgt => exact ⟨by omega, hmod⟩

/-! ### Fields of characteristic p -/

/-- R as an element of a field. -/
def radix (K : Type) [Field K] : K := 2 ^ 256

/-- The element of a field of characteristic p that the field element `a` of the engine represents (R73): a·R⁻¹. -/
def fieldValue (K : Type) [Field K] (a : Nat) : K := a / radix K

/-- The represented values live in some field: the integers modulo p. -/
theorem exists_field_of_prime {p : Nat} (hp : p.Prime) : ∃ (K : Type) (_ : Field K), CharP K p :=
  have : Fact p.Prime := ⟨hp⟩
  ⟨ZMod p, inferInstance, inferInstance⟩

theorem Desc.p_lt (F : Desc) : F.p < 2 ^ 256 := quadVal_lt F.P

theorem Desc.WF.pos {F : Desc} (h : F.WF) : 0 < F.p := h.prime.pos

section Values

variable {K : Type} [Field K] {F : Desc} [CharP K F.p] {a b e nb : Nat}

/-- Reduced numbers that are equal modulo p are equal. -/
theorem Desc.natCast_inj (ha : a < F.p) (hb : b < F.p) (heq : (a : K) = b) : a = b :=
  ((CharP.natCast_eq_natCast K F.p).mp heq).eq_of_lt_of_lt ha hb

theorem Desc.natCast_ne_zero (hpos : 0 < a) (ha : a < F.p) : (a : K) ≠ 0 := fun hzero =>
  Nat.not_dvd_of_pos_of_lt hpos ha ((CharP.cast_eq_zero_iff K F.p a).mp hzero)

theorem Desc.natCast_mod (a : Nat) : ((a % F.p : Nat) : K) = a :=
  (CharP.natCast_eq_natCast K F.p).mpr (Nat.mod_modEq a F.p)

theorem natCast_radix : ((2 ^ 256 : Nat) : K) = radix K := by
  rw [Nat.cast_pow, Nat.cast_ofNat, radix]

/-- p is odd, so R is a unit modulo p. -/
theorem Desc.WF.radix_ne_zero (h : F.WF) : radix K ≠ 0 := by
  refine pow_ne_zero 256 ?_
  exact_mod_cast Desc.natCast_ne_zero (K := K) (F := F) Nat.two_pos h.ge_three

/-! ### The represented value (R73) -/

/-- Reduced elements that represent the same value are equal. -/
theorem Desc.WF.fieldValue_inj (h : F.WF) (ha : a < F.p) (hb : b < F.p) (heq : fieldValue K a = fieldValue K b) : a = b :=
  Desc.natCast_inj ha hb ((div_left_inj' h.radix_ne_zero).mp heq)

theorem fieldValue_zero : fieldValue K 0 = 0 := by simp [fieldValue]

theorem fieldValue_mul (a b : Nat) : fieldValue K (a * b) = fieldValue K a * b := by
  rw [fieldValue, fieldValue, Nat.cast_mul, div_mul_eq_mul_div]

theorem Desc.fieldValue_mod (a : Nat) : fieldValue K (a % F.p) = fieldValue K a := by
  rw [fieldValue, Desc.natCast_mod, fieldValue]

theorem Desc.WF.fieldValue_radix_pow (h : F.WF) (n : Nat) : fieldValue K ((2 ^ 256) ^ (n + 1)) = radix K ^ n := by
  rw [fieldValue, Nat.cast_pow, natCast_radix, pow_succ, mul_div_cancel_right₀ _ h.radix_ne_zero]

theorem Desc.WF.fieldValue_radix (h : F.WF) : fieldValue K (2 ^ 256) = 1 := by
  rw [fieldValue, natCast_radix, div_self h.radix_ne_zero]

theorem Desc.WF.fieldValue_ne_zero (h : F.WF) (hpos : 0 < a) (ha : a < F.p) : fieldValue K a ≠ 0 :=
  div_ne_zero (Desc.natCast_ne_zero hpos ha) h.radix_ne_zero

/-! ### The constants of the descriptor (R25) and Montgomery form (R73) -/

theorem Desc.WF.one_lt (h : F.WF) : F.one < F.p := h.r1.trans_lt (Nat.mod_lt _ h.pos)

theorem Desc.WF.r2_lt (h : F.WF) : quadVal F.R2 < F.p := h.r2.trans_lt (Nat.mod_lt _ h.pos)

theorem Desc.WF.r3_lt (h : F.WF) : quadVal F.R3 < F.p := h.r3.trans_lt (Nat.mod_lt _ h.pos)

theorem Desc.WF.fieldValue_one (h : F.WF) : fieldValue K F.one = 1 := by
  rw [Desc.one, h.r1, Desc.fieldValue_mod, h.fieldValue_radix]

theorem Desc.WF.fieldValue_r2 (h : F.WF) : fieldValue K (quadVal F.R2) = radix K := by
  rw [h.r2, Desc.fieldValue_mod, h.fieldValue_radix_pow, pow_one]

theorem Desc.WF.fieldValue_r3 (h : F.WF) : fieldValue K (quadVal F.R3) = radix K ^ 2 := by
  rw [h.r3, Desc.fieldValue_mod, h.fieldValue_radix_pow]

theorem Desc.WF.mont_lt (h : F.WF) (x : Nat) : mont F x < F.p := Nat.mod_lt _ h.pos

/-- The Montgomery form of `x` represents `x`. -/
theorem Desc.WF.fieldValue_mont (h : F.WF) (x : Nat) : fieldValue K (mont F x) = x := by
  rw [mont, Desc.fieldValue_mod, mul_comm, fieldValue_mul, h.fieldValue_radix, one_mul]

/-! ### The functions of the field engine on represented values (R72, R77 to R81) -/

theorem Desc.WF.redc_lt (h : F.WF) (ha : a < 2 ^ 256 * F.p) : redc F a < F.p := (h.redc_lt_and_modEq ha).1

/-- REDC answers the value that its operand represents. -/
theorem Desc.WF.natCast_redc (h : F.WF) (ha : a < 2 ^ 256 * F.p) : (redc F a : K) = fieldValue K a := by
  obtain ⟨-, hmod⟩ := h.redc_lt_and_modEq ha
  have hcast := (CharP.natCast_eq_natCast K F.p).mpr hmod
  rw [Nat.cast_mul, natCast_radix] at hcast
  exact eq_div_of_mul_eq h.radix_ne_zero hcast

/-- A product of reduced elements is in the domain of REDC. -/
theorem Desc.mul_lt (ha : a < F.p) (hb : b < F.p) : a * b < 2 ^ 256 * F.p :=
  Nat.mul_lt_mul'' (ha.trans F.p_lt) hb

/-- A reduced element is in the domain of REDC. -/
theorem Desc.lt_redcDomain (ha : a < F.p) : a < 2 ^ 256 * F.p := by omega

theorem Desc.WF.fmul_lt (h : F.WF) (ha : a < F.p) (hb : b < F.p) : fmul F a b < F.p := h.redc_lt (Desc.mul_lt ha hb)

theorem Desc.WF.fieldValue_fmul (h : F.WF) (ha : a < F.p) (hb : b < F.p) :
    fieldValue K (fmul F a b) = fieldValue K a * fieldValue K b := by
  rw [fieldValue, fmul, h.natCast_redc (Desc.mul_lt ha hb), fieldValue_mul, mul_div_assoc, ← fieldValue]

theorem fsqr_eq_fmul (F : Desc) (a : Nat) : fsqr F a = fmul F a a := rfl

theorem fpowLoop_zero (F : Desc) (e r s : Nat) : fpowLoop F 0 e r s = r := rfl

/-- One round of the loop of R78.  The kernel must not compare the two calls before they are unfolded: it would compute with the
literals of `redc`. -/
theorem fpowLoop_succ (F : Desc) (nb e r s : Nat) :
    fpowLoop F (nb + 1) e r s = fpowLoop F nb (e / 2) (if e % 2 = 1 then fmul F r s else r) (fsqr F s) := by
  delta fpowLoop
  rfl

/-- The loop of R78 multiplies the accumulator by the power of the running square that is left. -/
theorem Desc.WF.fpowLoop_lt_and_fieldValue (h : F.WF) {r s : Nat} (hr : r < F.p) (hs : s < F.p) (he : e < 2 ^ nb) :
    fpowLoop F nb e r s < F.p ∧ fieldValue K (fpowLoop F nb e r s) = fieldValue K r * fieldValue K s ^ e := by
  induction nb generalizing e r s with
  | zero =>
    obtain rfl : e = 0 := by omega
    simpa [fpowLoop_zero] using hr
  | succ nb ih =>
    have hhalf : e / 2 < 2 ^ nb := by
      rw [pow_succ] at he
      omega
    have hsq : fieldValue K (fsqr F s) ^ (e / 2) = fieldValue K s ^ (2 * (e / 2)) := by
      rw [fsqr_eq_fmul, h.fieldValue_fmul hs hs, ← sq, ← pow_mul]
    by_cases hodd : e % 2 = 1
    · obtain ⟨hlt, hval⟩ := ih (h.fmul_lt hr hs) (h.fmul_lt hs hs) hhalf
      rw [fpowLoop_succ, if_pos hodd]
      refine ⟨hlt, hval.trans ?_⟩
      rw [← fsqr_eq_fmul, hsq, h.fieldValue_fmul hr hs, mul_assoc, ← pow_succ', show 2 * (e / 2) + 1 = e by omega]
    · obtain ⟨hlt, hval⟩ := ih hr (h.fmul_lt hs hs) hhalf
      rw [fpowLoop_succ, if_neg hodd]
      refine ⟨hlt, hval.trans ?_⟩
      rw [← fsqr_eq_fmul, hsq, show 2 * (e / 2) = e by omega]

theorem Desc.WF.fieldValue_fpow (h : F.WF) (ha : a < F.p) (he : e < 2 ^ nb) :
    fieldValue K (fpow F a e nb) = fieldValue K a ^ e := by
  rw [fpow, (h.fpowLoop_lt_and_fieldValue h.one_lt ha he).2, h.fieldValue_one, one_mul]

theorem stdinv_eq (F : Desc) (a : Nat) : stdinv F a = a ^ (F.p - 2) % F.p := by
  have := F.p_lt
  exact powMod_eq _ _ _ _ (by omega)

theorem Desc.WF.stdinv_lt (h : F.WF) (a : Nat) : stdinv F a < F.p := (stdinv_eq F a).trans_lt (Nat.mod_lt _ h.pos)

/-- Fermat's theorem. -/
theorem Desc.WF.natCast_pow_sub_one (h : F.WF) (hpos : 0 < a) (ha : a < F.p) : (a : K) ^ (F.p - 1) = 1 := by
  have hcoprime : a.Coprime F.p := (Nat.coprime_of_lt_prime hpos.ne' ha h.prime).symm
  have hfermat := Nat.ModEq.pow_totient hcoprime
  rw [Nat.totient_prime h.prime] at hfermat
  exact_mod_cast (CharP.natCast_eq_natCast K F.p).mpr hfermat

/-- R79: the standard inverse is the inverse in the field. -/
theorem Desc.WF.natCast_stdinv (h : F.WF) (hpos : 0 < a) (ha : a < F.p) : (stdinv F a : K) = (a : K)⁻¹ := by
  have hp := h.ge_three
  refine eq_inv_of_mul_eq_one_left ?_
  rw [stdinv_eq, Desc.natCast_mod, Nat.cast_pow, ← pow_succ, show F.p - 2 + 1 = F.p - 1 by omega,
    h.natCast_pow_sub_one hpos ha]

/-- a·a⁻¹ = 1 modulo p. -/
theorem Desc.WF.mul_stdinv_mod (h : F.WF) (hpos : 0 < a) (ha : a < F.p) : a * stdinv F a % F.p = 1 := by
  obtain ⟨K, _, _⟩ := exists_field_of_prime h.prime
  refine Desc.natCast_inj (K := K) (Nat.mod_lt _ h.pos) h.prime.one_lt ?_
  rw [Desc.natCast_mod, Nat.cast_mul, h.natCast_stdinv hpos ha, mul_inv_cancel₀ (Desc.natCast_ne_zero hpos ha), Nat.cast_one]

/-- There is one reduced inverse modulo p. -/
theorem Desc.WF.eq_stdinv_of_mul_mod (h : F.WF) (hpos : 0 < a) (ha : a < F.p) (hb : b < F.p) (hmul : a * b % F.p = 1) :
    b = stdinv F a := by
  obtain ⟨K, _, _⟩ := exists_field_of_prime h.prime
  refine Desc.natCast_inj (K := K) hb (h.stdinv_lt a) ?_
  rw [h.natCast_stdinv hpos ha]
  refine eq_inv_of_mul_eq_one_right ?_
  rw [← Nat.cast_mul, ← Desc.natCast_mod (F := F), hmul, Nat.cast_one]

theorem Desc.WF.finv_lt (h : F.WF) (a : Nat) : finv F a < F.p := h.fmul_lt (h.stdinv_lt a) h.r3_lt

/-- R80: the product by R3 brings in two factors R. -/
theorem Desc.WF.fieldValue_finv_eq_mul (h : F.WF) (a : Nat) :
    fieldValue K (finv F a) = fieldValue K (stdinv F a) * radix K ^ 2 := by
  rw [finv, h.fieldValue_fmul (h.stdinv_lt a) h.r3_lt, h.fieldValue_r3]

/-- One factor R takes the represented value back to the element, the other makes the inverse of its R⁻¹. -/
theorem Desc.WF.fieldValue_finv (h : F.WF) (hpos : 0 < a) (ha : a < F.p) :
    fieldValue K (finv F a) = (fieldValue K a)⁻¹ := by
  have hR : radix K ≠ 0 := h.radix_ne_zero
  rw [h.fieldValue_finv_eq_mul, fieldValue, h.natCast_stdinv hpos ha, fieldValue]
  field_simp

theorem Desc.WF.fdiv_lt (h : F.WF) (b a : Nat) : fdiv F b a < F.p := h.fmul_lt (Nat.mod_lt _ h.pos) h.r2_lt

/-- R80: the product by R2 brings in one factor R. -/
theorem Desc.WF.fieldValue_fdiv_eq_mul (h : F.WF) (b a : Nat) :
    fieldValue K (fdiv F b a) = fieldValue K (b * stdinv F a) * radix K := by
  rw [fdiv, h.fieldValue_fmul (Nat.mod_lt _ h.pos) h.r2_lt, h.fieldValue_r2, Desc.fieldValue_mod]

theorem Desc.WF.fieldValue_fdiv (h : F.WF) (b : Nat) (hpos : 0 < a) (ha : a < F.p) :
    fieldValue K (fdiv F b a) = fieldValue K b * (fieldValue K a)⁻¹ := by
  have hR : radix K ≠ 0 := h.radix_ne_zero
  rw [h.fieldValue_fdiv_eq_mul, fieldValue_mul, h.natCast_stdinv hpos ha, fieldValue, fieldValue]
  field_simp

/-! ### The functions of the field engine on reduced elements -/

/-- With any inverse of R modulo p, REDC is the product by it. -/
theorem Desc.WF.redc_eq_mul_inverse (h : F.WF) (ha : a < 2 ^ 256 * F.p) {rInv : Nat} (hinv : 2 ^ 256 * rInv % F.p = 1) :
    redc F a = a * rInv % F.p := by
  obtain ⟨K, _, _⟩ := exists_field_of_prime h.prime
  have hcast : (rInv : K) = (radix K)⁻¹ := by
    refine eq_inv_of_mul_eq_one_right ?_
    rw [← natCast_radix, ← Nat.cast_mul, ← Desc.natCast_mod (F := F), hinv, Nat.cast_one]
  refine Desc.natCast_inj (K := K) (h.redc_lt ha) (Nat.mod_lt _ h.pos) ?_
  rw [h.natCast_redc ha, Desc.natCast_mod, Nat.cast_mul, hcast, fieldValue, div_eq_mul_inv]

theorem Desc.WF.fmul_one (h : F.WF) (ha : a < F.p) : fmul F a F.one = a := by
  obtain ⟨K, _, _⟩ := exists_field_of_prime h.prime
  refine h.fieldValue_inj (K := K) (h.fmul_lt ha h.one_lt) ha ?_
  rw [h.fieldValue_fmul ha h.one_lt, h.fieldValue_one, mul_one]

theorem Desc.WF.fmul_mont (h : F.WF) (x y : Nat) : fmul F (mont F x) (mont F y) = mont F (x * y % F.p) := by
  obtain ⟨K, _, _⟩ := exists_field_of_prime h.prime
  refine h.fieldValue_inj (K := K) (h.fmul_lt (h.mont_lt x) (h.mont_lt y)) (h.mont_lt _) ?_
  rw [h.fieldValue_fmul (h.mont_lt x) (h.mont_lt y), h.fieldValue_mont, h.fieldValue_mont, h.fieldValue_mont,
    Desc.natCast_mod, Nat.cast_mul]

theorem Desc.WF.fpow_lt (h : F.WF) (ha : a < F.p) (he : e < 2 ^ nb) : fpow F a e nb < F.p := by
  obtain ⟨K, _, _⟩ := exists_field_of_prime h.prime
  exact (h.fpowLoop_lt_and_fieldValue (K := K) h.one_lt ha he).1

/-- `fpow` answers the one reduced element that represents the power. -/
theorem Desc.WF.fpow_eq (h : F.WF) (ha : a < F.p) (he : e < 2 ^ nb) (hb : b < F.p)
    (hvalue : fieldValue K b = fieldValue K a ^ e) : fpow F a e nb = b :=
  h.fieldValue_inj (h.fpow_lt ha he) hb ((h.fieldValue_fpow ha he).trans hvalue.symm)

theorem Desc.WF.fmul_finv (h : F.WF) (hpos : 0 < a) (ha : a < F.p) : fmul F a (finv F a) = F.one := by
  obtain ⟨K, _, _⟩ := exists_field_of_prime h.prime
  refine h.fieldValue_inj (K := K) (h.fmul_lt ha (h.finv_lt a)) h.one_lt ?_
  rw [h.fieldValue_fmul ha (h.finv_lt a), h.fieldValue_finv hpos ha, mul_inv_cancel₀ (h.fieldValue_ne_zero hpos ha),
    h.fieldValue_one]

theorem Desc.WF.fdiv_eq_fmul_finv (h : F.WF) (hpos : 0 < a) (ha : a < F.p) (hb : b < F.p) :
    fdiv F b a = fmul F b (finv F a) := by
  obtain ⟨K, _, _⟩ := exists_field_of_prime h.prime
  refine h.fieldValue_inj (K := K) (h.fdiv_lt b a) (h.fmul_lt hb (h.finv_lt a)) ?_
  rw [h.fieldValue_fdiv b hpos ha, h.fieldValue_fmul hb (h.finv_lt a), h.fieldValue_finv hpos ha]

theorem Desc.WF.fmul_fdiv (h : F.WF) (hpos : 0 < a) (ha : a < F.p) (hb : b < F.p) : fmul F (fdiv F b a) a = b := by
  obtain ⟨K, _, _⟩ := exists_field_of_prime h.prime
  refine h.fieldValue_inj (K := K) (h.fmul_lt (h.fdiv_lt b a) ha) hb ?_
  rw [h.fieldValue_fmul (h.fdiv_lt b a) ha, h.fieldValue_fdiv b hpos ha,
    inv_mul_cancel_right₀ (h.fieldValue_ne_zero hpos ha)]

theorem Desc.WF.tostd_lt (h : F.WF) (ha : a < F.p) : tostd F a < F.p := h.redc_lt (Desc.lt_redcDomain ha)

theorem Desc.WF.natCast_tostd (h : F.WF) (ha : a < F.p) : (tostd F a : K) = fieldValue K a :=
  h.natCast_redc (Desc.lt_redcDomain ha)

theorem Desc.WF.mont_tostd (h : F.WF) (ha : a < F.p) : mont F (tostd F a) = a := by
  obtain ⟨K, _, _⟩ := exists_field_of_prime h.prime
  refine h.fieldValue_inj (K := K) (h.mont_lt _) ha ?_
  rw [h.fieldValue_mont, h.natCast_tostd ha]

theorem Desc.WF.tostd_mont (h : F.WF) (ha : a < F.p) : tostd F (mont F a) = a := by
  obtain ⟨K, _, _⟩ := exists_field_of_prime h.prime
  refine Desc.natCast_inj (K := K) (h.tostd_lt (h.mont_lt a)) ha ?_
  rw [h.natCast_tostd (h.mont_lt a), h.fieldValue_mont]

theorem Desc.WF.fromstd_eq_mont (h : F.WF) (ha : a < F.p) : fromstd F a = mont F a := by
  obtain ⟨K, _, _⟩ := exists_field_of_prime h.prime
  refine h.fieldValue_inj (K := K) (h.fmul_lt ha h.r2_lt) (h.mont_lt a) ?_
  rw [fromstd, h.fieldValue_fmul ha h.r2_lt, h.fieldValue_r2, h.fieldValue_mont, fieldValue,
    div_mul_cancel₀ _ h.radix_ne_zero]

theorem Desc.WF.fpow_eq_mont (h : F.WF) (ha : a < F.p) (he : e < 2 ^ nb) : fpow F a e nb = mont F (tostd F a ^ e) := by
  obtain ⟨K, _, _⟩ := exists_field_of_prime h.prime
  refine h.fpow_eq (K := K) ha he (h.mont_lt _) ?_
  rw [h.fieldValue_mont, Nat.cast_pow, h.natCast_tostd ha]

/-- Fermat's theorem on represented values: the represented value is that of a reduced number that is not 0. -/
theorem Desc.WF.fieldValue_pow_sub_one (h : F.WF) (hpos : 0 < a) (ha : a < F.p) : fieldValue K a ^ (F.p - 1) = 1 := by
  have hne : tostd F a ≠ 0 := by
    intro hzero
    have hmont := h.mont_tostd ha
    rw [hzero, mont, zero_mul, Nat.zero_mod] at hmont
    omega
  rw [← h.natCast_tostd ha, h.natCast_pow_sub_one (Nat.pos_of_ne_zero hne) (h.tostd_lt ha)]

/-! ### Addition, subtraction, negation (R74 to R76) -/

theorem fadd_eq_mod (ha : a < F.p) (hb : b < F.p) : fadd F a b = (a + b) % F.p := by
  rw [fadd]
  split
  next hle => rw [Nat.mod_eq_sub_mod hle, Nat.mod_eq_of_lt (by omega)]
  next hgt => rw [Nat.mod_eq_of_lt (by omega)]

/-- The correction of R75 is on the exact difference. -/
theorem fsub_eq_ite (hb : b < F.p) : (fsub F a b : Int) = if a < b then (a : Int) - b + F.p else (a : Int) - b := by
  rw [fsub]
  split <;> omega

theorem fsub_lt (ha : a < F.p) (hb : b < F.p) : fsub F a b < F.p := by
  rw [fsub]
  split <;> omega

theorem fsub_eq_emod (ha : a < F.p) (hb : b < F.p) : (fsub F a b : Int) = ((a : Int) - b) % F.p := by
  rw [fsub_eq_ite hb]
  split
  next hlt => rw [← Int.add_emod_right, Int.emod_eq_of_lt (by omega) (by omega)]
  next hge => rw [Int.emod_eq_of_lt (by omega) (by omega)]

/-- The complement of `a` plus p + 1 is 2^256 + (p − a) (R76). -/
theorem Desc.WF.fneg_eq_sub (h : F.WF) (hpos : 0 < a) (ha : a < F.p) : fneg F a = F.p - a := by
  have hp := F.p_lt
  rw [fneg, if_neg hpos.ne', h.pp1]
  omega

theorem Desc.WF.fneg_lt (h : F.WF) (ha : a < F.p) : fneg F a < F.p := by
  obtain rfl | hpos := Nat.eq_zero_or_pos a
  · simpa [fneg] using h.pos
  · rw [h.fneg_eq_sub hpos ha]
    omega

theorem Desc.WF.fneg_eq_emod (h : F.WF) (ha : a < F.p) : (fneg F a : Int) = -(a : Int) % F.p := by
  obtain rfl | hpos := Nat.eq_zero_or_pos a
  · simp [fneg]
  · rw [h.fneg_eq_sub hpos ha, ← Int.add_emod_right, Int.emod_eq_of_lt (by omega) (by omega)]
    omega

end Values

/-! ### The obligations of the field functions -/

/-- Settles O32, by the four steps of R71. -/
theorem redcDividesByTheRadixModP : Obligations.RedcDividesByTheRadixModP := by
  intro F t h ht
  obtain ⟨hlt, hmod⟩ := h.redc_lt_and_modEq ht
  exact ⟨hlt, hmod, fun rInv hinv => h.redc_eq_mul_inverse ht hinv⟩

/-- Settles O33, by the two cases of each correction. -/
theorem fieldAdditionIsModular : Obligations.FieldAdditionIsModular := by
  intro F a b h ha hb
  exact ⟨⟨rfl, fadd_eq_mod ha hb⟩, ⟨fsub_eq_ite hb, fsub_eq_emod ha hb⟩,
    rfl, fun hpos => h.fneg_eq_sub hpos ha, h.fneg_eq_emod ha⟩

/-- Settles O34: the field multiplies represented values, R1 represents 1, and the Montgomery form of x represents x. -/
theorem montgomeryFormIsMultiplicative : Obligations.MontgomeryFormIsMultiplicative := by
  intro F a b x y h ha hb
  exact ⟨rfl, rfl, h.fmul_lt ha hb, fun rInv hinv => h.redc_eq_mul_inverse (Desc.mul_lt ha hb) hinv, rfl,
    h.fmul_one ha, h.fmul_mont x y⟩

/-- Settles O35: every clause compares represented values, where `fpow` is a power; the last two are Fermat's theorem. -/
theorem fpowRaisesTheRepresentedValue : Obligations.FpowRaisesTheRepresentedValue := by
  intro F h
  obtain ⟨K, _, _⟩ := exists_field_of_prime h.prime
  refine ⟨fun x e nb he => ?_, fun a nb ha => ?_, fun a nb ha hnb => ?_, fun e nb hpos he => ?_,
    fun a e nb nb' ha he he' => ?_, fun a nb hpos ha hnb => ⟨?_, ?_⟩⟩
  · refine h.fpow_eq (K := K) (h.mont_lt x) he (h.mont_lt _) ?_
    rw [h.fieldValue_mont, h.fieldValue_mont, Nat.cast_pow]
  · refine h.fpow_eq (K := K) ha (by positivity) h.one_lt ?_
    rw [h.fieldValue_one, pow_zero]
  · exact h.fpow_eq (K := K) ha (Nat.one_lt_two_pow hnb.ne') ha (pow_one _).symm
  · refine h.fpow_eq (K := K) h.pos he h.pos ?_
    rw [fieldValue_zero, zero_pow hpos.ne']
  · exact h.fpow_eq (K := K) ha he (h.fpow_lt ha he') (h.fieldValue_fpow ha he')
  · refine h.fpow_eq (K := K) ha (by omega) h.one_lt ?_
    rw [h.fieldValue_one, h.fieldValue_pow_sub_one hpos ha]
  · have hp := h.ge_three
    refine h.fpow_eq (K := K) ha (by omega) (h.finv_lt a) ?_
    rw [h.fieldValue_finv hpos ha]
    refine (eq_inv_of_mul_eq_one_left ?_).symm
    rw [← pow_succ, show F.p - 2 + 1 = F.p - 1 by omega, h.fieldValue_pow_sub_one hpos ha]

/-- Settles O36: on represented values `finv` is the inverse and `fdiv` the quotient of the field. -/
theorem fieldInversionAndDivision : Obligations.FieldInversionAndDivision := by
  intro F a b h hpos ha hb
  obtain ⟨K, _, _⟩ := exists_field_of_prime h.prime
  have hinverse := h.mul_stdinv_mod hpos ha
  have hne : stdinv F a ≠ 0 := fun hzero => by simp [hzero] at hinverse
  refine ⟨⟨Nat.pos_of_ne_zero hne, h.stdinv_lt a, hinverse⟩, fun c hc => h.eq_stdinv_of_mul_mod hpos ha hc,
    stdinv_eq F a, rfl, rfl, ?_, ?_, h.fmul_finv hpos ha, ?_, h.fdiv_eq_fmul_finv hpos ha hb, h.fmul_fdiv hpos ha hb⟩
  · refine h.fieldValue_inj (K := K) (h.finv_lt a) (Nat.mod_lt _ h.pos) ?_
    rw [h.fieldValue_finv_eq_mul, Desc.fieldValue_mod, fieldValue_mul, Nat.cast_pow, natCast_radix]
  · refine h.fieldValue_inj (K := K) (h.fdiv_lt b a) (Nat.mod_lt _ h.pos) ?_
    rw [h.fieldValue_fdiv_eq_mul, Desc.fieldValue_mod, fieldValue_mul _ (2 ^ 256), natCast_radix]
  · exact (h.fdiv_eq_fmul_finv hpos ha ha).trans (h.fmul_finv hpos ha)

/-- Settles O37: both conversions are inverse to each other as maps of represented values. -/
theorem standardFormConversionsAreInverse : Obligations.StandardFormConversionsAreInverse := by
  intro F x h hx
  refine ⟨rfl, rfl, h.fromstd_eq_mont hx, h.tostd_lt hx, ?_, ?_⟩
  · rw [h.fromstd_eq_mont hx, h.tostd_mont hx]
  · rw [h.fromstd_eq_mont (h.tostd_lt hx), h.mont_tostd hx]

end Sys2Proof.Machine
end

section
/-! The commands of the Montgomery field engine (R82 to R95).  Where its precondition holds, a command is one MemWrite of the value
of its field function, which is reduced and therefore fits in the four words at rd; what is left of each statement is a fact about
that function. -/

namespace Sys2Proof.Machine

/-- A ready command that writes an element under a checked precondition that holds. -/
theorem completes_element {i : Instr} {s : State} {rd : Addr} {F : Desc} {c : Bool} {v : Nat} (hready : Ready i s)
    (hexec : exec i s = issue i s (s.writeResult rd 4 (whenPre c v))) (hdest : destOf i = some (rd, 4)) (hpre : c = true)
    (hv : v < F.p) : Completes i s fun t => t.memRead rd 4 = v := by
  subst hpre
  exact completes_value hready hexec hdest (hv.trans F.p_lt)

/-! ### The obligations of the field commands -/

/-- Settles O38: each command writes the function that O33 is about. -/
theorem fieldAdditionCommandsWriteTheirResults : Obligations.FieldAdditionCommandsWriteTheirResults := by
  refine ⟨opcodeIs_of_mem (e := ⟨_, _, fun f => .fadd (bankOf f.fs) f.rd f.ra f.rb⟩) (by simp [opcodeMap]),
    opcodeIs_of_mem (e := ⟨_, _, fun f => .fsub (bankOf f.fs) f.rd f.ra f.rb⟩) (by simp [opcodeMap]),
    opcodeIs_of_mem (e := ⟨_, _, fun f => .fneg (bankOf f.fs) f.rd f.ra⟩) (by simp [opcodeMap]), ?_, ?_, ?_⟩
  · rintro fs rd ra rb s hready ⟨h, ha, hb⟩
    have hsum := fadd_eq_mod ha hb
    have hlt := hsum.trans_lt (Nat.mod_lt _ h.pos)
    refine (completes_element hready rfl rfl (by simp [h, ha, hb]) hlt).mono fun t ht => ?_
    rw [ht, hsum]
  · rintro fs rd ra rb s hready ⟨h, ha, hb⟩
    refine (completes_element hready rfl rfl (by simp [h, ha, hb]) (fsub_lt ha hb)).mono fun t ht => ?_
    rw [ht, fsub_eq_emod ha hb]
  · rintro fs rd ra s hready ⟨h, ha⟩
    refine (completes_element hready rfl rfl (by simp [h, ha]) (h.fneg_lt ha)).mono fun t ht => ?_
    rw [ht, h.fneg_eq_emod ha]

/-- Settles O39: the three commands are REDC of an operand in its domain (R72). -/
theorem fieldProductCommandsWriteTheirResults : Obligations.FieldProductCommandsWriteTheirResults := by
  refine ⟨opcodeIs_of_mem (e := ⟨_, _, fun f => .fmul (bankOf f.fs) f.rd f.ra f.rb⟩) (by simp [opcodeMap]),
    opcodeIs_of_mem (e := ⟨_, _, fun f => .fsqr (bankOf f.fs) f.rd f.ra⟩) (by simp [opcodeMap]),
    opcodeIs_of_mem (e := ⟨_, _, fun f => .fredc (bankOf f.fs) f.rd f.ra⟩) (by simp [opcodeMap]), ?_, ?_, ?_⟩
  · rintro fs rd ra rb s hready ⟨h, ha, hb⟩
    have hredc := h.redc_lt_and_modEq (Desc.mul_lt ha hb)
    refine (completes_element hready rfl rfl (by simp [h, ha, hb]) hredc.1).mono fun t ht => ?_
    rw [ht]
    exact hredc
  · rintro fs rd ra s hready ⟨h, ha⟩
    have hredc := h.redc_lt_and_modEq (Desc.mul_lt ha ha)
    refine (completes_element hready rfl rfl (by simp [h, ha]) hredc.1).mono fun t ht => ?_
    rw [ht]
    exact hredc
  · rintro fs rd ra s hready ⟨h, ha⟩
    have hredc := h.redc_lt_and_modEq ha
    have hpre := Bool.and_eq_true_iff.mpr ⟨Desc.wfCheck_iff.mpr h, decide_eq_true ha⟩
    refine (completes_element hready rfl rfl hpre hredc.1).mono fun t ht => ?_
    rw [ht]
    exact hredc

/-- Settles O40: an exponent of k words has at most the 64·k bits that the loop of R78 runs through. -/
theorem fieldPowerCommandsWriteTheirResults : Obligations.FieldPowerCommandsWriteTheirResults := by
  refine ⟨opcodeIs_of_mem (e := ⟨_, _, fun f => .fpow64 (bankOf f.fs) f.rd f.ra f.rb⟩) (by simp [opcodeMap]),
    opcodeIs_of_mem (e := ⟨_, _, fun f => .fpowb (bankOf f.fs) f.rd f.ra f.rb f.len.toNat⟩) (by simp [opcodeMap]), ?_, ?_⟩
  · rintro fs rd ra rb s hready ⟨h, ha⟩
    have hexp := s.memRead_lt rb 1
    refine (completes_element hready rfl rfl (by simp [h, ha]) (h.fpow_lt ha hexp)).mono fun t ht => ?_
    rw [ht]
    exact ⟨h.fpow_lt ha hexp, h.fpow_eq_mont ha hexp⟩
  · rintro fs rd ra rb len s hready ⟨h, ha⟩
    have hexp := s.memRead_lt rb len
    refine (completes_element hready rfl rfl (by simp [h, ha]) (h.fpow_lt ha hexp)).mono fun t ht => ?_
    rw [ht]
    exact ⟨h.fpow_lt ha hexp, h.fpow_eq_mont ha hexp⟩

/-- Settles O41: each command writes the function that O36 is about. -/
theorem fieldInverseCommandsWriteTheirResults : Obligations.FieldInverseCommandsWriteTheirResults := by
  refine ⟨opcodeIs_of_mem (e := ⟨_, _, fun f => .finv (bankOf f.fs) f.rd f.ra⟩) (by simp [opcodeMap]),
    opcodeIs_of_mem (e := ⟨_, _, fun f => .fdiv (bankOf f.fs) f.rd f.ra f.rb⟩) (by simp [opcodeMap]), ?_, ?_⟩
  · rintro fs rd ra s hready ⟨h, hpos, ha⟩
    refine (completes_element hready rfl rfl (by simp [h, hpos, ha]) (h.finv_lt _)).mono fun t ht => ?_
    rw [ht]
    exact ⟨h.finv_lt _, h.fmul_finv hpos ha⟩
  · rintro fs rd ra rb s hready ⟨h, ha, hpos, hb⟩
    refine (completes_element hready rfl rfl (by simp [h, ha, hpos, hb]) (h.fdiv_lt _ _)).mono fun t ht => ?_
    rw [ht]
    exact ⟨h.fdiv_lt _ _, h.fmul_fdiv hpos hb ha⟩

/-- Settles O43: each command writes the function that O37 is about. -/
theorem fieldConversionCommandsWriteTheirResults : Obligations.FieldConversionCommandsWriteTheirResults := by
  refine ⟨opcodeIs_of_mem (e := ⟨_, _, fun f => .ftostd (bankOf f.fs) f.rd f.ra⟩) (by simp [opcodeMap]),
    opcodeIs_of_mem (e := ⟨_, _, fun f => .ffromstd (bankOf f.fs) f.rd f.ra⟩) (by simp [opcodeMap]), ?_, ?_⟩
  · rintro fs rd ra s hready ⟨h, ha⟩
    refine (completes_element hready rfl rfl (by simp [h, ha]) (h.tostd_lt ha)).mono fun t ht => ?_
    rw [ht]
    exact ⟨h.tostd_lt ha, h.mont_tostd ha⟩
  · rintro fs rd ra s hready ⟨h, ha⟩
    refine (completes_element hready rfl rfl (by simp [h, ha]) (h.fmul_lt ha h.r2_lt)).mono fun t ht => ?_
    rw [ht]
    exact h.fromstd_eq_mont ha

/-- Settles O42: R1 is four words of any descriptor, so it fits in the destination without a precondition. -/
theorem fisoneAndFsetoneUseR1 : Obligations.FisoneAndFsetoneUseR1 := by
  refine ⟨opcodeIs_of_mem (e := ⟨_, _, fun f => .fisone (bankOf f.fs) f.ra⟩) (by simp [opcodeMap]),
    opcodeIs_of_mem (e := ⟨_, _, fun f => .fsetone (bankOf f.fs) f.rd⟩) (by simp [opcodeMap]), ?_, fun s => ⟨rfl, rfl⟩, ?_⟩
  · intro fs ra s hready
    refine (completes_flag hready rfl rfl).mono ?_
    rintro t ⟨hequal, hbuf⟩
    exact ⟨by rw [hequal, isEqual_iff, Desc.one], hbuf⟩
  · intro fs rd s hready
    exact completes_value hready rfl rfl (quadVal_lt (s.bank fs).R1)

end Sys2Proof.Machine
end

section
/-! The affine points (R96 to R98): their encoding, and the curve equation as a statement about represented values (R73). -/

namespace Sys2Proof.Machine

/-! ### Encoding (R96, R97) -/

/-- The sentinel as a number.  The power in the model's definition and the one written here need not be the same term, so they are
compared as numbers. -/
theorem encA_inf : encA .inf = 2 ^ 512 - 1 := by
  have hdef := encA.eq_1
  omega

theorem encA_inf_lt : encA .inf < 2 ^ 512 := by
  rw [encA_inf]
  omega

theorem isinf_iff {w : Nat} : isinf w = true ↔ w = encA .inf := by
  rw [isinf, encA, decide_eq_true_iff]

theorem decA_of_ne {w : Nat} (h : w ≠ encA .inf) : decA w = .fin (w % 2 ^ 256) (w / 2 ^ 256) :=
  if_neg (mt isinf_iff.mp h)

/-- A finite point whose y is not all ones stays below the sentinel. -/
theorem encA_fin_lt {x y : Nat} (hx : x < 2 ^ 256) (hy : y < 2 ^ 256 - 1) : encA (.fin x y) < encA .inf := by
  rw [encA_inf, encA]
  omega

theorem decA_encA_fin {x y : Nat} (hx : x < 2 ^ 256) (hy : y < 2 ^ 256 - 1) : decA (encA (.fin x y)) = .fin x y := by
  rw [decA_of_ne (encA_fin_lt hx hy).ne, encA, Nat.add_mul_mod_self_right, Nat.mod_eq_of_lt hx,
    Nat.add_mul_div_right x y (by decide), Nat.div_eq_of_lt hx, Nat.zero_add]

theorem Desc.lt_all_ones {F : Desc} {a : Nat} (ha : a < F.p) : a < 2 ^ 256 - 1 := by
  have := F.p_lt
  omega

theorem Pt.Valid.encA_lt {F : Desc} {P : Pt} (h : P.Valid F) : encA P < 2 ^ 512 := by
  cases P with
  | inf => exact encA_inf_lt
  | fin x y =>
    obtain ⟨hx, hy⟩ := h
    exact (encA_fin_lt (hx.trans F.p_lt) (Desc.lt_all_ones hy)).trans encA_inf_lt

/-- Settles O45: a reduced y is not all ones, so no finite point has the sentinel's encoding. -/
theorem affineEncodingIsFaithful : Obligations.AffineEncodingIsFaithful := by
  intro F P _ hP
  cases P with
  | inf =>
    have hinf : isinf (encA .inf) = true := isinf_iff.mpr rfl
    exact ⟨if_pos hinf, hP.encA_lt, iff_of_true hinf rfl⟩
  | fin x y =>
    obtain ⟨hx, hy⟩ := hP
    have hx' := hx.trans F.p_lt
    have hy' := Desc.lt_all_ones hy
    exact ⟨decA_encA_fin hx' hy', Pt.Valid.encA_lt ⟨hx, hy⟩,
      iff_of_false (mt isinf_iff.mp (encA_fin_lt hx' hy').ne) (by simp)⟩

/-! ### Additive field functions on represented values (R74 to R76) -/

section Values

variable {K : Type} [Field K] {F : Desc} [CharP K F.p] {a b : Nat}

theorem fadd_lt (ha : a < F.p) (hb : b < F.p) : fadd F a b < F.p :=
  (fadd_eq_mod ha hb).trans_lt (Nat.mod_lt _ (by omega))

theorem Desc.fieldValue_fadd (ha : a < F.p) (hb : b < F.p) :
    fieldValue K (fadd F a b) = fieldValue K a + fieldValue K b := by
  rw [fadd_eq_mod ha hb, Desc.fieldValue_mod, fieldValue, Nat.cast_add, add_div, fieldValue, fieldValue]

/-- Integers that are equal modulo p have the same image in the field. -/
theorem Desc.natCast_of_eq_emod {z : Int} (h : (a : Int) = z % F.p) : (a : K) = z := by
  have hcast := congrArg (Int.cast : Int → K) h
  rwa [Int.cast_natCast, intCast_emod (CharP.cast_eq_zero K F.p)] at hcast

theorem Desc.fieldValue_fsub (ha : a < F.p) (hb : b < F.p) :
    fieldValue K (fsub F a b) = fieldValue K a - fieldValue K b := by
  rw [fieldValue, Desc.natCast_of_eq_emod (fsub_eq_emod ha hb), Int.cast_sub, Int.cast_natCast, Int.cast_natCast, sub_div,
    fieldValue, fieldValue]

theorem Desc.WF.fieldValue_fneg (h : F.WF) (ha : a < F.p) : fieldValue K (fneg F a) = -fieldValue K a := by
  rw [fieldValue, Desc.natCast_of_eq_emod (h.fneg_eq_emod ha), Int.cast_neg, Int.cast_natCast, neg_div, fieldValue]

theorem Desc.WF.fieldValue_fsqr (h : F.WF) (ha : a < F.p) : fieldValue K (fsqr F a) = fieldValue K a ^ 2 := by
  rw [fsqr_eq_fmul, h.fieldValue_fmul ha ha, sq]

theorem Desc.WF.fsqr_lt (h : F.WF) (ha : a < F.p) : fsqr F a < F.p := h.fmul_lt ha ha

theorem Desc.WF.fieldValue_eq_zero_iff (h : F.WF) (ha : a < F.p) : fieldValue K a = 0 ↔ a = 0 := by
  refine ⟨fun hzero => ?_, fun hzero => hzero ▸ fieldValue_zero⟩
  by_contra hne
  exact h.fieldValue_ne_zero (Nat.pos_of_ne_zero hne) ha hzero

/-- p is odd, so 2 is a unit modulo p. -/
theorem Desc.WF.two_ne_zero (h : F.WF) : (2 : K) ≠ 0 := by
  exact_mod_cast Desc.natCast_ne_zero (K := K) (F := F) Nat.two_pos h.ge_three

theorem Desc.WF.fneg_fneg (h : F.WF) (ha : a < F.p) : fneg F (fneg F a) = a := by
  obtain ⟨K, _, _⟩ := exists_field_of_prime h.prime
  refine h.fieldValue_inj (K := K) (h.fneg_lt (h.fneg_lt ha)) ha ?_
  rw [h.fieldValue_fneg (h.fneg_lt ha), h.fieldValue_fneg ha, neg_neg]

/-- Two is a unit, so only 0 is its own negative. -/
theorem Desc.WF.fneg_ne_self (h : F.WF) (hpos : 0 < a) (ha : a < F.p) : fneg F a ≠ a := by
  have hodd := h.odd
  rw [h.fneg_eq_sub hpos ha]
  omega

/-- A quotient whose divisor does not represent 0 is the quotient of the represented values. -/
theorem Desc.WF.fieldValue_fdiv_mul (h : F.WF) (hb : b < F.p) (hne : fieldValue K b ≠ 0) (a : Nat) :
    fieldValue K (fdiv F a b) * fieldValue K b = fieldValue K a := by
  have hpos : 0 < b := Nat.pos_of_ne_zero (mt (h.fieldValue_eq_zero_iff hb).mpr hne)
  rw [h.fieldValue_fdiv a hpos hb, inv_mul_cancel_right₀ hne]

end Values

/-! ### The curve equation (R98) -/

/-- y² = x³ + A·x + B. -/
def CurveEquation {K : Type} [Field K] (A B x y : K) : Prop := y ^ 2 = x ^ 3 + A * x + B

section Equation

variable {K : Type} [Field K] {C : Curve} [CharP K C.F.p] {x y : Nat}

theorem curveRhs_lt (h : C.F.WF) (hA : quadVal C.cv.A < C.F.p) (hB : quadVal C.cv.B < C.F.p) (hx : x < C.F.p) :
    curveRhs C x < C.F.p :=
  fadd_lt (fadd_lt (h.fmul_lt (h.fsqr_lt hx) hx) (h.fmul_lt hA hx)) hB

theorem fieldValue_curveRhs (h : C.F.WF) (hA : quadVal C.cv.A < C.F.p) (hB : quadVal C.cv.B < C.F.p) (hx : x < C.F.p) :
    fieldValue K (curveRhs C x)
      = fieldValue K x ^ 3 + fieldValue K (quadVal C.cv.A) * fieldValue K x + fieldValue K (quadVal C.cv.B) := by
  have hcube := h.fmul_lt (h.fsqr_lt hx) hx
  have hlinear := h.fmul_lt hA hx
  rw [curveRhs, Desc.fieldValue_fadd (fadd_lt hcube hlinear) hB, Desc.fieldValue_fadd hcube hlinear,
    h.fieldValue_fmul (h.fsqr_lt hx) hx, h.fieldValue_fmul hA hx, h.fieldValue_fsqr hx, ← pow_succ]

theorem oncurve_fin_iff (K : Type) [Field K] [CharP K C.F.p] (h : C.F.WF) (hA : quadVal C.cv.A < C.F.p)
    (hB : quadVal C.cv.B < C.F.p) (hx : x < C.F.p) (hy : y < C.F.p) :
    oncurve C (.fin x y) = true ↔ CurveEquation (fieldValue K (quadVal C.cv.A)) (fieldValue K (quadVal C.cv.B))
      (fieldValue K x) (fieldValue K y) := by
  have hsqr := h.fsqr_lt hy
  have hrhs := curveRhs_lt h hA hB hx
  rw [oncurve, decide_eq_true_iff, ← h.fieldValue_eq_zero_iff (K := K) (fsub_lt hsqr hrhs),
    Desc.fieldValue_fsub hsqr hrhs, h.fieldValue_fsqr hy, fieldValue_curveRhs h hA hB hx, sub_eq_zero, CurveEquation]

end Equation

/-- The curve equation as congruence of the represented integers. -/
theorem oncurve_fin_iff_mod {C : Curve} {x y : Nat} (h : C.F.WF) (hA : quadVal C.cv.A < C.F.p)
    (hB : quadVal C.cv.B < C.F.p) (hx : x < C.F.p) (hy : y < C.F.p) :
    oncurve C (.fin x y) = true ↔ tostd C.F y ^ 2 % C.F.p
      = (tostd C.F x ^ 3 + tostd C.F (quadVal C.cv.A) * tostd C.F x + tostd C.F (quadVal C.cv.B)) % C.F.p := by
  obtain ⟨K, _, _⟩ := exists_field_of_prime h.prime
  rw [oncurve_fin_iff K h hA hB hx hy, CurveEquation, ← h.natCast_tostd hA, ← h.natCast_tostd hB, ← h.natCast_tostd hx,
    ← h.natCast_tostd hy]
  exact_mod_cast CharP.natCast_eq_natCast K C.F.p

/-- Every reduced number is the represented value of one reduced element. -/
theorem Desc.WF.forall_tostd {F : Desc} (h : F.WF) {p : Nat → Prop} :
    (∀ x, x < F.p → p x) ↔ ∀ a, a < F.p → p (tostd F a) := by
  refine ⟨fun hall a ha => hall _ (h.tostd_lt ha), fun hall x hx => ?_⟩
  have hmont := hall (mont F x) (h.mont_lt x)
  rwa [h.tostd_mont hx] at hmont

theorem Desc.WF.tostd_zero {F : Desc} (h : F.WF) : tostd F 0 = 0 := by
  have hmont : mont F 0 = 0 := by rw [mont, Nat.zero_mul, Nat.zero_mod]
  rw [← hmont, h.tostd_mont h.pos, hmont]

/-- Settles O46: at y = 0 the equation says that the represented x is a root of the cubic. -/
theorem oncurveIsTheCurveEquation : Obligations.OncurveIsTheCurveEquation := by
  intro C x y h hA hB hx hy
  refine ⟨oncurve_fin_iff_mod h hA hB hx hy, ?_⟩
  rw [Curve.NoOrderTwo, h.forall_tostd]
  refine forall₂_congr fun x₀ hx₀ => ?_
  rw [← Bool.not_eq_true, oncurve_fin_iff_mod h hA hB hx₀ h.pos, h.tostd_zero, zero_pow two_ne_zero, Nat.zero_mod, ne_comm]

end Sys2Proof.Machine
end

section
/-! Doubling, addition and multiplication of affine points (R99 to R102): the two formulas as the third point of a line, on
represented values, and the laws of the group functions.  That the third point lies on the curve and does not depend on the order
of the operands are identities of a field. -/

namespace Sys2Proof.Machine

/-! ### The third point of a line, in a field -/

section Line

variable {K : Type} [Field K] {A B m x₁ y₁ x₂ y₂ x' y' : K}

/-- (x', y') is the negative of the third point on the curve of the line of slope `m` through (x₁, y₁), whose second one is over
x₂ (R100, R101). -/
structure NegThirdPoint (m x₁ y₁ x₂ x' y' : K) : Prop where
  x : x' = m ^ 2 - x₁ - x₂
  y : y' = -(y₁ + m * (x' - x₁))

/-- It lies on the curve if x₂ is a root of the quadratic that is left of the curve equation on the line when x₁ is divided out. -/
theorem NegThirdPoint.curveEquation (h : NegThirdPoint m x₁ y₁ x₂ x' y') (h₁ : CurveEquation A B x₁ y₁)
    (hm : 3 * x₁ ^ 2 + A - 2 * y₁ * m = (x₂ - x₁) * (x' - x₁)) : CurveEquation A B x' y' := by
  obtain ⟨hx, hy⟩ := h
  unfold CurveEquation at h₁ ⊢
  rw [hy]
  linear_combination h₁ - (x' - x₁) * hm - (x' - x₁) ^ 2 * hx

theorem NegThirdPoint.curveEquation_of_tangent (h : NegThirdPoint m x₁ y₁ x₁ x' y') (h₁ : CurveEquation A B x₁ y₁)
    (hm : 2 * y₁ * m = 3 * x₁ ^ 2 + A) : CurveEquation A B x' y' :=
  h.curveEquation h₁ (by linear_combination -hm)

theorem NegThirdPoint.curveEquation_of_chord (h : NegThirdPoint m x₁ y₁ x₂ x' y') (h₁ : CurveEquation A B x₁ y₁)
    (h₂ : CurveEquation A B x₂ y₂) (hne : x₂ - x₁ ≠ 0) (hm : m * (x₂ - x₁) = y₂ - y₁) : CurveEquation A B x' y' := by
  refine h.curveEquation h₁ (mul_left_cancel₀ hne ?_)
  obtain ⟨hx, -⟩ := h
  unfold CurveEquation at h₁ h₂
  rw [hx]
  linear_combination h₁ - h₂ - (m * (x₂ - x₁) + y₁ + y₂) * hm

/-- The chord from the second point is the chord from the first. -/
theorem NegThirdPoint.swap (h : NegThirdPoint m x₁ y₁ x₂ x' y') (hm : m * (x₂ - x₁) = y₂ - y₁) :
    NegThirdPoint m x₂ y₂ x₁ x' y' := by
  obtain ⟨hx, hy⟩ := h
  exact ⟨by rw [hx]; ring, by rw [hy]; linear_combination -hm⟩

theorem NegThirdPoint.eq {x'' y'' : K} (h : NegThirdPoint m x₁ y₁ x₂ x' y') (h' : NegThirdPoint m x₁ y₁ x₂ x'' y'') :
    x' = x'' ∧ y' = y'' := by
  have hx := h.x.trans h'.x.symm
  exact ⟨hx, by rw [h.y, h'.y, hx]⟩

end Line

/-! ### The chord and the slopes (R100, R101) -/

section Values

variable (K : Type) [Field K] {F : Desc} [CharP K F.p] {s x₁ y₁ x₂ x y xP yP xQ yQ : Nat}

/-- `chord` answers a reduced point, which represents the negated third point of the line. -/
theorem Desc.WF.exists_chord (h : F.WF) (hs : s < F.p) (hx₁ : x₁ < F.p) (hy₁ : y₁ < F.p) (hx₂ : x₂ < F.p) :
    ∃ x' y', chord F s x₁ y₁ x₂ = .fin x' y' ∧ x' < F.p ∧ y' < F.p
      ∧ NegThirdPoint (fieldValue K s) (fieldValue K x₁) (fieldValue K y₁) (fieldValue K x₂) (fieldValue K x')
          (fieldValue K y') := by
  have hsqr := h.fsqr_lt hs
  have hdiff := fsub_lt hsqr hx₁
  have hx' := fsub_lt hdiff hx₂
  have hstep := fsub_lt hx' hx₁
  have hmul := h.fmul_lt hs hstep
  have hy := fadd_lt hy₁ hmul
  refine ⟨_, _, rfl, hx', h.fneg_lt hy, ?_, ?_⟩
  · rw [Desc.fieldValue_fsub hdiff hx₂, Desc.fieldValue_fsub hsqr hx₁, h.fieldValue_fsqr hs]
  · rw [h.fieldValue_fneg hy, Desc.fieldValue_fadd hy₁ hmul, h.fieldValue_fmul hs hstep, Desc.fieldValue_fsub hx' hx₁]

theorem Desc.WF.chord_valid (h : F.WF) (hs : s < F.p) (hx₁ : x₁ < F.p) (hy₁ : y₁ < F.p) (hx₂ : x₂ < F.p) :
    (chord F s x₁ y₁ x₂).Valid F := by
  obtain ⟨K, _, _⟩ := exists_field_of_prime h.prime
  obtain ⟨x', y', heq, hx', hy', -⟩ := h.exists_chord K hs hx₁ hy₁ hx₂
  rw [heq]
  exact ⟨hx', hy'⟩

/-- The slope of the chord through two points (R101). -/
def chordSlope (F : Desc) (xP yP xQ yQ : Nat) : Nat := fdiv F (fsub F yQ yP) (fsub F xQ xP)

theorem Desc.WF.chordSlope_lt (h : F.WF) : chordSlope F xP yP xQ yQ < F.p := h.fdiv_lt _ _

theorem Desc.WF.fieldValue_sub_ne_zero (h : F.WF) (hP : xP < F.p) (hQ : xQ < F.p) (hne : xP ≠ xQ) :
    fieldValue K xQ - fieldValue K xP ≠ 0 :=
  sub_ne_zero.mpr fun heq => hne (h.fieldValue_inj hQ hP heq).symm

theorem Desc.WF.fieldValue_chordSlope (h : F.WF) (hxP : xP < F.p) (hyP : yP < F.p) (hxQ : xQ < F.p) (hyQ : yQ < F.p)
    (hne : xP ≠ xQ) : fieldValue K (chordSlope F xP yP xQ yQ) * (fieldValue K xQ - fieldValue K xP)
      = fieldValue K yQ - fieldValue K yP := by
  have hdx := Desc.fieldValue_fsub (K := K) hxQ hxP
  have hslope := h.fieldValue_fdiv_mul (K := K) (fsub_lt hxQ hxP) (hdx ▸ h.fieldValue_sub_ne_zero K hxP hxQ hne)
    (fsub F yQ yP)
  rwa [hdx, Desc.fieldValue_fsub hyQ hyP] at hslope

/-- The chord has the same slope from either end. -/
theorem Desc.WF.chordSlope_comm (h : F.WF) (hxP : xP < F.p) (hyP : yP < F.p) (hxQ : xQ < F.p) (hyQ : yQ < F.p)
    (hne : xP ≠ xQ) : chordSlope F xP yP xQ yQ = chordSlope F xQ yQ xP yP := by
  obtain ⟨K, _, _⟩ := exists_field_of_prime h.prime
  refine h.fieldValue_inj (K := K) h.chordSlope_lt h.chordSlope_lt
    (mul_right_cancel₀ (h.fieldValue_sub_ne_zero K hxP hxQ hne) ?_)
  linear_combination h.fieldValue_chordSlope K hxP hyP hxQ hyQ hne + h.fieldValue_chordSlope K hxQ hyQ hxP hyP hne.symm

/-- The sum of two points with different x does not depend on their order. -/
theorem Desc.WF.chord_comm (h : F.WF) (hxP : xP < F.p) (hyP : yP < F.p) (hxQ : xQ < F.p) (hyQ : yQ < F.p) (hne : xP ≠ xQ) :
    chord F (chordSlope F xP yP xQ yQ) xP yP xQ = chord F (chordSlope F xQ yQ xP yP) xQ yQ xP := by
  obtain ⟨K, _, _⟩ := exists_field_of_prime h.prime
  rw [← h.chordSlope_comm hxP hyP hxQ hyQ hne]
  have hs := h.chordSlope_lt (xP := xP) (yP := yP) (xQ := xQ) (yQ := yQ)
  obtain ⟨x', y', heq, hx', hy', hthird⟩ := h.exists_chord K hs hxP hyP hxQ
  obtain ⟨x'', y'', heq', hx'', hy'', hthird'⟩ := h.exists_chord K hs hxQ hyQ hxP
  obtain ⟨hx, hy⟩ := (hthird.swap (h.fieldValue_chordSlope K hxP hyP hxQ hyQ hne)).eq hthird'
  rw [heq, heq', h.fieldValue_inj hx' hx'' hx, h.fieldValue_inj hy' hy'' hy]

end Values

section Tangent

variable (K : Type) [Field K] {C : Curve} [CharP K C.F.p] {x y : Nat}

theorem tangentSlope_lt (h : C.F.WF) : tangentSlope C x y < C.F.p := h.fdiv_lt _ _

theorem fieldValue_tangentSlope (h : C.F.WF) (hA : quadVal C.cv.A < C.F.p) (hx : x < C.F.p) (hpos : 0 < y) (hy : y < C.F.p) :
    2 * fieldValue K y * fieldValue K (tangentSlope C x y) = 3 * fieldValue K x ^ 2 + fieldValue K (quadVal C.cv.A) := by
  have hsqr := h.fsqr_lt hx
  have htwo := fadd_lt hsqr hsqr
  have hthree := fadd_lt htwo hsqr
  have hnum : fieldValue K (fadd C.F (fadd C.F (fadd C.F (fsqr C.F x) (fsqr C.F x)) (fsqr C.F x)) (quadVal C.cv.A))
      = 3 * fieldValue K x ^ 2 + fieldValue K (quadVal C.cv.A) := by
    rw [Desc.fieldValue_fadd hthree hA, Desc.fieldValue_fadd htwo hsqr, Desc.fieldValue_fadd hsqr hsqr,
      h.fieldValue_fsqr hx]
    ring
  have hden : fieldValue K (fadd C.F y y) = 2 * fieldValue K y := by rw [Desc.fieldValue_fadd hy hy, two_mul]
  have hne : fieldValue K (fadd C.F y y) ≠ 0 :=
    hden ▸ mul_ne_zero h.two_ne_zero (h.fieldValue_ne_zero hpos hy)
  rw [← hnum, ← hden, mul_comm]
  exact h.fieldValue_fdiv_mul (fadd_lt hy hy) hne _

end Tangent

/-! ### The cases of doubling and addition -/

section Cases

variable {C : Curve} {P Q R : Pt} {x y xP yP xQ yQ : Nat}

theorem adbl_inf (C : Curve) : adbl C .inf = some .inf := rfl

theorem adbl_fin (hx : x < C.F.p) (hpos : 0 < y) (hy : y < C.F.p) :
    adbl C (.fin x y) = some (chord C.F (tangentSlope C x y) x y x) := by
  rw [adbl, if_pos (by simp [hx, hy, hpos])]

theorem adbl_fin_eq_none (h : ¬(x < C.F.p ∧ 0 < y ∧ y < C.F.p)) : adbl C (.fin x y) = none := by
  rw [adbl, if_neg]
  simpa [and_assoc, and_comm (a := 0 < y)] using h

/-- Everything a doubling can answer (R100). -/
theorem adbl_cases (h : adbl C P = some R) : (P = .inf ∧ R = .inf)
    ∨ ∃ x y, P = .fin x y ∧ x < C.F.p ∧ 0 < y ∧ y < C.F.p ∧ R = chord C.F (tangentSlope C x y) x y x := by
  cases P with
  | inf => exact .inl ⟨rfl, (Option.some.inj h).symm⟩
  | fin x y =>
    by_cases hdomain : x < C.F.p ∧ 0 < y ∧ y < C.F.p
    · obtain ⟨hx, hpos, hy⟩ := hdomain
      rw [adbl_fin hx hpos hy] at h
      exact .inr ⟨x, y, rfl, hx, hpos, hy, (Option.some.inj h).symm⟩
    · rw [adbl_fin_eq_none hdomain] at h
      cases h

theorem Pt.valid_inf (F : Desc) : Pt.Valid F .inf := trivial

theorem aadd_inf_left (hQ : Q.Valid C.F) : aadd C .inf Q = some Q := by
  rw [aadd, if_pos (by simp [hQ, Pt.valid_inf])]

theorem aadd_inf_right (hP : P.Valid C.F) : aadd C P .inf = some P := by
  cases P with
  | inf => rfl
  | fin x y =>
    unfold aadd
    rw [if_pos (by simp [hP, Pt.valid_inf])]

/-- The sum of valid finite points: the four cases of R101 that are left. -/
theorem aadd_fin (hP : Pt.Valid C.F (.fin xP yP)) (hQ : Pt.Valid C.F (.fin xQ yQ)) :
    aadd C (.fin xP yP) (.fin xQ yQ) =
      if xP = xQ ∧ yP = yQ then adbl C (.fin xP yP)
      else if xP = xQ ∧ yP = fneg C.F yQ then some .inf
      else if xP = xQ then none
      else some (chord C.F (chordSlope C.F xP yP xQ yQ) xP yP xQ) := by
  rw [aadd, if_pos (by simp [hP, hQ])]
  rfl

theorem aadd_self (hP : P.Valid C.F) : aadd C P P = adbl C P := by
  cases P with
  | inf => rfl
  | fin x y => rw [aadd_fin hP hP, if_pos ⟨rfl, rfl⟩]

theorem aadd_opposite (hP : Pt.Valid C.F (.fin x yP)) (hQ : Pt.Valid C.F (.fin x yQ)) (hne : yP ≠ yQ)
    (hneg : yP = fneg C.F yQ) : aadd C (.fin x yP) (.fin x yQ) = some .inf := by
  rw [aadd_fin hP hQ, if_neg (fun h => hne h.2), if_pos ⟨rfl, hneg⟩]

theorem aadd_chord (hP : Pt.Valid C.F (.fin xP yP)) (hQ : Pt.Valid C.F (.fin xQ yQ)) (hne : xP ≠ xQ) :
    aadd C (.fin xP yP) (.fin xQ yQ) = some (chord C.F (chordSlope C.F xP yP xQ yQ) xP yP xQ) := by
  rw [aadd_fin hP hQ, if_neg (fun h => hne h.1), if_neg (fun h => hne h.1), if_neg hne]

theorem aadd_eq_none_of_not_valid (h : ¬(P.Valid C.F ∧ Q.Valid C.F)) : aadd C P Q = none := by
  unfold aadd
  rw [if_neg (by simpa using h)]

theorem aadd_same_x_eq_none (hne : yP ≠ yQ) (hneg : yP ≠ fneg C.F yQ) : aadd C (.fin x yP) (.fin x yQ) = none := by
  by_cases hvalid : Pt.Valid C.F (.fin x yP) ∧ Pt.Valid C.F (.fin x yQ)
  · obtain ⟨hP, hQ⟩ := hvalid
    rw [aadd_fin hP hQ, if_neg (fun h => hne h.2), if_neg (fun h => hneg h.2), if_pos rfl]
  · exact aadd_eq_none_of_not_valid hvalid

/-- Everything an addition can answer (R101). -/
theorem aadd_cases (h : aadd C P Q = some R) : P.Valid C.F ∧ Q.Valid C.F
    ∧ (R = Q ∨ R = P ∨ adbl C P = some R ∨ R = .inf
      ∨ ∃ xP yP xQ yQ, P = .fin xP yP ∧ Q = .fin xQ yQ ∧ xP ≠ xQ
        ∧ R = chord C.F (chordSlope C.F xP yP xQ yQ) xP yP xQ) := by
  by_cases hvalid : P.Valid C.F ∧ Q.Valid C.F
  swap
  · rw [aadd_eq_none_of_not_valid hvalid] at h
    cases h
  obtain ⟨hP, hQ⟩ := hvalid
  refine ⟨hP, hQ, ?_⟩
  cases P with
  | inf =>
    rw [aadd_inf_left hQ] at h
    exact .inl (Option.some.inj h).symm
  | fin xP yP =>
    cases Q with
    | inf =>
      rw [aadd_inf_right hP] at h
      exact .inr (.inl (Option.some.inj h).symm)
    | fin xQ yQ =>
      rw [aadd_fin hP hQ] at h
      split_ifs at h with hsame hopposite hx
      · exact .inr (.inr (.inl h))
      · exact .inr (.inr (.inr (.inl (Option.some.inj h).symm)))
      · exact .inr (.inr (.inr (.inr ⟨xP, yP, xQ, yQ, rfl, rfl, hx, (Option.some.inj h).symm⟩)))

/-- Addition of valid points commutes, also where it has no value. -/
theorem aadd_comm (h : C.F.WF) (hP : P.Valid C.F) (hQ : Q.Valid C.F) : aadd C P Q = aadd C Q P := by
  cases P with
  | inf => rw [aadd_inf_left hQ, aadd_inf_right hQ]
  | fin xP yP =>
    cases Q with
    | inf => rw [aadd_inf_left hP, aadd_inf_right hP]
    | fin xQ yQ =>
      have ⟨hxP, hyP⟩ := hP
      have ⟨hxQ, hyQ⟩ := hQ
      by_cases hx : xP = xQ
      · subst hx
        by_cases hy : yP = yQ
        · rw [hy]
        by_cases hneg : yP = fneg C.F yQ
        · have hneg' : yQ = fneg C.F yP := by rw [hneg, h.fneg_fneg hyQ]
          rw [aadd_opposite hP hQ hy hneg, aadd_opposite hQ hP (Ne.symm hy) hneg']
        · have hneg' : yQ ≠ fneg C.F yP := fun heq => hneg (by rw [heq, h.fneg_fneg hyP])
          rw [aadd_same_x_eq_none hy hneg, aadd_same_x_eq_none (Ne.symm hy) hneg']
      · rw [aadd_chord hP hQ hx, aadd_chord hQ hP (Ne.symm hx), h.chord_comm hxP hyP hxQ hyQ hx]

end Cases

/-- Settles O47: a reduced y that is not 0 is not its own negative, since p is odd, so P and −P are in the third case of R101. -/
theorem affineAdditionLaws : Obligations.AffineAdditionLaws := by
  intro C hC
  have h := hC.field
  refine ⟨fun P hP => ⟨aadd_inf_left hP, aadd_inf_right hP, aadd_self hP⟩, fun x y hx hpos hy => ?_,
    fun P Q hP hQ => aadd_comm h hP hQ⟩
  exact aadd_opposite ⟨hx, hy⟩ ⟨hx, h.fneg_lt hy⟩ (h.fneg_ne_self hpos hy).symm (h.fneg_fneg hy).symm

/-! ### The results are valid points of the curve -/

section Closure

variable {C : Curve} {P Q R : Pt} {k nb i : Nat}

theorem adbl_valid (h : C.F.WF) (hR : adbl C P = some R) : R.Valid C.F := by
  obtain ⟨-, rfl⟩ | ⟨x, y, -, hx, -, hy, rfl⟩ := adbl_cases hR
  · trivial
  · exact h.chord_valid (tangentSlope_lt h) hx hy hx

theorem aadd_valid (h : C.F.WF) (hR : aadd C P Q = some R) : R.Valid C.F := by
  obtain ⟨hP, hQ, rfl | rfl | hdbl | rfl | ⟨xP, yP, xQ, yQ, rfl, rfl, -, rfl⟩⟩ := aadd_cases hR
  · exact hQ
  · exact hP
  · exact adbl_valid h hdbl
  · trivial
  · obtain ⟨hxP, hyP⟩ := hP
    exact h.chord_valid h.chordSlope_lt hxP hyP hQ.1

/-- `chord` answers a point of the curve if the third point of the line satisfies the curve equation in every field of
characteristic p. -/
theorem Curve.WF.oncurve_chord {s x₁ y₁ x₂ : Nat} (hC : C.WF) (hs : s < C.F.p) (hx₁ : x₁ < C.F.p) (hy₁ : y₁ < C.F.p)
    (hx₂ : x₂ < C.F.p)
    (hthird : ∀ (K : Type) [Field K] [CharP K C.F.p] (x' y' : K),
      NegThirdPoint (fieldValue K s) (fieldValue K x₁) (fieldValue K y₁) (fieldValue K x₂) x' y' →
      CurveEquation (fieldValue K (quadVal C.cv.A)) (fieldValue K (quadVal C.cv.B)) x' y') :
    oncurve C (chord C.F s x₁ y₁ x₂) = true := by
  have h := hC.field
  obtain ⟨K, _, _⟩ := exists_field_of_prime h.prime
  obtain ⟨x', y', heq, hx', hy', hpoint⟩ := h.exists_chord K hs hx₁ hy₁ hx₂
  rw [heq, oncurve_fin_iff K h hC.a_reduced hC.b_reduced hx' hy']
  exact hthird K _ _ hpoint

theorem adbl_oncurve (hC : C.WF) (hP : oncurve C P = true) (hR : adbl C P = some R) : oncurve C R = true := by
  have h := hC.field
  obtain ⟨-, rfl⟩ | ⟨x, y, rfl, hx, hpos, hy, rfl⟩ := adbl_cases hR
  · rfl
  · refine hC.oncurve_chord (tangentSlope_lt h) hx hy hx fun K _ _ x' y' hpoint => ?_
    exact hpoint.curveEquation_of_tangent ((oncurve_fin_iff K h hC.a_reduced hC.b_reduced hx hy).mp hP)
      (fieldValue_tangentSlope K h hC.a_reduced hx hpos hy)

theorem aadd_oncurve (hC : C.WF) (hP : oncurve C P = true) (hQ : oncurve C Q = true) (hR : aadd C P Q = some R) :
    oncurve C R = true := by
  have h := hC.field
  obtain ⟨hPvalid, hQvalid, rfl | rfl | hdbl | rfl | ⟨xP, yP, xQ, yQ, rfl, rfl, hne, rfl⟩⟩ := aadd_cases hR
  · exact hQ
  · exact hP
  · exact adbl_oncurve hC hP hdbl
  · rfl
  · obtain ⟨hxP, hyP⟩ := hPvalid
    obtain ⟨hxQ, hyQ⟩ := hQvalid
    refine hC.oncurve_chord h.chordSlope_lt hxP hyP hxQ fun K _ _ x' y' hpoint => ?_
    exact hpoint.curveEquation_of_chord ((oncurve_fin_iff K h hC.a_reduced hC.b_reduced hxP hyP).mp hP)
      ((oncurve_fin_iff K h hC.a_reduced hC.b_reduced hxQ hyQ).mp hQ) (h.fieldValue_sub_ne_zero K hxP hxQ hne)
      (h.fieldValue_chordSlope K hxP hyP hxQ hyQ hne)

/-! ### The ladder (R102) -/

/-- One round of the ladder: the doubling of the accumulator, and the sum of it and P for a bit that is 1. -/
def ladderStep (C : Curve) (P : Pt) (bit : Bool) (acc : Pt) : Option Pt :=
  (adbl C acc).bind fun d => if bit then aadd C d P else some d

theorem smulLoop_zero (C : Curve) (k : Nat) (P acc : Pt) : smulLoop C k P 0 acc = some acc := rfl

theorem smulLoop_succ (C : Curve) (k : Nat) (P : Pt) (i : Nat) (acc : Pt) :
    smulLoop C k P (i + 1) acc = (ladderStep C P (k.testBit i) acc).bind (smulLoop C k P i) := by
  rw [smulLoop, ladderStep]
  cases adbl C acc with
  | none => rfl
  | some d =>
    simp only [Option.bind_some]
    cases (if k.testBit i = true then aadd C d P else some d) with
    | none => rfl
    | some r => rfl

theorem ladderStep_false (C : Curve) (P : Pt) : ladderStep C P false = adbl C :=
  funext fun _ => Option.bind_fun_some _

theorem ladderStep_false_inf (C : Curve) (P : Pt) : ladderStep C P false .inf = some .inf := rfl

theorem ladderStep_true_inf (C : Curve) (P : Pt) : ladderStep C P true .inf = aadd C .inf P := rfl

/-- What one round keeps is kept by the ladder. -/
theorem smulLoop_keeps {I : Pt → Prop} (hstep : ∀ bit acc r, I acc → ladderStep C P bit acc = some r → I r) {acc : Pt}
    (hacc : I acc) (hR : smulLoop C k P i acc = some R) : I R := by
  induction i generalizing acc with
  | zero =>
    rw [smulLoop_zero] at hR
    exact Option.some.inj hR ▸ hacc
  | succ i ih =>
    rw [smulLoop_succ] at hR
    obtain ⟨r, hr, hR⟩ := Option.bind_eq_some_iff.mp hR
    exact ih (hstep _ _ r hacc hr) hR

theorem smul_eq_some_iff :
    smul C k nb P = some R ↔ P.Valid C.F ∧ oncurve C P = true ∧ smulLoop C k P nb .inf = some R := by
  rw [smul, Option.ite_none_right_eq_some, Bool.and_eq_true, Pt.valid_eq_true, and_assoc]

theorem ladderStep_valid_oncurve (hC : C.WF) (hP : oncurve C P = true) {bit : Bool} {acc : Pt}
    (hacc : acc.Valid C.F ∧ oncurve C acc = true) (hR : ladderStep C P bit acc = some R) :
    R.Valid C.F ∧ oncurve C R = true := by
  obtain ⟨d, hd, hR⟩ := Option.bind_eq_some_iff.mp hR
  have hdcurve := adbl_oncurve hC hacc.2 hd
  cases bit with
  | false =>
    cases hR
    exact ⟨adbl_valid hC.field hd, hdcurve⟩
  | true => exact ⟨aadd_valid hC.field hR, aadd_oncurve hC hdcurve hP hR⟩

theorem smul_valid_oncurve (hC : C.WF) (hR : smul C k nb P = some R) : R.Valid C.F ∧ oncurve C R = true := by
  obtain ⟨-, hP, hloop⟩ := smul_eq_some_iff.mp hR
  exact smulLoop_keeps (I := fun Q => Q.Valid C.F ∧ oncurve C Q = true)
    (fun bit acc r hacc hr => ladderStep_valid_oncurve hC hP hacc hr) ⟨Pt.valid_inf C.F, rfl⟩ hloop

theorem smul_eq_smulLoop (hP : P.Valid C.F) (hon : oncurve C P = true) : smul C k nb P = smulLoop C k P nb .inf := by
  rw [smul, if_pos (by simp [hP, hon])]

/-- The ladder over the bits of 2k + b is the ladder over those of k and one round for b. -/
theorem smulLoop_bit (C : Curve) (b : Bool) (k : Nat) (P : Pt) (i : Nat) (acc : Pt) :
    smulLoop C (Nat.bit b k) P (i + 1) acc = (smulLoop C k P i acc).bind (ladderStep C P b) := by
  induction i generalizing acc with
  | zero => rw [smulLoop_succ, Nat.testBit_bit_zero, smulLoop_zero, Option.bind_some,
      funext (smulLoop_zero C (Nat.bit b k) P), Option.bind_fun_some]
  | succ i ih => rw [smulLoop_succ, Nat.testBit_bit_succ, funext ih, smulLoop_succ C k, Option.bind_assoc]

/-- Rounds over leading zeros leave Infinity. -/
theorem smulLoop_leading_zeros (C : Curve) {k n : Nat} (P : Pt) (hk : k < 2 ^ n) (d : Nat) :
    smulLoop C k P (n + d) .inf = smulLoop C k P n .inf := by
  induction d with
  | zero => rfl
  | succ d ih =>
    have hbit : k.testBit (n + d) = false :=
      Nat.testBit_lt_two_pow (hk.trans_le (Nat.pow_le_pow_right Nat.two_pos (Nat.le_add_right n d)))
    rw [← Nat.add_assoc, smulLoop_succ, hbit, ladderStep_false_inf, Option.bind_some, ih]

theorem smulLoop_eq_of_lt {nb' : Nat} (hk : k < 2 ^ nb) (hk' : k < 2 ^ nb') :
    smulLoop C k P nb .inf = smulLoop C k P nb' .inf := by
  wlog hle : nb ≤ nb' generalizing nb nb'
  · exact (this hk' hk (Nat.le_of_not_le hle)).symm
  · obtain ⟨d, rfl⟩ := Nat.exists_eq_add_of_le hle
    exact (smulLoop_leading_zeros C P hk d).symm

end Closure

/-- Settles O48: the third point of a line through points of the curve is on the curve, and a ladder keeps what its rounds keep. -/
theorem affineOperationsStayOnTheCurve : Obligations.AffineOperationsStayOnTheCurve := by
  intro C hC
  exact ⟨fun P R _ hP hR => ⟨adbl_valid hC.field hR, adbl_oncurve hC hP hR⟩,
    fun P Q R hP hQ hR => ⟨aadd_valid hC.field hR, aadd_oncurve hC hP hQ hR⟩,
    fun k nb P R hR => smul_valid_oncurve hC hR⟩

/-- Settles O49: the last round of the ladder is that of the lowest bit, and the first ones, over leading zeros, stay at
Infinity. -/
theorem scalarMultipleBasics : Obligations.ScalarMultipleBasics := by
  intro C P hC hP hon
  simp only [smul_eq_smulLoop hP hon]
  refine ⟨fun nb => ?_, fun nb hnb => ?_, fun k nb => ⟨?_, ?_⟩, fun k nb nb' hk hk' => smulLoop_eq_of_lt hk hk'⟩
  · exact smulLoop_eq_of_lt (nb' := 0) (by positivity) (by decide)
  · rw [smulLoop_eq_of_lt (nb' := 1) (Nat.one_lt_two_pow hnb.ne') (by decide), smulLoop_succ, Nat.testBit_one_zero,
      ladderStep_true_inf, aadd_inf_left hP, Option.bind_some, smulLoop_zero]
  · rw [← Nat.bit_false_apply, smulLoop_bit, ladderStep_false]
  · rw [← Nat.bit_true_apply, smulLoop_bit, Option.bind_assoc]
    rfl

/-! ### The formulas as congruences of the represented values -/

section Congruences

variable (K : Type) [Field K] {F : Desc} [CharP K F.p]

theorem Desc.emod_eq_zero_iff (z : Int) : z % F.p = 0 ↔ (z : K) = 0 := by
  rw [CharP.intCast_eq_zero_iff K F.p, Int.dvd_iff_emod_eq_zero]

variable {K} in
theorem Desc.WF.intCast_val (h : F.WF) {a : Nat} (ha : a < F.p) : (val F a : K) = fieldValue K a := by
  rw [val, Int.cast_natCast, h.natCast_tostd ha]

theorem Desc.WF.thirdPoint_iff (h : F.WF) {s x₁ y₁ x₂ x' y' : Nat} (hs : s < F.p) (hx₁ : x₁ < F.p) (hy₁ : y₁ < F.p)
    (hx₂ : x₂ < F.p) (hx' : x' < F.p) (hy' : y' < F.p) :
    ThirdPoint F (val F s) x₁ y₁ x₂ x' y' ↔ NegThirdPoint (fieldValue K s) (fieldValue K x₁) (fieldValue K y₁)
      (fieldValue K x₂) (fieldValue K x') (fieldValue K y') := by
  rw [ThirdPoint, Desc.emod_eq_zero_iff K, Desc.emod_eq_zero_iff K]
  push_cast
  rw [h.intCast_val hs, h.intCast_val hx₁, h.intCast_val hy₁, h.intCast_val hx₂, h.intCast_val hx', h.intCast_val hy',
    sub_eq_zero, add_eq_zero_iff_eq_neg]
  exact ⟨fun ⟨hx, hy⟩ => ⟨hx, hy⟩, fun hpoint => ⟨hpoint.x, hpoint.y⟩⟩

end Congruences

/-- Settles O59: the slopes of R100 and R101 satisfy their equations in the field of p elements, and `chord` is the third point. -/
theorem affineFormulasOnRepresentedValues : Obligations.AffineFormulasOnRepresentedValues := by
  intro C hC
  have h := hC.field
  have hA := hC.a_reduced
  obtain ⟨K, _, _⟩ := exists_field_of_prime h.prime
  refine ⟨⟨adbl_inf C, fun x y hx hpos hy => ?_, fun x y hdomain => adbl_fin_eq_none hdomain⟩,
    fun xP yP xQ yQ hxP hyP hxQ hyQ hne => ?_, fun x yP yQ hne hneg => aadd_same_x_eq_none hne hneg⟩
  · have hs := tangentSlope_lt (x := x) (y := y) h
    obtain ⟨x', y', heq, hx', hy', hpoint⟩ := h.exists_chord K hs hx hy hx
    refine ⟨x', y', val C.F (tangentSlope C x y), by rw [adbl_fin hx hpos hy, heq], hx', hy', ?_,
      (h.thirdPoint_iff K hs hx hy hx hx' hy').mpr hpoint⟩
    rw [Desc.emod_eq_zero_iff K]
    push_cast
    rw [h.intCast_val hs, h.intCast_val hx, h.intCast_val hy, h.intCast_val hA, sub_eq_zero]
    exact fieldValue_tangentSlope K h hA hx hpos hy
  · have hs := h.chordSlope_lt (xP := xP) (yP := yP) (xQ := xQ) (yQ := yQ)
    obtain ⟨x', y', heq, hx', hy', hpoint⟩ := h.exists_chord K hs hxP hyP hxQ
    refine ⟨x', y', val C.F (chordSlope C.F xP yP xQ yQ), by rw [aadd_chord ⟨hxP, hyP⟩ ⟨hxQ, hyQ⟩ hne, heq], hx', hy', ?_,
      (h.thirdPoint_iff K hs hxP hyP hxQ hx' hy').mpr hpoint⟩
    rw [Desc.emod_eq_zero_iff K]
    push_cast
    rw [h.intCast_val hs, h.intCast_val hxP, h.intCast_val hyP, h.intCast_val hxQ, h.intCast_val hyQ, sub_eq_zero]
    exact h.fieldValue_chordSlope K hxP hyP hxQ hyQ hne

end Sys2Proof.Machine
end

section
/-! The commands of the affine curve family (R103 to R111), and PISINF (R119).  A test writes T; any other command is one MemWrite
of the encoding of the point that its function answers, which fits in the eight words at rd. -/

namespace Sys2Proof.Machine

/-! ### The words of a value that is read (R8) -/

theorem State.bufWord_eq_readAt_div (s : State) (a : Nat) {i k : Nat} (hi : i < k) :
    s.bufWord (a + i) = BitVec.ofNat 64 (s.readAt a k / 2 ^ (64 * i)) := by
  obtain ⟨m, rfl⟩ := Nat.exists_eq_add_of_lt hi
  rw [Nat.add_assoc, s.readAt_add a i (m + 1), Nat.add_mul_div_left _ _ (by positivity),
    Nat.div_eq_of_lt (s.readAt_lt a i), Nat.zero_add, State.readAt]
  refine BitVec.eq_of_toNat_eq ?_
  rw [BitVec.toNat_ofNat, Nat.add_mul_mod_self_left, Nat.mod_eq_of_lt (s.bufWord (a + i)).isLt]

/-- A value is read exactly when each word is its limb. -/
theorem State.readAt_eq_iff (s : State) (a : Nat) {k v : Nat} (hv : v < 2 ^ (64 * k)) :
    s.readAt a k = v ↔ ∀ i, i < k → s.bufWord (a + i) = BitVec.ofNat 64 (v / 2 ^ (64 * i)) := by
  constructor
  · rintro rfl i hi
    exact s.bufWord_eq_readAt_div a hi
  · intro hwords
    rw [State.readAt_eq_of_words hwords, Nat.mod_eq_of_lt hv]

theorem all_ones_limb {i k : Nat} (hi : i < k) :
    BitVec.ofNat 64 ((2 ^ (64 * k) - 1) / 2 ^ (64 * i)) = 0xFFFFFFFFFFFFFFFF#64 := by
  rw [show 0xFFFFFFFFFFFFFFFF#64 = BitVec.allOnes 64 from rfl]
  ext j hj
  rw [← BitVec.getLsbD_eq_getElem, BitVec.getLsbD_ofNat, Nat.testBit_div_two_pow, Nat.testBit_two_pow_sub_one,
    BitVec.getElem_allOnes, decide_eq_true (show j < 64 by omega), decide_eq_true (show j + 64 * i < 64 * k by omega)]
  rfl

theorem isinf_memRead_iff (s : State) (a : Addr) :
    isinf (s.memRead a 8) = true ↔ ∀ k, k < 8 → s.bufWord (a.toNat + k) = 0xFFFFFFFFFFFFFFFF#64 := by
  rw [isinf_iff, encA_inf, State.memRead, s.readAt_eq_iff a.toNat (by omega)]
  exact forall₂_congr fun i hi => by rw [all_ones_limb (k := 8) hi]

theorem readTriple_z_eq_zero_iff (s : State) (a : Addr) :
    (s.readTriple a).z = 0 ↔ ∀ k, 8 ≤ k → k < 12 → s.bufWord (a.toNat + k) = 0#64 := by
  rw [State.readTriple, s.readAt_eq_iff (a.toNat + 8) (by decide)]
  simp only [Nat.zero_div]
  constructor
  · intro hwords k hlow hhigh
    have hword := hwords (k - 8) (by omega)
    rwa [Nat.add_assoc, Nat.add_sub_cancel' hlow] at hword
  · intro hwords i hi
    rw [Nat.add_assoc]
    exact hwords (8 + i) (by omega) (by omega)

/-! ### Completing with a point or a predicate -/

section Shapes

variable {i : Instr} {s : State}

/-- A ready command that writes a point under a checked precondition that holds, where the function that gives it is defined. -/
theorem completes_point {rd : Addr} {c : Bool} {P : Option Pt} {R : Pt} (hready : Ready i s)
    (hexec : exec i s = issue i s (s.writeResult rd 8 (ptResult c P))) (hdest : destOf i = some (rd, 8)) (hpre : c = true)
    (hpoint : P = some R) (hR : encA R < 2 ^ 512) : Completes i s fun t => t.memRead rd 8 = encA R := by
  subst hpre hpoint
  exact completes_value hready hexec hdest (by omega)

/-- A ready command that gives T the value of a predicate where its rule gives one. -/
theorem completes_predicate {v : Option Bool} {b : Bool} (hready : Ready i s) (hexec : exec i s = issue i s (s.flagResult v))
    (hflag : writesT i = true) (hv : v = some b) : Completes i s fun t => t.t = b ∧ t.buf = s.buf := by
  subst hv
  exact completes_flag hready hexec hflag

end Shapes

/-- Where AINSUB has a rule's answer it is whether the point is on the curve and its multiple, or itself, is Infinity (R105). -/
theorem insub_eq_some {C : Curve} {P : Pt}
    (h : P.Valid C.F ∧ (oncurve C P = true → ∃ Q, smul C (quadVal C.cv.COF) 256 P = some Q)) :
    ∃ b, insub true C P = some b ∧ (b = true ↔ oncurve C P = true
      ∧ (P = .inf ∨ smul C (quadVal C.cv.COF) 256 P = some .inf)) := by
  obtain ⟨hP, hdefined⟩ := h
  cases hon : oncurve C P with
  | false => exact ⟨false, by simp [insub, hP, hon], by simp⟩
  | true =>
    cases P with
    | inf => exact ⟨true, by simp [insub, hP, hon], by simp⟩
    | fin x y =>
      obtain ⟨Q, hQ⟩ := hdefined hon
      exact ⟨decide (Q = .inf), by simp [insub, hP, hon, hQ], by simp [hQ]⟩

/-! ### Negation (R99) -/

theorem Desc.WF.fneg_eq_mod {F : Desc} (h : F.WF) {a : Nat} (ha : a < F.p) : fneg F a = (F.p - a) % F.p := by
  obtain rfl | hpos := Nat.eq_zero_or_pos a
  · rw [Nat.sub_zero, Nat.mod_self, fneg, if_pos rfl]
  · rw [h.fneg_eq_sub hpos ha, Nat.mod_eq_of_lt (by omega)]

/-- The coordinates that are read are four words each. -/
theorem decA_eq_fin {w x y : Nat} (h : decA w = .fin x y) : x = w % 2 ^ 256 ∧ y = w / 2 ^ 256 := by
  unfold decA at h
  split at h
  · cases h
  · cases h
    exact ⟨rfl, rfl⟩

/-- The negative of a point that is read fits in eight words, also if its x is not reduced (R106). -/
theorem encA_aneg_lt {C : Curve} {w : Nat} (h : C.F.WF) (hy : ∀ x y, decA w = .fin x y → y < C.F.p) :
    encA (aneg C (decA w)) < 2 ^ 512 := by
  cases hw : decA w with
  | inf => exact Pt.Valid.encA_lt (F := C.F) (Pt.valid_inf C.F)
  | fin x y =>
    obtain ⟨hx, -⟩ := decA_eq_fin hw
    have hlt := encA_fin_lt (hx.trans_lt (Nat.mod_lt w (by decide))) (Desc.lt_all_ones (h.fneg_lt (hy x y hw)))
    exact hlt.trans encA_inf_lt

/-! ### The obligations of the affine commands -/

/-- Settles O50: a value is all ones, or zero, when its words are. -/
theorem infinityTestsSetTheFlag : Obligations.InfinityTestsSetTheFlag := by
  refine ⟨opcodeIs_of_mem (e := ⟨_, _, fun f => .aisinf f.ra⟩) (by simp [opcodeMap]),
    opcodeIs_of_mem (e := ⟨_, _, fun f => .pisinf f.ra⟩) (by simp [opcodeMap]), ?_, ?_⟩
  · intro ra s hready
    refine (completes_flag hready rfl rfl).mono ?_
    rintro t ⟨hinf, hbuf⟩
    exact ⟨by rw [hinf, isinf_memRead_iff], hbuf⟩
  · intro ra s hready
    refine (completes_flag hready rfl rfl).mono ?_
    rintro t ⟨hzero, hbuf⟩
    exact ⟨by rw [hzero, isZero_iff, readTriple_z_eq_zero_iff], hbuf⟩

/-- Settles O51: under their preconditions the two commands give T the value of a predicate. -/
theorem curveTestsSetTheFlag : Obligations.CurveTestsSetTheFlag := by
  refine ⟨opcodeIs_of_mem (e := ⟨_, _, fun f => .aoncrv f.ra⟩) (by simp [opcodeMap]),
    opcodeIs_of_mem (e := ⟨_, _, fun f => .ainsub f.ra⟩) (by simp [opcodeMap]), ?_, ?_⟩
  · intro ra s hready hpre
    refine completes_predicate hready rfl rfl (if_pos ?_)
    rwa [Bool.and_eq_true, Curve.specifiedCheck_iff, Pt.valid_eq_true]
  · rintro ra s hready ⟨hwfc, hpoint⟩
    obtain ⟨b, hb, hiff⟩ := insub_eq_some (C := s.curve) hpoint
    have hinsub : insub s.wfcCheck s.curve (s.readPt ra) = some b := by rw [State.wfcCheck_iff.mpr hwfc, hb]
    refine (completes_predicate hready rfl rfl hinsub).mono ?_
    rintro t ⟨hflag, hbuf⟩
    exact ⟨hbuf, by rw [hflag]; exact hiff⟩

/-- Settles O52: the y written is the reduced negative, and x is written as it was read. -/
theorem anegNegatesThePoint : Obligations.AnegNegatesThePoint := by
  refine ⟨opcodeIs_of_mem (e := ⟨_, _, fun f => .aneg f.rd f.ra⟩) (by simp [opcodeMap]), ?_⟩
  rintro rd ra s hready ⟨h, hy⟩
  have hfits : encA (aneg s.curve (s.readPt ra)) < 2 ^ 512 := encA_aneg_lt h hy
  refine (completes_point hready rfl rfl (anegPre_iff.mpr ⟨h, hy⟩) rfl hfits).mono fun t ht => ⟨fun hinf => ?_, ?_⟩
  · rw [ht, hinf, aneg, encA_inf]
  · intro x y hfin
    rw [ht, hfin, aneg, encA, State.curve_F, h.fneg_eq_mod (hy x y hfin)]

/-- Settles O53: the sum is a valid point, so its encoding fits. -/
theorem affineAdditionCommandsWriteTheSum : Obligations.AffineAdditionCommandsWriteTheSum := by
  refine ⟨opcodeIs_of_mem (e := ⟨_, _, fun f => .adbl f.rd f.ra⟩) (by simp [opcodeMap]),
    opcodeIs_of_mem (e := ⟨_, _, fun f => .aadd f.rd f.ra f.rb⟩) (by simp [opcodeMap]), ?_, ?_⟩
  · intro rd ra s R hready hcurve hR
    exact completes_point hready rfl rfl (Curve.specifiedCheck_iff.mpr hcurve) hR
      (adbl_valid hcurve.wf.field hR).encA_lt
  · intro rd ra rb s R hready hcurve hR
    exact completes_point hready rfl rfl (Curve.specifiedCheck_iff.mpr hcurve) hR
      (aadd_valid hcurve.wf.field hR).encA_lt

/-- Settles O54: the multiple is a valid point, so its encoding fits. -/
theorem affineMultiplicationCommandsWriteTheMultiple : Obligations.AffineMultiplicationCommandsWriteTheMultiple := by
  refine ⟨opcodeIs_of_mem (e := ⟨_, _, fun f => .asmul64 f.rd f.ra f.rb⟩) (by simp [opcodeMap]),
    opcodeIs_of_mem (e := ⟨_, _, fun f => .asmulb f.rd f.ra f.rb f.len.toNat⟩) (by simp [opcodeMap]),
    opcodeIs_of_mem (e := ⟨_, _, fun f => .asmulf (bankOf f.fs) f.rd f.ra f.rb⟩) (by simp [opcodeMap]), ?_, ?_, ?_⟩
  · intro rd ra rb s R hready hwfc hR
    exact completes_point hready rfl rfl (State.wfcCheck_iff.mpr hwfc) hR (smul_valid_oncurve hwfc.curve.wf hR).1.encA_lt
  · intro rd ra rb len s R hready hwfc hR
    exact completes_point hready rfl rfl (State.wfcCheck_iff.mpr hwfc) hR (smul_valid_oncurve hwfc.curve.wf hR).1.encA_lt
  · intro fs rd ra rb s R hready hwfc hbank hscalar hR
    exact completes_point hready rfl rfl (by simp [hwfc, hbank, hscalar]) hR
      (smul_valid_oncurve hwfc.curve.wf hR).1.encA_lt

end Sys2Proof.Machine
end

section
/-! The projective form (R112 to R115).  Every operation of a ProjImpl is a `conform`, so R115 is proved once for `conform`: its
result is a valid triple, and it represents the point that a property of R115 names.  Each operation then needs only that this
point is valid. -/

namespace Sys2Proof.Machine

/-! ### Triples and the points they represent (R112, R113) -/

theorem Triple.reduce_valid {F : Desc} (hpos : 0 < F.p) (t : Triple) : (t.reduce F).Valid F :=
  ⟨Nat.mod_lt _ hpos, Nat.mod_lt _ hpos, Nat.mod_lt _ hpos⟩

theorem Desc.WF.one_pos {F : Desc} (h : F.WF) : 0 < F.one := by
  obtain ⟨K, _, _⟩ := exists_field_of_prime h.prime
  refine Nat.pos_of_ne_zero (mt (h.fieldValue_eq_zero_iff (K := K) h.one_lt).mpr ?_)
  rw [h.fieldValue_one]
  exact one_ne_zero

theorem Desc.WF.fdiv_one {F : Desc} (h : F.WF) {a : Nat} (ha : a < F.p) : fdiv F a F.one = a := by
  rw [← h.fmul_one (h.fdiv_lt a F.one), h.fmul_fdiv h.one_pos h.one_lt ha]

section Represents

variable {C : Curve} {P R : Pt} {t u : Triple}

theorem rep_valid (h : C.F.WF) (t : Triple) : (rep C t).Valid C.F := by
  unfold rep
  split
  · exact Pt.valid_inf C.F
  · exact ⟨h.fdiv_lt _ _, h.fdiv_lt _ _⟩

theorem refFroma_valid (h : C.F.WF) (hP : P.Valid C.F) : (refFroma C P).Valid C.F := by
  cases P with
  | inf => exact ⟨h.pos, h.one_lt, h.pos⟩
  | fin x y => exact ⟨hP.1, hP.2, h.one_lt⟩

/-- PJ-FROM of the triples that R116 converts points to. -/
theorem rep_refFroma (h : C.F.WF) (hP : P.Valid C.F) : rep C (refFroma C P) = P := by
  cases P with
  | inf => exact if_pos rfl
  | fin x y =>
    obtain ⟨hx, hy⟩ := hP
    rw [rep, refFroma, if_neg h.one_pos.ne', h.fdiv_one hx, h.fdiv_one hy]

/-! ### What R115 asks of a result -/

/-- `t` is a valid triple and, where a property of R115 names a point, represents it. -/
structure Conforms (C : Curve) (required : Option Pt) (t : Triple) : Prop where
  valid : t.Valid C.F
  represents : ∀ R, required = some R → rep C t = R

theorem conforms_conform {required : Option Pt} (h : C.F.WF) (hvalid : ∀ R, required = some R → R.Valid C.F)
    (candidate : Triple) : Conforms C required (conform C required candidate) := by
  have hreduced := candidate.reduce_valid h.pos
  cases required with
  | none => exact ⟨hreduced, by simp⟩
  | some P =>
    simp only [conform]
    split_ifs with hrep
    · exact ⟨hreduced, fun R hR => hrep.trans (Option.some.inj hR)⟩
    · have hP := hvalid P rfl
      exact ⟨refFroma_valid h hP, fun R hR => (rep_refFroma h hP).trans (Option.some.inj hR)⟩

/-! ### The operations of a ProjImpl (R114) -/

theorem requiredDbl_eq_some_iff :
    requiredDbl C t = some R ↔ oncurve C (rep C t) = true ∧ adbl C (rep C t) = some R := by
  rw [requiredDbl, Option.ite_none_right_eq_some]

theorem requiredAdd_eq_some_iff : requiredAdd C t u = some R ↔ oncurve C (rep C t) = true ∧ oncurve C (rep C u) = true
    ∧ aadd C (rep C t) (rep C u) = some R := by
  rw [requiredAdd, Option.ite_none_right_eq_some, Bool.and_eq_true, and_assoc]

variable (impl : Config.ProjChoice)

theorem pfroma_conforms (hC : C.WF) (hP : P.Valid C.F) : Conforms C (some P) (pfroma impl C P) :=
  conforms_conform hC.field (fun _ hR => Option.some.inj hR ▸ hP) _

theorem pdbl_conforms (hC : C.WF) (t : Triple) : Conforms C (requiredDbl C t) (pdbl impl C t) :=
  conforms_conform hC.field (fun _ hR => adbl_valid hC.field (requiredDbl_eq_some_iff.mp hR).2) _

theorem padd_conforms (hC : C.WF) (t u : Triple) : Conforms C (requiredAdd C t u) (padd impl C t u) :=
  conforms_conform hC.field (fun _ hR => aadd_valid hC.field (requiredAdd_eq_some_iff.mp hR).2.2) _

theorem psmul_conforms (hC : C.WF) (k nb : Nat) (t : Triple) :
    Conforms C (requiredSmul C k nb t) (psmul impl C k nb t) :=
  conforms_conform hC.field (fun _ hR => (smul_valid_oncurve hC hR).1) _

end Represents

/-- Settles O55: the affine operations answer valid points, to which `conform` binds every implementation; the ladder on a
converted point multiplies that point, by PJ-FROM. -/
theorem everyProjImplRepresentsTheAffineGroup : Obligations.EveryProjImplRepresentsTheAffineGroup := by
  intro impl C hC
  refine ⟨fun P hP => ?_, fun t _ => ?_, fun t u _ _ => ?_, fun k nb t _ _ => ?_, fun k nb P R _ hP hR => ?_⟩
  · have hfrom := pfroma_conforms impl hC hP
    exact ⟨hfrom.valid, hfrom.represents P rfl⟩
  · have hdbl := pdbl_conforms impl hC t
    exact ⟨hdbl.valid, fun R hon hR => hdbl.represents R (requiredDbl_eq_some_iff.mpr ⟨hon, hR⟩)⟩
  · have hadd := padd_conforms impl hC t u
    exact ⟨hadd.valid, fun R ht hu hR => hadd.represents R (requiredAdd_eq_some_iff.mpr ⟨ht, hu, hR⟩)⟩
  · have hmul := psmul_conforms impl hC k nb t
    exact ⟨hmul.valid, hmul.represents⟩
  · have hfrom : rep C (pfroma impl C P) = P := (pfroma_conforms impl hC hP).represents P rfl
    refine (psmul_conforms impl hC k nb _).represents R ?_
    rw [requiredSmul, hfrom, hR]

end Sys2Proof.Machine
end

section
/-! The commands of the projective curve family (R117, R118, R120 to R124).  A command that answers a triple is one MemWrite of its
twelve words, from which the triple is read back; so one lemma for each command says that what stands at rd conforms to R115, and
O57 and O58 are its two halves. -/

namespace Sys2Proof.Machine

/-! ### The words of a triple (R112) -/

/-- MemRead of twelve words is the encoding of the triple that stands there. -/
theorem State.memRead_eq_encP (s : State) (a : Addr) : s.memRead a 12 = encP (s.readTriple a) := by
  have hx : s.readAt a.toNat 4 = (s.readTriple a).x := rfl
  have hy : s.readAt (a.toNat + 4) 4 = (s.readTriple a).y := rfl
  have hz : s.readAt (a.toNat + 4 + 4) 4 = (s.readTriple a).z := rfl
  rw [State.memRead, s.readAt_add a.toNat 4 8, s.readAt_add (a.toNat + 4) 4 4, hx, hy, hz, encP]
  omega

/-- A triple of four-word coordinates is known from its encoding. -/
theorem encP_inj {t u : Triple} (htx : t.x < 2 ^ 256) (hty : t.y < 2 ^ 256) (hux : u.x < 2 ^ 256) (huy : u.y < 2 ^ 256)
    (heq : encP t = encP u) : t = u := by
  cases t
  cases u
  simp only [encP, Triple.mk.injEq] at *
  omega

theorem State.readTriple_eq_of_memRead {s : State} {a : Addr} {F : Desc} {t : Triple} (ht : t.Valid F)
    (hread : s.memRead a 12 = encP t) : s.readTriple a = t := by
  obtain ⟨hx, hy, -⟩ := ht
  exact encP_inj (s.readAt_lt _ 4) (s.readAt_lt _ 4) (hx.trans F.p_lt) (hy.trans F.p_lt)
    ((s.memRead_eq_encP a).symm.trans hread)

theorem Triple.Valid.encP_lt {F : Desc} {t : Triple} (ht : t.Valid F) : encP t < 2 ^ (64 * 12) := by
  obtain ⟨hx, hy, hz⟩ := ht
  have hp := F.p_lt
  unfold encP
  omega

/-! ### Completing with a triple -/

/-- A ready command that writes a triple of R115 under a checked precondition that holds. -/
theorem completes_triple {i : Instr} {s : State} {rd : Addr} {c : Bool} {required : Option Pt} {T : Triple}
    (hready : Ready i s) (hexec : exec i s = issue i s (s.writeResult rd 12 (whenPre c (encP T))))
    (hdest : destOf i = some (rd, 12)) (hpre : c = true) (hT : Conforms s.curve required T) :
    Completes i s fun t => Conforms s.curve required (t.readTriple rd) := by
  subst hpre
  refine (completes_value hready hexec hdest hT.valid.encP_lt).mono fun t ht => ?_
  rwa [State.readTriple_eq_of_memRead hT.valid ht]

section Commands

variable {s : State} {rd ra rb : Addr}

theorem completes_pdbl (hready : Ready (.pdbl rd ra) s) (hwfc : s.WFC) (ha : (s.readTriple ra).Valid s.fd0) :
    Completes (.pdbl rd ra) s fun t => Conforms s.curve (requiredDbl s.curve (s.readTriple ra)) (t.readTriple rd) :=
  completes_triple hready rfl rfl (by simp [hwfc, ha]) (pdbl_conforms s.projImpl hwfc.curve.wf _)

theorem completes_padd (hready : Ready (.padd rd ra rb) s) (hwfc : s.WFC) (ha : (s.readTriple ra).Valid s.fd0)
    (hb : (s.readTriple rb).Valid s.fd0) : Completes (.padd rd ra rb) s fun t =>
      Conforms s.curve (requiredAdd s.curve (s.readTriple ra) (s.readTriple rb)) (t.readTriple rd) :=
  completes_triple hready rfl rfl (by simp [hwfc, ha, hb]) (padd_conforms s.projImpl hwfc.curve.wf _ _)

theorem completes_psmul64 (hready : Ready (.psmul64 rd ra rb) s) (hwfc : s.WFC) (ha : (s.readTriple ra).Valid s.fd0) :
    Completes (.psmul64 rd ra rb) s fun t =>
      Conforms s.curve (requiredSmul s.curve (s.memRead rb 1) 64 (s.readTriple ra)) (t.readTriple rd) :=
  completes_triple hready rfl rfl (by simp [hwfc, ha]) (psmul_conforms s.projImpl hwfc.curve.wf _ _ _)

theorem completes_psmulb {len : Nat} (hready : Ready (.psmulb rd ra rb len) s) (hwfc : s.WFC)
    (ha : (s.readTriple ra).Valid s.fd0) : Completes (.psmulb rd ra rb len) s fun t =>
      Conforms s.curve (requiredSmul s.curve (s.memRead rb len) (64 * len) (s.readTriple ra)) (t.readTriple rd) :=
  completes_triple hready rfl rfl (by simp [hwfc, ha]) (psmul_conforms s.projImpl hwfc.curve.wf _ _ _)

theorem completes_psmulf {fs : Bank} (hready : Ready (.psmulf fs rd ra rb) s) (hwfc : s.WFC) (hbank : (s.bank fs).WF)
    (hscalar : s.memRead rb 4 < (s.bank fs).p) (ha : (s.readTriple ra).Valid s.fd0) :
    Completes (.psmulf fs rd ra rb) s fun t =>
      Conforms s.curve (requiredSmul s.curve (tostd (s.bank fs) (s.memRead rb 4)) 256 (s.readTriple ra))
        (t.readTriple rd) :=
  completes_triple hready rfl rfl (by simp [hwfc, hbank, hscalar, ha]) (psmul_conforms s.projImpl hwfc.curve.wf _ _ _)

end Commands

/-- Where a property of R115 names a point, a command that conforms to it writes a valid triple that represents the point. -/
theorem Completes.represents {i : Instr} {s : State} {required : Option Pt} {rd : Addr} {R : Pt}
    (h : Completes i s fun t => Conforms s.curve required (t.readTriple rd)) (hR : required = some R) :
    Completes i s fun t => (t.readTriple rd).Valid s.fd0 ∧ rep s.curve (t.readTriple rd) = R :=
  h.mono fun _ ht => ⟨ht.valid, ht.represents R hR⟩

/-- Whether or not R115 names a point, a command that conforms to it writes a valid triple (U7). -/
theorem Completes.valid {i : Instr} {s : State} {required : Option Pt} {rd : Addr}
    (h : Completes i s fun t => Conforms s.curve required (t.readTriple rd)) :
    Completes i s fun t => (t.readTriple rd).Valid s.fd0 :=
  h.mono fun _ ht => ht.valid

/-! ### The obligations of the projective commands -/

/-- Settles O56: PFROMA is PJ-FROM for the point read; the point of a triple is valid, so PTOA writes an encoding of eight words
that decodes to it. -/
theorem conversionCommandsKeepThePoint : Obligations.ConversionCommandsKeepThePoint := by
  refine ⟨opcodeIs_of_mem (e := ⟨_, _, fun f => .pfroma f.rd f.ra⟩) (by simp [opcodeMap]),
    opcodeIs_of_mem (e := ⟨_, _, fun f => .ptoa f.rd f.ra⟩) (by simp [opcodeMap]), ?_, ?_⟩
  · rintro rd ra s hready ⟨hcurve, hP⟩
    -- `hP` written as a term here would have the elaborator evaluate the point read, down to its words.
    have hfrom := pfroma_conforms (P := s.readPt ra) s.projImpl hcurve.wf (by assumption)
    exact (completes_triple hready rfl rfl (by simp [hcurve, hP]) hfrom).represents rfl
  · rintro rd ra s hready ⟨hcurve, ht⟩
    have hvalid : (rep s.curve (s.readTriple ra)).Valid s.fd0 := rep_valid hcurve.wf.field _
    obtain ⟨hdecode, hfits, -⟩ := affineEncodingIsFaithful s.fd0 _ hcurve.wf.field hvalid
    refine (completes_point hready rfl rfl (by simp [hcurve, ht]) rfl hfits).mono fun t hread => ⟨hread, ?_⟩
    rw [State.readPt, hread, hdecode]

/-- Settles O57: under the hypotheses of its property of R115 each command's required point is the affine result. -/
theorem projectiveCommandsRepresentTheAffineResult : Obligations.ProjectiveCommandsRepresentTheAffineResult := by
  refine ⟨opcodeIs_of_mem (e := ⟨_, _, fun f => .pdbl f.rd f.ra⟩) (by simp [opcodeMap]),
    opcodeIs_of_mem (e := ⟨_, _, fun f => .padd f.rd f.ra f.rb⟩) (by simp [opcodeMap]),
    opcodeIs_of_mem (e := ⟨_, _, fun f => .psmul64 f.rd f.ra f.rb⟩) (by simp [opcodeMap]),
    opcodeIs_of_mem (e := ⟨_, _, fun f => .psmulb f.rd f.ra f.rb f.len.toNat⟩) (by simp [opcodeMap]),
    opcodeIs_of_mem (e := ⟨_, _, fun f => .psmulf (bankOf f.fs) f.rd f.ra f.rb⟩) (by simp [opcodeMap]), ?_, ?_, ?_, ?_, ?_⟩
  · intro rd ra s R hready hwfc ha hon hR
    exact (completes_pdbl hready hwfc ha).represents (requiredDbl_eq_some_iff.mpr ⟨hon, hR⟩)
  · intro rd ra rb s R hready hwfc ha hb hona honb hR
    exact (completes_padd hready hwfc ha hb).represents (requiredAdd_eq_some_iff.mpr ⟨hona, honb, hR⟩)
  · intro rd ra rb s R hready hwfc ha hR
    exact (completes_psmul64 hready hwfc ha).represents hR
  · intro rd ra rb len s R hready hwfc ha hR
    exact (completes_psmulb hready hwfc ha).represents hR
  · intro fs rd ra rb s R hready hwfc hbank hscalar ha hR
    exact (completes_psmulf hready hwfc hbank hscalar ha).represents hR

/-- Settles O58: a result that conforms to R115 is a valid triple, whatever point its operands represent. -/
theorem projectiveCommandsWriteValidTriples : Obligations.ProjectiveCommandsWriteValidTriples :=
  ⟨fun _ _ _ hready hwfc ha => (completes_pdbl hready hwfc ha).valid,
    fun _ _ _ _ hready hwfc ha hb => (completes_padd hready hwfc ha hb).valid,
    fun _ _ _ _ hready hwfc ha => (completes_psmul64 hready hwfc ha).valid,
    fun _ _ _ _ _ hready hwfc ha => (completes_psmulb hready hwfc ha).valid,
    fun _ _ _ _ _ hready hwfc hbank hscalar ha => (completes_psmulf hready hwfc hbank hscalar ha).valid⟩

end Sys2Proof.Machine
end

section
/-! The faults of the command framing (R126 to R132): each enters with its code and the fetched word, and a launch undoes a fault
entry.  In a state of the invariant a running unit holds in DONE, FAULT, CAUSE and FINFO what a launch gives them, so the launch
after a fault leads back to the very state in which the fault was raised. -/

namespace Sys2Proof.Machine

/-! ### Fault entry in a step -/

/-- The word that a faulting command leaves in FINFO is the one that was fetched (R126, R131). -/
theorem step_of_faults {i : Instr} {s : State} {code : BitVec 4} (hrun : s.run = true) (hdecode : decode s.fetch = .ok i)
    (hfaults : Faults i s code) : step s = .next (faultEntered s code s.fetch) := by
  obtain ⟨-, hencode⟩ := wellFormed_and_encode_of_decode hdecode
  rw [Faults, hencode] at hfaults
  exact (step_of_decode hrun hdecode).trans hfaults

/-- HALT uses no operand, so a command with one is not HALT (R35). -/
theorem ne_halt_of_mem_operandsOf {i : Instr} {o : Operand} (ho : o ∈ operandsOf i) : i ≠ .halt := by
  rintro rfl
  simp [operandsOf, destOf, sourcesOf] at ho

/-- A step after which FAULT is set, of a unit that had it clear, is a fault entry. -/
theorem exists_raise_of_step_faulted {s t : State} (hclear : s.faulted = false) (ht : step s = .next t)
    (hfaulted : t.faulted = true) : ∃ x w, t = s.raise x w := by
  obtain ⟨-, hstep⟩ | ⟨-, -, hstep⟩ | ⟨-, i, -, hstep⟩ := step_cases s
  · cases hstep.symm.trans ht
    cases hclear.symm.trans hfaulted
  · cases hstep.symm.trans ht
    exact ⟨_, _, rfl⟩
  · obtain ⟨-, rfl⟩ | ⟨x, -, rfl⟩ | ⟨e, -, heffect, rfl⟩ := exec_cases (hstep.symm.trans ht)
    · cases hclear.symm.trans hfaulted
    · exact ⟨x, _, rfl⟩
    · cases (heffect.frameKept.faulted.trans hclear).symm.trans hfaulted

/-! ### The launch after a fault -/

/-- While RUN = 1 no cause is recorded (R20, R21). -/
theorem State.Inv.cause_of_run {s : State} (h : s.Inv) (hrun : s.run = true) : s.cause = 0#4 := by
  simpa [h.not_faulted_of_run hrun] using h.cause_faulted

/-- A launch finds nothing to change in a unit that runs (R54). -/
theorem State.Inv.launch_of_run {s : State} (h : s.Inv) (hrun : s.run = true) : s.launch = s := by
  have hdone := h.not_done_of_run hrun
  have hfaulted := h.not_faulted_of_run hrun
  have hcause := h.cause_of_run hrun
  have hfinfo := h.finfo hfaulted
  cases s
  simp only at hrun hdone hfaulted hcause hfinfo
  simp only [State.launch, hrun, hdone, hfaulted, hcause, hfinfo]

/-- A launch writes every field that a fault entry writes (R54, R131). -/
theorem State.launch_raise (s : State) (x : ArchFault) (w : Word) : (s.raise x w).launch = s.launch := rfl

/-! ### The obligations of the faults -/

/-- Settles O6: an illegal word raises in the step, and a legal one in the checks of its command, pc before the operands. -/
theorem framingFaultsEnterWithTheirCodes : Obligations.FramingFaultsEnterWithTheirCodes := by
  obtain ⟨-, -, hillegal⟩ := illegalWordsAreThoseOutsideTheTable
  refine ⟨hillegal, fun s i hrun hdecode hi hpc => ?_, fun s i hrun hdecode hpc ⟨o, ho, hwords, hpast⟩ => ?_⟩
  · exact step_of_faults hrun hdecode (faults_at_last_slot hi hpc)
  · exact step_of_faults hrun hdecode
      (faults_of_operand_past_end (ne_halt_of_mem_operandsOf ho) hpc ho hwords hpast)

/-- Settles O15: the launch after the fault restores the state before it, from which the step is the same. -/
theorem relaunchRepeatsTheFault : Obligations.RelaunchRepeatsTheFault := by
  intro s t h hrun ht hfaulted
  obtain ⟨x, w, rfl⟩ := exists_raise_of_step_faulted (h.not_faulted_of_run hrun) ht hfaulted
  rwa [s.launch_raise, h.launch_of_run hrun]

end Sys2Proof.Machine
end

section
/-! The reset (R31, R136).  SRST first settles what is left of the command in progress and then clears the control state, so what it
keeps is what the first part keeps: everything but the destination words of a legal command of a running unit (log 17). -/

namespace Sys2Proof.Machine

/-! ### What an SRST leaves of the command in progress -/

/-- An idle unit has no command in progress. -/
theorem State.abort_of_idle {s : State} (hrun : s.run = false) : s.abort = s := by
  simp [State.abort, hrun]

/-- An illegal word has no destination. -/
theorem State.abort_of_illegal {s : State} {e : Illegal} (hdecode : decode s.fetch = .error e) : s.abort = s := by
  obtain habort | ⟨i, rd, k, hlegal, -, -, -⟩ := s.abort_cases
  · exact habort
  · cases hdecode.symm.trans hlegal

/-- Free values go to BUF alone. -/
theorem State.abort_keeps_tables (s : State) :
    s.abort.cmd = s.cmd ∧ s.abort.fd0 = s.fd0 ∧ s.abort.fd1 = s.fd1 ∧ s.abort.cv = s.cv := by
  obtain habort | ⟨i, rd, k, -, -, -, habort⟩ := s.abort_cases <;> rw [habort]
  · exact ⟨rfl, rfl, rfl, rfl⟩
  · exact ⟨rfl, rfl, rfl, rfl⟩

theorem State.read_abort_outside {s : State} {i : Instr} {a : Nat} (hdecode : decode s.fetch = .ok i)
    (ha : OutsideDest i a) : s.abort.buf.read a = s.buf.read a := by
  obtain habort | ⟨j, rd, k, hj, -, hdest, habort⟩ := s.abort_cases <;> rw [habort]
  obtain rfl : i = j := by simpa [hdecode] using hj
  exact s.read_memWrite_outside rd k _ a (ha rd k hdest)

/-- Clearing the control state leaves BUF. -/
theorem State.srst_buf (s : State) : s.srst.buf = s.abort.buf := rfl

/-! ### The obligation of the reset -/

/-- Settles O23: the control state is cleared last, whatever was in progress; BUF and the tables are those the abort left. -/
theorem resetClearsTheControlState : Obligations.ResetClearsTheControlState := by
  refine ⟨⟨rfl, rfl, rfl, rfl, rfl, rfl, rfl⟩, fun s => ⟨⟨rfl, rfl, rfl, rfl, rfl, rfl, rfl⟩, s.abort_keeps_tables,
    fun hrun => ?_, fun e hillegal => ?_, fun i a hdecode ha => ?_⟩⟩
  · rw [State.srst_buf, State.abort_of_idle hrun]
  · rw [State.srst_buf, State.abort_of_illegal hillegal]
  · rw [State.srst_buf, State.read_abort_outside hdecode ha]

end Sys2Proof.Machine
end
